-- ==== Sys2Proof/Word.lean ====
section
/-! DEFINITION. The word types of the Droplocker CORE codec block.

A byte is what the two buffers hold (rules R40, R41 in 10_state.md), a 32-bit word is a command word (rule R90 in
30_encoding.md), a 64-bit word is what the register port carries (rule R28 in 10_state.md), and a bit string is what a
prefix code is (rule R46 in 10_state.md). -/

namespace Sys2Proof

/-- One byte of IN or OUT, and the type of a byte value (rules R40, R41; `W_SYM` of rule R6). -/
abbrev Byte := BitVec 8

/-- A 32-bit word: the command word (rule R90), a stored frequency (`W_FREQ` of rule R6). -/
abbrev Word32 := BitVec 32

/-- A 64-bit word: every register of the port (rule R28), every count of a container (`W_COUNT` of rule R6). -/
abbrev Word64 := BitVec 64

/-- A bit string, first bit first; `false` is the bit 0 (rules R8, R46). -/
abbrev Bits := List Bool

end Sys2Proof
end

