-- ==== Sys2Proof/Machine/Scratch.lean ====
section
/-! DEFINITION. The registers and tables that no host port reads: the sequencer's latches and cursors, the Huffman scratch
state and the LZW scratch state (rule R20 in 10_state.md), as plain data. They are declared before Config.lean because the
values they hold after a command are free values (rule U5 in 93_implementation_defined.md), which Config.lean names. -/

namespace Sys2Proof.Machine

/-- `CMDL`, `N` and the cursors `RP`, `WP`, `BP` (rules R38, R39 in 10_state.md). -/
structure SeqRegs where
  /-- The latched command word, rule R39. -/
  cmdl : BitVec 32
  /-- The latched input length, rule R39. -/
  n : BitVec 64
  /-- Index in IN of the next byte a sequential read takes, rule R38. -/
  rp : BitVec 64
  /-- Index in OUT of the next byte a sequential write puts, rule R38. -/
  wp : BitVec 64
  /-- Huffman payload bits produced or consumed so far, rule R38. -/
  bp : BitVec 64
deriving DecidableEq, Repr, Inhabited

/-- `KIND` with the fields that kind has (rule R44): a node has both children or none, so the half-leaf cannot be written. -/
inductive NodeBody where
  /-- Leaf: `SYM`, the byte value. -/
  | leaf (sym : Byte)
  /-- Internal: `LEFT` and `RIGHT`, the indices of the children. -/
  | internal (left right : BitVec 9)
deriving DecidableEq, Repr, Inhabited

/-- One entry of the table NODE (rule R44). -/
structure Node where
  body : NodeBody
  /-- `W`, the weight, `W_WEIGHT` = 40 bits (rule R7). -/
  w : BitVec 40
  /-- `INQ`: the node is in the priority queue (rule R45). -/
  inq : Bool
deriving DecidableEq, Repr, Inhabited

/-- A table with one entry per byte value: `FREQ` (rule R43) and `CODE` (rule R46). -/
abbrev ByteTable (α : Type) := Vector α 256

/-- The Huffman scratch state of rule R20; widths as rule R37 gives them. -/
structure HuffRegs where
  /-- FREQ[0..255], unsigned 32-bit counts (rule R43). -/
  freq : ByteTable (BitVec 32)
  /-- NODE, the allocated entries NODE[0], NODE[1], .. in order (rule R44). -/
  node : List Node
  /-- `NCNT`, number of nodes allocated so far. -/
  ncnt : BitVec 10
  /-- `NSYM`, number of distinct byte values. -/
  nsym : BitVec 9
  /-- `ROOT`, index of the root node. -/
  root : BitVec 9
  /-- CODE[0..255]: entry b is the bit string `BITS`, whose length is `LEN`; length 0 is no code (rule R46). -/
  code : ByteTable Bits
  /-- `L`, the exact bit-length of the payload. -/
  len : BitVec 64
  /-- `DCNT`, `distinctByteCount` as the decoder read it. -/
  dcnt : BitVec 64
  /-- `CURN`, the tree walker's current node. -/
  curn : BitVec 9
  /-- `ACC`, the output byte being filled. -/
  acc : BitVec 8
  /-- `NB`, bits already placed in `ACC`. -/
  nb : BitVec 3
deriving DecidableEq, Repr, Inhabited

/-- One entry of the table DICT (rule R47). -/
structure DictEntry where
  /-- `PFX`, the code of the string's prefix. -/
  pfx : BitVec 12
  /-- `CH`, the string's last byte. -/
  ch : Byte
deriving DecidableEq, Repr, Inhabited

/-- The LZW scratch state of rule R20; widths as rule R37 gives them. -/
structure LzwRegs where
  /-- DICT[256], DICT[257], .., the entries stored since `DICT_INIT` (rule R47): element j is DICT[256 + j]. -/
  dict : List DictEntry
  /-- `NEXT`, the next free code. -/
  next : BitVec 13
  /-- `CUR`, encoder: code of the string `current`. -/
  cur : BitVec 12
  /-- `PREV`, decoder: code of the string `previous`. -/
  prev : BitVec 12
  /-- `CCNT`, encoder: codes emitted so far; decoder: `codeCount` as read. -/
  ccnt : BitVec 64
  /-- `CIDX`, decoder: codes processed so far. -/
  cidx : BitVec 64
  /-- `CODEV`, decoder: the code just read, two's complement. -/
  codev : BitVec 32
deriving DecidableEq, Repr, Inhabited

end Sys2Proof.Machine
end

