-- ==== Sys2Proof/Config.lean ====
section
/-! DEFINITION. What is fixed for one instance of the block, and the values the spec leaves open.

The constants are those of rule R6 in 00_scope.md. The two open parameters `IN_CAP` and `OUT_CAP` (rule R7; P1 and P2 in
92_eei_decisions.md) are a record that the machine carries and never changes, so a statement about every state is a
statement about every pair of capacities. The free values are opaque constants without a body: U1 to U5 of
93_implementation_defined.md. -/

namespace Sys2Proof

/-- The open parameters of rule R7. `IN_CAP ≤ 2^32 − 1` and `OUT_CAP ≤ 2^64 − 1` hold by the widths. -/
structure Caps where
  /-- `IN_CAP`, capacity of the input buffer in bytes. -/
  inCap : BitVec 32
  /-- `OUT_CAP`, capacity of the output buffer in bytes. -/
  outCap : BitVec 64
deriving DecidableEq, Repr

namespace Config

/-- `ALPHABET`: number of byte values (rule R6). -/
abbrev alphabet : Nat := 256

/-- `DICT_SEED`: number of seed entries of the LZW dictionary (rule R6). -/
abbrev dictSeed : Nat := 256

/-- `DICT_CAP`: largest number of LZW dictionary entries (rule R6). -/
abbrev dictCap : Nat := 4096

/-- `NODE_MAX`: largest number of tree nodes (rule R7, derived in rule R132). -/
abbrev nodeMax : Nat := 511

/-- `CODELEN_MAX`: largest length of a prefix code in bits (rule R7, derived in rule R141). -/
abbrev codeLenMax : Nat := 255

/-- The capacities of the state `State.reset`: both 2^20, the convention of 95_test_vectors.md.
DESIGN CHOICE: rule R7 leaves both open (log entry 1). -/
def caps : Caps := { inCap := 0x100000, outCap := 0x100000 }

/-- FREE VALUE (U4): what IN[a] holds after the `epoch`-th reset, until the host writes it: one stable byte per address
(rule R53). -/
opaque freeInByte (epoch a : Nat) : Byte

/-- FREE VALUE (U1, U2, U3): the byte the `draw`-th read of an unspecified byte of OUT returns (rule R41). -/
opaque freeOutByte (draw : Nat) : Byte

/-- FREE VALUE (U5): what the latches and cursors hold after the completion numbered `draw`. -/
opaque freeSeq (draw : Nat) : Machine.SeqRegs

/-- FREE VALUE (U5): what the Huffman scratch state holds after the completion numbered `draw`. -/
opaque freeHuff (draw : Nat) : Machine.HuffRegs

/-- FREE VALUE (U5): what the LZW scratch state holds after the completion numbered `draw`. -/
opaque freeLzw (draw : Nat) : Machine.LzwRegs

end Config
end Sys2Proof
end

