-- ==== Sys2Proof/Syntax.lean ====
section
/-! DEFINITION. What the machine is told to do: the four commands of the opcode table, the host transactions of rule R257,
and the turns in which the host, the block and the platform's reset take effect.

The block is not a processor (rule R2 in 00_scope.md): its instructions are the four commands, each one 32-bit word with
no operand fields (rule R91 in 30_encoding.md). Everything else an outside agent can do to the block is a host transaction
(rule R257 in 46_host_operations.md) or the reset event (rule R321 in 70_reset_and_hazards.md). -/

namespace Sys2Proof

/-- The four commands of rule R92, one constructor per row of spec/opcode_table.json. Every operand is implicit
(rule R91), so no constructor has a field. -/
inductive Instr where
  /-- `HENC`, Huffman encode IN to a `.huf` container in OUT (rule R161). -/
  | henc
  /-- `HDEC`, Huffman decode a `.huf` container in IN to raw bytes in OUT (rule R181). -/
  | hdec
  /-- `LENC`, LZW encode IN to a `.lzw` container in OUT (rule R220). -/
  | lenc
  /-- `LDEC`, LZW decode a `.lzw` container in IN to raw bytes in OUT (rule R236). -/
  | ldec
deriving DecidableEq, Repr, Inhabited

/-- One host transaction: the list of rule R257, with the write to OUT that rule R71 says is ignored. -/
inductive HostOp where
  /-- `HostReadReg(off)`, rule R255. -/
  | readReg (off : Nat)
  /-- `HostWriteReg(off, v)`, rule R256. -/
  | writeReg (off : Nat) (v : Word64)
  /-- `HostWriteIN(a, v)`, rule R71. -/
  | writeIn (a : Nat) (v : Byte)
  /-- `HostReadIN(a)`, rule R71. -/
  | readIn (a : Nat)
  /-- `HostReadOUT(a)`, rule R71. -/
  | readOut (a : Nat)
  /-- A host write to OUT, the last row of rule R71's table. -/
  | writeOut (a : Nat) (v : Byte)
deriving DecidableEq, Repr

/-- One entry of the total order of rule R73: who takes effect next. -/
inductive Turn where
  /-- A host transaction takes effect. -/
  | host (op : HostOp)
  /-- The block takes its only step, completion, if a command is running (rule R263); otherwise nothing happens. -/
  | block
  /-- The platform resets the block (rule R321). -/
  | reset
deriving DecidableEq, Repr

end Sys2Proof
end

