-- ==== Sys2Proof/Machine/State.lean ====
section
/-! DEFINITION. The state of the block: everything rule R20 in 10_state.md lists, as plain data, beside the capacities it
was built with and four fields of the model's own (`agenda`, `reply`, `epoch`, `draws`). -/

namespace Sys2Proof.Machine

/-- A byte space: the bytes that hold a known value, by index, in canonical form (indices strictly rising). An index that
is not listed reads as no value; the operation that reads it for an agent turns that into the free value the spec gives
there (rule R53 for IN, rule R41 for OUT). -/
abbrev Memory := List Host.Cell

/-- The values of the phase register `PH` (rule R38). -/
inductive Phase where
  | idle
  | dispatch
  | hFreq | hTree | hCode | hHdr | hPack
  | dHdr | dTree | dWalk
  | lInit | lScan | lFin
  | zHdr | zInit | zCodes | zFin
deriving DecidableEq, Repr, Inhabited

/-- The error causes of rule R281, in the order of their codes. -/
inductive Err where
  /-- `E_INPUT_EMPTY` -/
  | inputEmpty
  /-- `E_INPUT_LEN` -/
  | inputLen
  /-- `E_FMT_TRUNC` -/
  | fmtTrunc
  /-- `E_FMT_COUNT` -/
  | fmtCount
  /-- `E_FMT_DUP` -/
  | fmtDup
  /-- `E_FMT_ZEROFREQ` -/
  | fmtZeroFreq
  /-- `E_FMT_OFFLEAF` -/
  | fmtOffLeaf
  /-- `E_FMT_BADBIT` -/
  | fmtBadBit
  /-- `E_FMT_CODE` -/
  | fmtCode
  /-- `E_IO_OVF` -/
  | ioOvf
  /-- `E_CMD` -/
  | cmd
deriving DecidableEq, Repr

/-- The register `STATUS` (rule R31): its four flags and the field `ERRCODE`; the reserved bits read 0 and hold nothing. -/
structure Status where
  busy : Bool
  done : Bool
  err : Bool
  trail : Bool
  errcode : BitVec 8
deriving DecidableEq, Repr

/-- What the last host transaction returned to the host. The model's own field: the spec gives the values that reads
return (rules R255, R71), and they need a place where a statement can see them. -/
inductive Reply where
  /-- The last transaction returned nothing (a write), or there was none. -/
  | none
  /-- Read data of the register port (rule R255). -/
  | word (v : Word64)
  /-- Read data of the buffer port (rule R71). -/
  | byte (v : Byte)
deriving DecidableEq, Repr

/-- The state. -/
structure State where
  /-- The capacities: configuration, not state (rule R20); no step changes them (rule R36). -/
  cfg : Caps
  /-- `CTRL.IE` (rule R29). -/
  ie : Bool
  /-- `STATUS` (rule R31). -/
  status : Status
  /-- `IN_LEN` (rule R34). -/
  inLen : BitVec 64
  /-- `OUT_LEN` (rule R35). -/
  outLen : BitVec 64
  /-- IN (rule R40): the bytes the host has written since the last reset. -/
  inBuf : Memory
  /-- OUT (rule R41): the bytes that are specified; every other byte is unspecified. -/
  outBuf : Memory
  /-- `PH` (rule R38). -/
  ph : Phase
  /-- `CMDL`, `N`, `RP`, `WP`, `BP` (rules R38, R39). -/
  seq : SeqRegs
  /-- The Huffman scratch state (rules R37, R43 to R46). -/
  huff : HuffRegs
  /-- The LZW scratch state (rules R37, R47). -/
  lzw : LzwRegs
  /-- MODEL'S OWN: the agents' next turns, first first: one interleaving of the total order of rule R73. Empty means the
  outside does nothing more, and the block moves alone. -/
  agenda : List Turn
  /-- MODEL'S OWN: what the last host transaction returned. -/
  reply : Reply
  /-- MODEL'S OWN: resets so far; it selects the arbitrary contents of IN after the last reset (U4). -/
  epoch : Nat
  /-- MODEL'S OWN: free values drawn so far (U1, U2, U3, U5). -/
  draws : Nat
deriving DecidableEq, Repr

/-- Why the machine stops with a fault: never. The spec names no fault: "no input makes the block stuck, and there is no
undefined or unpredictable behaviour" (93_implementation_defined.md); the errors of rule R281 end a command and leave
the block ready for the next (rule R292), so they are next states. -/
inductive Fault where
deriving DecidableEq, Repr

/-- Why the machine has no step. -/
inductive Refusal where
  /-- Raised by an arm of `exec` whose command has no meaning yet; no arm does. Safe: a refused command has no next state. -/
  | notModelled (mnemonic : String)
  /-- Raised by a host register access at an offset that is not a multiple of 8 below 0x100: not a transaction of the
  port, "the model refuses it (it has no step)" (rule R28, U8). Safe: no claim about a next state can rest on it. -/
  | notAPortTransaction (off : Nat)
deriving DecidableEq, Repr

/-- `STATUS` after reset: all fields 0 (rule R53). -/
def Status.idle : Status := { busy := false, done := false, err := false, trail := false, errcode := 0 }

/-- The latches and cursors after reset: zero. DESIGN CHOICE (log entry 2): rule R53 leaves them unspecified. -/
def SeqRegs.reset : SeqRegs := { cmdl := 0, n := 0, rp := 0, wp := 0, bp := 0 }

/-- The Huffman scratch state after reset: zero. DESIGN CHOICE (log entry 2): rule R53 leaves it unspecified. -/
def HuffRegs.reset : HuffRegs :=
  { freq := Vector.replicate 256 0, node := [], ncnt := 0, nsym := 0, root := 0, code := Vector.replicate 256 [],
    len := 0, dcnt := 0, curn := 0, acc := 0, nb := 0 }

/-- The LZW scratch state after reset: zero, and `NEXT` at 256, the smallest value of its range (rule R37). DESIGN CHOICE
(log entry 2): rule R53 leaves it unspecified. -/
def LzwRegs.reset : LzwRegs :=
  { dict := [], next := 256, cur := 0, prev := 0, ccnt := 0, cidx := 0, codev := 0 }

/-- The state after a reset of a block with the capacities `cfg` (rule R53): the registers of the shell at the values the
spec gives, IN and OUT with no known byte. The agenda and the two counters are the model's own. -/
def State.afterReset (cfg : Caps) (agenda : List Turn) (epoch draws : Nat) : State :=
  { cfg, ie := false, status := .idle, inLen := 0, outLen := 0, inBuf := [], outBuf := [], ph := .idle, seq := .reset,
    huff := .reset, lzw := .reset, agenda, reply := .none, epoch, draws }

/-- The machine right after reset, with the capacities of Config.lean, and with no host transaction pending. -/
def State.reset : State := State.afterReset Config.caps [] 0 0

end Sys2Proof.Machine
end

