-- ==== Sys2Proof/Machine/Operands.lean ====
section
/-! DEFINITION. How the bytes and bits of the buffers are read as data operands: byte order, signedness and bit order
(rules R62 to R64 in 20_memory.md), and the tables indexed by byte value. A command word has no operand fields
(rule R91 in 30_encoding.md), so these are all the operand forms there are. -/

namespace Sys2Proof.Machine

/-- `ceil8(L) = (L + 7) div 8` (rule R10). -/
def ceil8 (l : Nat) : Nat := (l + 7) / 8

/-- The `n` bytes of the value `v`, least significant byte first (rule R62; `MemWrite` of rule R11). -/
def leBytes : Nat → Nat → List Byte
  | 0, _ => []
  | n + 1, v => BitVec.ofNat 8 v :: leBytes n (v / 256)

/-- The value of a little-endian field (rule R62; `MemRead` of rule R11). -/
def leValue : List Byte → Nat
  | [] => 0
  | b :: bs => b.toNat + 256 * leValue bs

/-- Bit `k` of a bit stream lives in byte `k div 8` at byte bit `7 − (k mod 8)` (rules R9, R64): the bit of that byte. -/
def streamBit (b : Byte) (k : Nat) : Bool := b.getLsbD (7 - k % 8)

/-- A bit put into an accumulator that holds `nb` bits: `ACC OR (x << (7 − NB))` (rules R64, R165). -/
def placeBit (acc : BitVec 8) (nb : BitVec 3) (x : Bool) : BitVec 8 :=
  acc ||| (BitVec.ofBool x).setWidth 8 <<< (7 - nb.toNat)

/-- The byte values in ascending order. -/
def allBytes : List Byte := (List.range 256).map (BitVec.ofNat 8)

/-- The entry of byte value `b`. -/
def entryOf {α : Type} (t : ByteTable α) (b : Byte) : α := t[b.toNat]'b.isLt

/-- The table with the entry of byte value `b` replaced. -/
def setEntry {α : Type} (t : ByteTable α) (b : Byte) (v : α) : ByteTable α := t.set b.toNat v b.isLt

end Sys2Proof.Machine
end

