-- ==== Sys2Proof/Machine/Flags.lean ====
section
/-! DEFINITION. Everything that is a flag: the error codes, the `STATUS` word, the interrupt pin and the `TRAIL` tests. The
block has no arithmetic condition codes (rule R49 in 10_state.md). -/

namespace Sys2Proof.Machine

/-- The code of an error cause (rule R281 in 60_exceptions.md). -/
def Err.code : Err → BitVec 8
  | .inputEmpty => 0x10
  | .inputLen => 0x11
  | .fmtTrunc => 0x20
  | .fmtCount => 0x21
  | .fmtDup => 0x22
  | .fmtZeroFreq => 0x23
  | .fmtOffLeaf => 0x24
  | .fmtBadBit => 0x25
  | .fmtCode => 0x26
  | .ioOvf => 0x30
  | .cmd => 0x40

/-- What a read of `STATUS` returns: `BUSY + 2·DONE + 4·ERR + 8·TRAIL + 256·ERRCODE`, reserved bits 0
(rules R31, R255). -/
def Status.word (t : Status) : Word64 :=
  BitVec.ofNat 64 (t.busy.toNat + 2 * t.done.toNat + 4 * t.err.toNat + 8 * t.trail.toNat + 256 * t.errcode.toNat)

/-- What a read of `CTRL` returns: `zext_64(CTRL.IE)` (rules R29, R255). -/
def ctrlWord (ie : Bool) : Word64 := (BitVec.ofBool ie).setWidth 64

/-- `STATUS` while a command runs (rule R261). -/
def Status.running : Status := { busy := true, done := false, err := false, trail := false, errcode := 0 }

/-- `STATUS` after a command ran to its end (rule R263). -/
def Status.succeeded (trail : Bool) : Status := { busy := false, done := true, err := false, trail, errcode := 0 }

/-- `STATUS` after a command raised `e` (rules R263, R292). -/
def Status.failed (e : Err) : Status := { busy := false, done := true, err := true, trail := false, errcode := e.code }

/-- `STATUS` after a write of 1 to its bit 1: `DONE` is cleared, nothing else changes (rule R32). -/
def Status.acknowledged (t : Status) : Status := { t with done := false }

/-- The output pin: `irq = STATUS.DONE AND CTRL.IE`, at every instant (rule R50). -/
def State.irq (s : State) : Bool := s.status.done && s.ie

/-- `CHECK_TRAIL` of `HDEC`: bytes remain after the payload, whose first byte is IN[pb] (rule R190). -/
def huffTrail (s : State) (pb : Nat) : Bool := decide (s.seq.n.toNat - pb > ceil8 s.huff.len.toNat)

/-- `CHECK_TRAIL` of `LDEC`: `RP < N` (rule R246). -/
def lzwTrail (s : State) : Bool := decide (s.seq.rp.toNat < s.seq.n.toNat)

end Sys2Proof.Machine
end

