-- ==== Sys2Proof/Machine/Ops.lean ====
section
/-! DEFINITION. The operations every command and every host transaction is made of: bytes of IN and OUT, the sequential
read and write, acceptance, completion, error termination and reset.

Error termination (`errorTerminate`) is this block's form of taking an exception (rule R292 in 60_exceptions.md); there is
no return from one (rule R293): the host acknowledges (`ackDone`) or writes the next command (`accept`). -/

namespace Sys2Proof.Machine

/-! ## Byte spaces -/

/-- The byte at index `a`; an index that is not listed has no known value. -/
def Memory.read : Memory → Nat → Option Byte
  | [], _ => none
  | (k, b) :: m, a => if a = k then some b else Memory.read m a

/-- The space with the byte at index `a` set, in canonical form again. -/
def Memory.write : Memory → Nat → Byte → Memory
  | [], a, v => [(a, v)]
  | (k, b) :: m, a, v =>
    if a < k then (a, v) :: (k, b) :: m
    else if a = k then (a, v) :: m
    else (k, b) :: Memory.write m a v

/-- Consecutive bytes written from index `a` up. -/
def Memory.writeBytes : Memory → Nat → List Byte → Memory
  | m, _, [] => m
  | m, a, v :: vs => Memory.writeBytes (Memory.write m a v) (a + 1) vs

/-- The bytes below index `n`; the others lose their value. -/
def Memory.below (n : Nat) (m : Memory) : Memory := m.filter fun c => c.1 < n

/-- Canonical form: indices strictly rising. Every listed index has a value and an unlisted one has none, so no entry
equals what an unlisted index reads as. -/
def Memory.wf : Memory → Bool
  | [] => true
  | [_] => true
  | (a, _) :: (b, y) :: m => a < b && Memory.wf ((b, y) :: m)

/-! ## IN -/

/-- IN[a]: the byte the host wrote there, else the arbitrary, stable byte it holds since the last reset (rule R53, U4). -/
def State.inByte (s : State) (a : Nat) : Byte :=
  match Memory.read s.inBuf a with
  | some b => b
  | none => Config.freeInByte s.epoch a

/-- The `n` bytes of IN from index `a` up. -/
def State.inSlice (s : State) (a n : Nat) : List Byte := (List.range n).map fun i => s.inByte (a + i)

/-- The operand of every command: IN[0..N−1] (rules R39, R61). -/
def State.input (s : State) : List Byte := s.inSlice 0 s.seq.n.toNat

/-- `MemRead(IN, a, n)` (rule R11): the value of `n` bytes, little-endian. -/
def State.memRead (s : State) (a n : Nat) : Nat := leValue (s.inSlice a n)

/-! ## The sequencer's primitives -/

/-- `PH <- p` (rule R38). -/
def State.enter (s : State) (p : Phase) : State := { s with ph := p }

/-- `InBytes(n)` (rule R66): the value at the read cursor, and the cursor moved on. -/
def inBytes (n : Nat) (s : State) : Except Err (Nat × State) :=
  if s.seq.rp.toNat + n > s.seq.n.toNat then .error .fmtTrunc
  else .ok (s.memRead s.seq.rp.toNat n, { s with seq.rp := s.seq.rp + BitVec.ofNat 64 n })

/-- `MemWrite(OUT, a, n, v)` (rule R11). -/
def memWrite (a n v : Nat) (s : State) : State := { s with outBuf := Memory.writeBytes s.outBuf a (leBytes n v) }

/-- `OutBytes(n, v)` (rule R68): all `n` bytes or, when they do not all fit, none and `E_IO_OVF`. -/
def outBytes (n v : Nat) (s : State) : Except Err State :=
  if s.seq.wp.toNat + n > s.cfg.outCap.toNat then .error .ioOvf
  else .ok { memWrite s.seq.wp.toNat n v s with seq.wp := s.seq.wp + BitVec.ofNat 64 n }

/-! ## The life of a command -/

/-- `ACCEPT` (rule R261): the word and the length are latched, the cursors and the outcome of the last command cleared,
and every byte of OUT is unspecified from here on. -/
def accept (word : Word32) (s : State) : State :=
  { s with
    seq := { cmdl := word, n := s.inLen, rp := 0, wp := 0, bp := 0 }
    status := .running
    outLen := 0
    outBuf := []
    ph := .dispatch }

/-- What a completion leaves in the state no port reads: nothing that is specified (rules R52, R292; U5). -/
def forgetScratch (s : State) : State :=
  { s with
    seq := Config.freeSeq s.draws
    huff := Config.freeHuff s.draws
    lzw := Config.freeLzw s.draws
    draws := s.draws + 1 }

/-- `COMPLETE` of a command that ran to its end in the state `s` (rule R263). -/
def succeed (trail : Bool) (s : State) : State :=
  forgetScratch
    { s with
      outBuf := Memory.below s.seq.wp.toNat s.outBuf
      outLen := s.seq.wp
      status := .succeeded trail
      ph := .idle }

/-- Error termination of the command accepted in `s` (rules R263, R292). IN, `IN_LEN` and `CTRL` are those of `s`; of the
command's own work nothing is kept. -/
def errorTerminate (e : Err) (s : State) : State :=
  forgetScratch
    { s with
      outBuf := []
      outLen := 0
      status := .failed e
      ph := .idle }

/-- The completion step of the command accepted in `s`, whose run ended in `r`: with the state it reached and the value
of `TRAIL`, or with the first error it raised (rules R263, R290). -/
def conclude (s : State) (r : Except Err (State × Bool)) : Host.Outcome State Fault Refusal :=
  match r with
  | .ok (t, trail) => .next (succeed trail t)
  | .error e => .next (errorTerminate e s)

/-- The checks of `DISPATCH` after the opcode's (rule R262), in its order; `encoder` says that the opcode is 1 or 3. -/
def dispatchCheck (encoder : Bool) (s : State) : Except Err State :=
  if s.seq.n.toNat > s.cfg.inCap.toNat then .error .inputLen
  else if encoder && s.seq.n == 0 then .error .inputEmpty
  else .ok s

/-- A write of 1 to `STATUS` bit 1 (rule R32). -/
def ackDone (s : State) : State := { s with status := s.status.acknowledged }

/-- The reset event (rules R321, R322): the state of rule R53. The capacities stay; the agenda is the outside's, and IN
takes new arbitrary contents. -/
def resetEvent (s : State) : State := State.afterReset s.cfg s.agenda (s.epoch + 1) s.draws

end Sys2Proof.Machine
end

