-- ==== Sys2Proof/Machine/HuffTree.lean ====
section
/-! DEFINITION. The frequency analyzer, the Huffman tree builder and the prefix-code generator (40_huffman_tree_and_codes.md):
phases `H_FREQ`, `H_TREE` and `D_TREE`, `H_CODE`. -/

namespace Sys2Proof.Machine

/-! ## Frequency analyzer (rule R131) -/

/-- The number of bytes `b` with `FREQ[b] > 0`. -/
def distinctBytes (f : ByteTable (BitVec 32)) : Nat := allBytes.countP fun b => entryOf f b != 0

/-- The counting loop of `FREQ_COUNT`, from a table of zeros. -/
def countBytes (bs : List Byte) : ByteTable (BitVec 32) :=
  bs.foldl (fun f b => setEntry f b (entryOf f b + 1)) (Vector.replicate 256 0)

/-- `FREQ_COUNT` (rule R131). -/
def freqCount (s : State) : State :=
  let f := countBytes s.input
  { s with huff.freq := f, huff.nsym := BitVec.ofNat 9 (distinctBytes f) }

/-! ## Tree builder (rules R133 to R137) -/

/-- The leaf of a byte of the mapping, queued as it is created (rules R133, R134); an absent byte has none. -/
def leafNode (f : ByteTable (BitVec 32)) (b : Byte) : Option Node :=
  if entryOf f b = 0 then none else some { body := .leaf b, w := (entryOf f b).setWidth 40, inq := true }

/-- `LEAVES` (rule R133): a leaf per byte of the mapping, in ascending byte order. -/
def leaves (f : ByteTable (BitVec 32)) : List Node := allBytes.filterMap (leafNode f)

/-- `|Q|` (rule R45). -/
def queueSize (ns : List Node) : Nat := ns.countP (·.inq)

/-- `NODE[i].INQ <- 0` (rule R135). -/
def unqueue (n : Node) : Node := { n with inq := false }

/-- The index in Q whose pair (`W`, index) is smallest, with its weight; `i` is the index of the list's first node
(rule R135). Of equal weights the earlier index wins. -/
def minQueued : Nat → List Node → Option (Nat × BitVec 40)
  | _, [] => none
  | i, n :: ns =>
    match minQueued (i + 1) ns with
    | none => if n.inq then some (i, n.w) else none
    | some (j, w) => if n.inq && n.w ≤ w then some (i, n.w) else some (j, w)

/-- `POPMIN` (rule R135): the popped index, its weight, and the arena with its `INQ` cleared. -/
def popMin (ns : List Node) : Option (Nat × BitVec 40 × List Node) :=
  (minQueued 0 ns).map fun (i, w) => (i, w, ns.modify i unqueue)

/-- The node a round of `COMBINE` creates, queued as it is created (rules R134, R136). -/
def parentNode (a b : Nat) (w : BitVec 40) : Node :=
  { body := .internal (BitVec.ofNat 9 a) (BitVec.ofNat 9 b), w, inq := true }

/-- `COMBINE` (rule R136), at most `k` rounds: while two nodes are queued, the first popped becomes the left child of a new
node and the second the right child. -/
def combine : Nat → List Node → List Node
  | 0, ns => ns
  | k + 1, ns =>
    if queueSize ns ≤ 1 then ns
    else match popMin ns with
      | none => ns
      | some (a, wa, ns₁) =>
        match popMin ns₁ with
        | none => ns₁
        | some (b, wb, ns₂) =>
          combine k (ns₂ ++ [parentNode a b (wa + wb)])

/-- The arena `BUILD_TREE` makes of a mapping (rule R137); one round fewer than there are leaves is enough (rule R132). -/
def buildArena (f : ByteTable (BitVec 32)) : List Node := combine (leaves f).length (leaves f)

/-- `ROOT`: the one index left in Q (rule R136). -/
def rootIndex (ns : List Node) : Nat := ns.findIdx (·.inq)

/-- `BUILD_TREE` (rule R137). -/
def buildTree (s : State) : State :=
  let ns := buildArena s.huff.freq
  { s with
    huff.node := ns
    huff.ncnt := BitVec.ofNat 10 ns.length
    huff.root := BitVec.ofNat 9 (rootIndex ns) }

/-! ## Prefix-code generator (rule R139) -/

/-- `VISIT(i, s)` (rule R139): the (byte, code) pairs of the leaves below node `i`, left before right; `k` bounds the
depth. -/
def visit (ns : List Node) : Nat → Nat → Bits → List (Byte × Bits)
  | 0, _, _ => []
  | k + 1, i, s =>
    match ns[i]? with
    | none => []
    | some n =>
      match n.body with
      | .leaf b => [(b, if s = [] then [false] else s)]
      | .internal l r => visit ns k l.toNat (s ++ [false]) ++ visit ns k r.toNat (s ++ [true])

/-- The table of codes of a tree: every entry cleared, then one code per leaf (rule R139). A path visits each node at
most once, so the number of nodes bounds its length. -/
def codeTable (ns : List Node) (root : Nat) : ByteTable Bits :=
  (visit ns ns.length root []).foldl (fun t c => setEntry t c.1 c.2) (Vector.replicate 256 [])

/-- `CODEGEN` (rule R139). -/
def codegen (s : State) : State := { s with huff.code := codeTable s.huff.node s.huff.root.toNat }

end Sys2Proof.Machine
end

