-- ==== Sys2Proof/Machine/HuffDecode.lean ====
section
/-! DEFINITION. The command `HDEC` with its phases `D_HDR` (header reader) and `D_WALK` (tree walker and bit-unpacker),
42_huffman_decode.md. -/

namespace Sys2Proof.Machine

/-- `READ_COUNT` (rule R182). -/
def readCount (s : State) : Except Err State := do
  let (v, s) ← inBytes 8 s
  let s := { s with huff.dcnt := BitVec.ofNat 64 v }
  if s.huff.dcnt.toNat = 0 ∨ s.huff.dcnt.toNat > Config.alphabet then .error .fmtCount else .ok s

/-- One round of `READ_TABLE` (rule R183): truncation, then zero frequency, then duplicate. -/
def readEntry (s : State) : Except Err State :=
  if s.seq.rp.toNat + 5 > s.seq.n.toNat then .error .fmtTrunc
  else do
    let (b, s) ← inBytes 1 s
    let (f, s) ← inBytes 4 s
    if f = 0 then .error .fmtZeroFreq
    else if entryOf s.huff.freq (BitVec.ofNat 8 b) ≠ 0 then .error .fmtDup
    else .ok { s with huff.freq := setEntry s.huff.freq (BitVec.ofNat 8 b) (BitVec.ofNat 32 f) }

/-- `k` rounds of `READ_TABLE`. -/
def readEntries : Nat → State → Except Err State
  | 0, s => .ok s
  | k + 1, s => do readEntries k (← readEntry s)

/-- `READ_TABLE` (rule R183). -/
def readTable (s : State) : Except Err State := do
  let s ← readEntries s.huff.dcnt.toNat { s with huff.freq := Vector.replicate 256 0 }
  .ok { s with huff.nsym := s.huff.dcnt.setWidth 9 }

/-- `READ_BITLEN` (rule R185). -/
def readBitlen (s : State) : Except Err State := do
  let (v, s) ← inBytes 8 s
  .ok { s with huff.len := BitVec.ofNat 64 v }

/-- `CHECK_PAYLOAD` (rule R186); the payload's first byte is IN[PB] with `PB = RP`. -/
def checkPayload (s : State) : Except Err State :=
  if s.seq.n.toNat - s.seq.rp.toNat < ceil8 s.huff.len.toNat then .error .fmtTrunc else .ok s

/-- `GETBIT(k)` of the payload at index `pb` (rule R187). -/
def getBit (s : State) (pb k : Nat) : Bool := streamBit (s.inByte (pb + k / 8)) k

/-- NODE[i]. An index that is not allocated is never read (rules R138, R187). -/
def nodeAt (s : State) (i : BitVec 9) : Node := s.huff.node[i.toNat]?.getD default

/-- The child a bit selects: 0 left, 1 right (rule R187). A leaf has none, and is never asked (rule R187). -/
def childOf : NodeBody → Bool → BitVec 9
  | .internal l _, false => l
  | .internal _ r, true => r
  | .leaf _, _ => 0

/-- The loop of `WALK` when the root is Internal, with `L − BP` bits to go (rules R187, R189). -/
def walkTree (pb : Nat) : Nat → State → Except Err State
  | 0, s => if s.huff.curn ≠ s.huff.root then .error .fmtOffLeaf else .ok s
  | k + 1, s =>
    let x := getBit s pb s.seq.bp.toNat
    let s := { s with seq.bp := s.seq.bp + 1, huff.curn := childOf (nodeAt s s.huff.curn).body x }
    match (nodeAt s s.huff.curn).body with
    | .leaf b => do
      let s ← outBytes 1 b.toNat s
      walkTree pb k { s with huff.curn := s.huff.root }
    | .internal _ _ => walkTree pb k s

/-- The loop of `WALK` when the root is the leaf of byte `b`, with `L − BP` bits to go (rule R188). -/
def walkLeaf (pb : Nat) (b : Byte) : Nat → State → Except Err State
  | 0, s => .ok s
  | k + 1, s =>
    let x := getBit s pb s.seq.bp.toNat
    let s := { s with seq.bp := s.seq.bp + 1 }
    if x then .error .fmtBadBit
    else do
      let s ← outBytes 1 b.toNat s
      walkLeaf pb b k s

/-- `WALK` (rules R187, R188). -/
def walk (pb : Nat) (s : State) : Except Err State :=
  match (nodeAt s s.huff.root).body with
  | .leaf b => walkLeaf pb b s.huff.len.toNat { s with seq.bp := 0 }
  | .internal _ _ => walkTree pb s.huff.len.toNat { s with huff.curn := s.huff.root, seq.bp := 0 }

/-- The run of `HDEC` from `DISPATCH` to its end or its first error (rule R181). -/
def runHdec (s : State) : Except Err (State × Bool) := do
  let s ← dispatchCheck false s
  let s ← readCount (s.enter .dHdr)
  let s ← readTable s
  let s ← readBitlen s
  let s ← checkPayload s
  let pb := s.seq.rp.toNat
  let s := buildTree (s.enter .dTree)
  let s ← walk pb (s.enter .dWalk)
  .ok (s, huffTrail s pb)

/-- `HDEC` (rule R181): the completion step of an accepted `HDEC`. -/
def execHdec (s : State) : Host.Outcome State Fault Refusal := conclude s (runHdec s)

end Sys2Proof.Machine
end

