-- ==== Sys2Proof/Machine/HuffEncode.lean ====
section
/-! DEFINITION. The command `HENC` with its phases `H_HDR` (header writer) and `H_PACK` (bit-packer), 41_huffman_encode.md. -/

namespace Sys2Proof.Machine

/-- One entry of the table in the container: `byteValue`, then `frequency` (rules R95, R162); an absent byte has none. -/
def writeEntry (s : State) (b : Byte) : Except Err State :=
  if entryOf s.huff.freq b = 0 then .ok s
  else do
    let s ← outBytes 1 b.toNat s
    outBytes 4 (entryOf s.huff.freq b).toNat s

/-- `WRITE_TABLE` (rule R162). -/
def writeTable (s : State) : Except Err State := do
  let s ← outBytes 8 s.huff.nsym.toNat s
  allBytes.foldlM writeEntry s

/-- The sum of `FREQ[b] * CODE[b].LEN` over all byte values (rule R163). -/
def codedLength (f : ByteTable (BitVec 32)) (c : ByteTable Bits) : Nat :=
  (allBytes.map fun b => (entryOf f b).toNat * (entryOf c b).length).sum

/-- `WRITE_BITLEN` (rule R163). -/
def writeBitlen (s : State) : Except Err State :=
  let s := { s with huff.len := BitVec.ofNat 64 (codedLength s.huff.freq s.huff.code) }
  outBytes 8 s.huff.len.toNat s

/-- `PUTBIT(x)` (rule R165). -/
def putBit (s : State) (x : Bool) : Except Err State :=
  let s := { s with huff.acc := placeBit s.huff.acc s.huff.nb x, seq.bp := s.seq.bp + 1 }
  if s.huff.nb = 7 then do
    let s ← outBytes 1 s.huff.acc.toNat s
    .ok { s with huff.acc := 0, huff.nb := 0 }
  else .ok { s with huff.nb := s.huff.nb + 1 }

/-- The bits of one input byte, first bit of its code first (rule R164). -/
def packByte (s : State) (b : Byte) : Except Err State := (entryOf s.huff.code b).foldlM putBit s

/-- `PACK` (rule R164): IN is read a second time, from the start. -/
def pack (s : State) : Except Err State :=
  s.input.foldlM packByte { s with huff.acc := 0, huff.nb := 0, seq.bp := 0 }

/-- `FLUSH` (rule R166). -/
def flush (s : State) : Except Err State :=
  if s.huff.nb = 0 then .ok s
  else do
    let s ← outBytes 1 s.huff.acc.toNat s
    .ok { s with huff.acc := 0, huff.nb := 0 }

/-- The run of `HENC` from `DISPATCH` to its end or its first error (rule R161). -/
def runHenc (s : State) : Except Err (State × Bool) := do
  let s ← dispatchCheck true s
  let s := freqCount (s.enter .hFreq)
  let s := buildTree (s.enter .hTree)
  let s := codegen (s.enter .hCode)
  let s ← writeTable (s.enter .hHdr)
  let s ← writeBitlen s
  let s ← pack (s.enter .hPack)
  let s ← flush s
  .ok (s, false)

/-- `HENC` (rule R161): the completion step of an accepted `HENC`. -/
def execHenc (s : State) : Host.Outcome State Fault Refusal := conclude s (runHenc s)

end Sys2Proof.Machine
end

