-- ==== Sys2Proof/Machine/LzwDict.lean ====
section
/-! DEFINITION. The LZW dictionary: `DICT_INIT`, `DICT_SEARCH`, `DICT_ENTRY`, `FIRST`, `DICT_ADD` (43_lzw_dictionary.md). -/

namespace Sys2Proof.Machine

/-- `DICT_INIT` (rule R201): the seed entries need no storage, and no entry from 256 up is valid. -/
def dictInit (s : State) : State := { s with lzw.next := 256, lzw.dict := [] }

/-- The smallest code of an entry with this prefix and byte, from the entries listed from code `k` up; `none` is
`NOTFOUND` (rules R203, R204). -/
def searchFrom (p : BitVec 12) (b : Byte) : Nat → List DictEntry → Option Nat
  | _, [] => none
  | k, e :: es => if e.pfx = p ∧ e.ch = b then some k else searchFrom p b (k + 1) es

/-- `DICT_SEARCH(p, b)` (rule R203): among the codes `256 ≤ k < NEXT`. -/
def dictSearch (s : State) (p : BitVec 12) (b : Byte) : Option Nat :=
  searchFrom p b Config.dictSeed (s.lzw.dict.take (s.lzw.next.toNat - Config.dictSeed))

/-- `str(c)` (rule R47): the bytes of a code's string, following `PFX` links at most `k` times. A link goes to a smaller
code (rule R206), so the code itself bounds their number. -/
def codeString (d : List DictEntry) : Nat → Nat → List Byte
  | 0, c => [BitVec.ofNat 8 c]
  | k + 1, c =>
    if c < Config.dictSeed then [BitVec.ofNat 8 c]
    else match d[c - Config.dictSeed]? with
      | none => []
      | some e => codeString d k e.pfx.toNat ++ [e.ch]

/-- `DICT_ENTRY(k)` (rule R205). It is never called with a code that is not present. -/
def dictEntry (s : State) (c : Nat) : List Byte := codeString s.lzw.dict c c

/-- The byte at the end of the `PFX` chain, following at most `k` links (rule R205). -/
def chainFirst (d : List DictEntry) : Nat → Nat → Byte
  | 0, c => BitVec.ofNat 8 c
  | k + 1, c =>
    if c < Config.dictSeed then BitVec.ofNat 8 c
    else match d[c - Config.dictSeed]? with
      | none => BitVec.ofNat 8 c
      | some e => chainFirst d k e.pfx.toNat

/-- `FIRST(k)` (rule R205). -/
def firstByte (s : State) (c : Nat) : Byte := chainFirst s.lzw.dict c c

/-- `DICT_ADD(p, b)` (rule R206): the entry at `NEXT`, and `NEXT` moved on; nothing at the cap. What stood at `NEXT` and
above was not valid and is dropped. -/
def dictAdd (p : BitVec 12) (b : Byte) (s : State) : State :=
  if s.lzw.next.toNat < Config.dictCap then
    { s with
      lzw.dict := s.lzw.dict.take (s.lzw.next.toNat - Config.dictSeed) ++ [{ pfx := p, ch := b }]
      lzw.next := s.lzw.next + 1 }
  else s

end Sys2Proof.Machine
end

