-- ==== Sys2Proof/Machine/LzwDecode.lean ====
section
/-! DEFINITION. The command `LDEC`: code-stream reader and dictionary updater (45_lzw_decode.md). -/

namespace Sys2Proof.Machine

/-- `READ_CCOUNT` (rule R237). -/
def readCcount (s : State) : Except Err State := do
  let (v, s) ← inBytes 8 s
  .ok { s with lzw.ccnt := BitVec.ofNat 64 v }

/-- `READ_CODE` (rule R239): the field is two's complement (rule R63). -/
def readCode (s : State) : Except Err State := do
  let (v, s) ← inBytes 4 s
  .ok { s with lzw.codev := BitVec.ofNat 32 v }

/-- `FIRST_CODE` (rule R240). -/
def firstCode (s : State) : Except Err State :=
  let c := s.lzw.codev.toInt
  if c < 0 ∨ c ≥ Config.dictSeed then .error .fmtCode
  else do
    let s ← outBytes 1 c.toNat s
    .ok { s with lzw.prev := s.lzw.codev.setWidth 12 }

/-- Step 1 of `NEXT_CODE` (rules R241, R242, R245): the string of a present code, or of the one synthesizable code. -/
def classifyCode (s : State) : Except Err (List Byte) :=
  let c := s.lzw.codev.toInt
  let next := s.lzw.next.toNat
  let prev := s.lzw.prev.toNat
  if 0 ≤ c ∧ c < next then .ok (dictEntry s c.toNat)
  else if c = next ∧ next < Config.dictCap then .ok (dictEntry s prev ++ [firstByte s prev])
  else .error .fmtCode

/-- `EMIT_STRING(s)` (rule R244): the whole string is checked before any byte is written. -/
def emitString (bs : List Byte) (s : State) : Except Err State :=
  if s.seq.wp.toNat + bs.length > s.cfg.outCap.toNat then .error .ioOvf
  else bs.foldlM (fun s b => outBytes 1 b.toNat s) s

/-- `NEXT_CODE` (rules R241, R243): classify, emit, add, advance. -/
def nextCode (s : State) : Except Err State := do
  let cur ← classifyCode s
  let s ← emitString cur s
  let s := dictAdd s.lzw.prev (cur.headD 0) s
  .ok { s with lzw.prev := s.lzw.codev.setWidth 12 }

/-- One round of the loop of `Z_CODES` (rule R236). -/
def decodeOne (s : State) : Except Err State := do
  let s ← readCode s
  let s ← if s.lzw.cidx = 0 then firstCode s else nextCode s
  .ok { s with lzw.cidx := s.lzw.cidx + 1 }

/-- `k` rounds of the loop of `Z_CODES`. -/
def decodeCodes : Nat → State → Except Err State
  | 0, s => .ok s
  | k + 1, s => do decodeCodes k (← decodeOne s)

/-- The run of `LDEC` from `DISPATCH` to its end or its first error (rule R236). -/
def runLdec (s : State) : Except Err (State × Bool) := do
  let s ← dispatchCheck false s
  let s ← readCcount (s.enter .zHdr)
  let s := dictInit (s.enter .zInit)
  let s := { s.enter .zCodes with lzw.cidx := 0 }
  let s ← decodeCodes s.lzw.ccnt.toNat s
  let s := s.enter .zFin
  .ok (s, lzwTrail s)

/-- `LDEC` (rule R236): the completion step of an accepted `LDEC`. -/
def execLdec (s : State) : Host.Outcome State Fault Refusal := conclude s (runLdec s)

end Sys2Proof.Machine
end

