-- ==== Sys2Proof/Machine/LzwEncode.lean ====
section
/-! DEFINITION. The command `LENC`: greedy matcher and code-stream writer (44_lzw_encode.md). -/

namespace Sys2Proof.Machine

/-- `LZW_START` (rule R221). Dispatch has established `N ≥ 1`. -/
def lzwStart (s : State) : Except Err State :=
  let s := { s with lzw.cur := (s.inByte 0).setWidth 12, lzw.ccnt := 0, seq.wp := 8 }
  if s.cfg.outCap.toNat < 8 then .error .ioOvf else .ok s

/-- `EMIT(c)` (rule R223). -/
def emitCode (c : BitVec 12) (s : State) : Except Err State := do
  let s ← outBytes 4 c.toNat s
  .ok { s with lzw.ccnt := s.lzw.ccnt + 1 }

/-- One round of `LZW_SCAN` (rule R222): extend, or emit, add and reset, in this order. -/
def scanByte (s : State) (b : Byte) : Except Err State :=
  match dictSearch s s.lzw.cur b with
  | some k => .ok { s with lzw.cur := BitVec.ofNat 12 k }
  | none => do
    let t ← emitCode s.lzw.cur s
    let t := dictAdd s.lzw.cur b t
    .ok { t with lzw.cur := b.setWidth 12 }

/-- `LZW_SCAN` (rule R222): over IN[1..N−1]. -/
def lzwScan (s : State) : Except Err State := (s.input.drop 1).foldlM scanByte s

/-- `WRITE_COUNT` (rule R224): the count, into the space left for it; `WP` is not changed. -/
def writeCount (s : State) : State := memWrite 0 8 s.lzw.ccnt.toNat s

/-- The run of `LENC` from `DISPATCH` to its end or its first error (rule R220). -/
def runLenc (s : State) : Except Err (State × Bool) := do
  let s ← dispatchCheck true s
  let s ← lzwStart (dictInit (s.enter .lInit))
  let s ← lzwScan (s.enter .lScan)
  let s := s.enter .lFin
  let s ← emitCode s.lzw.cur s
  .ok (writeCount s, false)

/-- `LENC` (rule R220): the completion step of an accepted `LENC`. -/
def execLenc (s : State) : Host.Outcome State Fault Refusal := conclude s (runLenc s)

end Sys2Proof.Machine
end

