-- ==== Sys2Proof/Machine/Dispatch.lean ====
section
/-! DEFINITION. One arm per command (rule R262 in 46_host_operations.md: the case on the opcode). -/

namespace Sys2Proof.Machine

def exec (i : Instr) (s : State) : Host.Outcome State Fault Refusal :=
  match i with
  | .henc => Sys2Proof.Machine.execHenc s
  | .hdec => Sys2Proof.Machine.execHdec s
  | .lenc => Sys2Proof.Machine.execLenc s
  | .ldec => Sys2Proof.Machine.execLdec s

end Sys2Proof.Machine
end

