-- ==== Sys2Proof/WellFormed.lean ====
section
/-! DEFINITION. Which terms the spec gives a meaning to.

A command has no operand fields (rule R91), so every `Instr` is well-formed. What can be ill-formed is a raw command word
(rule R93), a register access (rule R28, U8) and a pair of capacities (rule R7). -/

namespace Sys2Proof

/-- Every command is well-formed: the word has no register fields, no immediate and no mode bits (rule R91). -/
def Instr.wellFormed : Instr → Bool
  | .henc => true
  | .hdec => true
  | .lenc => true
  | .ldec => true

/-- A raw 32-bit word that selects a command: `RSVD = 0` and `OP` one of 1 to 4 (rule R92). -/
def legalCommandWord (w : Word32) : Bool :=
  w.extractLsb' 4 28 == 0 && 1 ≤ (w.extractLsb' 0 4).toNat && (w.extractLsb' 0 4).toNat ≤ 4

/-- A register access is a transaction of the port only at a multiple of 8 below 0x100 (rule R28, U8); the byte
transactions of rule R71 take any index. -/
def HostOp.wellFormed : HostOp → Bool
  | .readReg off => off % 8 == 0 && off < 0x100
  | .writeReg off _ => off % 8 == 0 && off < 0x100
  | .writeIn _ _ => true
  | .readIn _ => true
  | .readOut _ => true
  | .writeOut _ _ => true

/-- A turn is well-formed when its host transaction is. -/
def Turn.wellFormed : Turn → Bool
  | .host op => op.wellFormed
  | .block => true
  | .reset => true

/-- `1 ≤ IN_CAP` (rule R7); the upper bounds hold by the widths. -/
def Caps.wellFormed (c : Caps) : Bool := c.inCap != 0

end Sys2Proof
end

