-- ==== Sys2Proof/Decode.lean ====
section
/-! DEFINITION. The decoder of command words, total on every 32-bit word, and after it the encoder (rules R90 to R93 in
30_encoding.md). -/

namespace Sys2Proof

/-- Why a word is no command (rule R93). -/
inductive DecodeReject where
  /-- A bit of `RSVD` is set. -/
  | reservedBits
  /-- `RSVD = 0` and `OP` is 0x0 or 0x5 to 0xF. -/
  | illegalOpcode
deriving DecidableEq, Repr

/-- `OP`, bits 3:0 (rule R91). -/
def opField (w : Word32) : BitVec 4 := w.extractLsb' 0 4

/-- `RSVD`, bits 31:4 (rule R91). -/
def rsvdField (w : Word32) : BitVec 28 := w.extractLsb' 4 28

/-- The opcode map of rule R92; every other word is rejected by name (rule R93). -/
def decode (w : Word32) : Except DecodeReject Instr :=
  if rsvdField w ≠ 0 then .error .reservedBits
  else match (opField w).toNat with
    | 1 => .ok .henc
    | 2 => .ok .hdec
    | 3 => .ok .lenc
    | 4 => .ok .ldec
    | _ => .error .illegalOpcode

/-- The command word in the write data of the register `CMD`: `wdata[31:0]`; `wdata[63:32]` is ignored (rule R30). -/
def commandWord (v : Word64) : Word32 := v.setWidth 32

/-- Field `OP` of a command (rule R92). -/
def opcode : Instr → BitVec 4
  | .henc => 1
  | .hdec => 2
  | .lenc => 3
  | .ldec => 4

/-- The command word of a command: `RSVD = 0` above `OP` (rule R91). -/
def encode (i : Instr) : Word32 := (0 : BitVec 28) ++ opcode i

/-- The command that an instruction word with the bits `w` of the opcode table selects. The word is `nbits` wide in the
table and 32 bits wide in the hardware; it reaches the block as the write data of `CMD`, so no byte order enters
(rule R76). -/
def decodeTableWord (nbits w : Nat) : Option Instr :=
  match decode (BitVec.ofNat 32 (w % 2 ^ nbits)) with
  | .ok i => some i
  | .error _ => none

end Sys2Proof
end

