-- ==== Sys2Proof/Machine/HostPort.lean ====
section
/-! DEFINITION. The host's transactions on the register port (rules R255, R256 in 46_host_operations.md) and on the buffer
port (rule R71 in 20_memory.md). -/

namespace Sys2Proof.Machine

/-- An access of the register port: one 64-bit access at a multiple of 8 below 0x100 (rule R28). -/
def isRegOffset (off : Nat) : Bool := off % 8 == 0 && off < 0x100

/-- `HostReadReg(off)` (rule R255): the value returned. -/
def readReg (s : State) (off : Nat) : Word64 :=
  match off with
  | 0x00 => ctrlWord s.ie
  | 0x08 => 0
  | 0x10 => s.status.word
  | 0x18 => s.inLen
  | 0x20 => s.outLen
  | 0x28 => s.cfg.inCap.setWidth 64
  | 0x30 => s.cfg.outCap
  | _ => 0

/-- `HostWriteReg(off, v)` (rule R256): the effect. -/
def writeReg (off : Nat) (v : Word64) (s : State) : State :=
  match off with
  | 0x00 => { s with ie := v.getLsbD 0 }
  | 0x08 => if s.status.busy then s else accept (commandWord v) s
  | 0x10 => if v.getLsbD 1 then ackDone s else s
  | 0x18 => if s.status.busy then s else { s with inLen := v }
  | _ => s

/-- `HostWriteIN(a, v)` (rule R71): dropped while busy and out of range. -/
def hostWriteIn (a : Nat) (v : Byte) (s : State) : State :=
  if s.status.busy ∨ ¬ a < s.cfg.inCap.toNat then s else { s with inBuf := Memory.write s.inBuf a v }

/-- `HostReadIN(a)` (rule R71): the byte returned; 0 out of range. -/
def hostReadIn (a : Nat) (s : State) : Byte := if a < s.cfg.inCap.toNat then s.inByte a else 0

/-- `HostReadOUT(a)` (rules R41, R71): the byte returned and the state with the free value it may have drawn counted. While
busy every byte is unspecified, and so is every byte without a known value; out of range reads as 0. -/
def hostReadOut (a : Nat) (s : State) : Byte × State :=
  if ¬ a < s.cfg.outCap.toNat then (0, s)
  else match (if s.status.busy then none else Memory.read s.outBuf a) with
    | some b => (b, s)
    | none => (Config.freeOutByte s.draws, { s with draws := s.draws + 1 })

/-- One host transaction takes effect (rules R73, R257); the host gets what it returns. -/
def hostTurn (op : HostOp) (s : State) : Host.Outcome State Fault Refusal :=
  match op with
  | .readReg off =>
    if isRegOffset off then .next { s with reply := .word (readReg s off) } else .refused (.notAPortTransaction off)
  | .writeReg off v =>
    if isRegOffset off then .next { writeReg off v s with reply := .none } else .refused (.notAPortTransaction off)
  | .writeIn a v => .next { hostWriteIn a v s with reply := .none }
  | .readIn a => .next { s with reply := .byte (hostReadIn a s) }
  | .readOut a => let r := hostReadOut a s; .next { r.2 with reply := .byte r.1 }
  | .writeOut _ _ => .next { s with reply := .none }

end Sys2Proof.Machine
end

