-- ==== Sys2Proof/Machine/Sequencer.lean ====
section
/-! DEFINITION. Who moves next, and what the block does in its turn (rules R13, R73, R263). -/

namespace Sys2Proof.Machine

/-- Completion of the running command (rule R263): the latched word is decoded first (rule R262); a word that is no command
ends with `E_CMD` (rules R93, R282). -/
def completion (s : State) : Host.Outcome State Fault Refusal :=
  match decode s.seq.cmdl with
  | .ok i => exec i s
  | .error _ => .next (errorTerminate .cmd s)

/-- The block's turn: completion is enabled exactly when `BUSY = 1` (rule R263); otherwise nothing changes (rule R343). -/
def blockTurn (s : State) : Host.Outcome State Fault Refusal :=
  if s.status.busy then completion s else .next s

/-- The first turn of the agenda takes effect. When the agenda is empty the block moves alone: a busy block completes
(rule R340), an idle one waits (rule R323). -/
def nextTurn (s : State) : Host.Outcome State Fault Refusal :=
  match s.agenda with
  | [] => blockTurn s
  | .block :: rest => blockTurn { s with agenda := rest }
  | .host op :: rest => hostTurn op { s with agenda := rest }
  | .reset :: rest => .next (resetEvent { s with agenda := rest })

/-- The block's turn comes before the agenda's first turn. With an empty agenda it is the block's turn already. -/
def yieldToBlock (s : State) : State :=
  match s.agenda with
  | [] => s
  | t :: rest => { s with agenda := .block :: t :: rest }

/-- The state in which the command word `w` has just been accepted and the block has the next turn. -/
def presentCommand (w : Word32) (s : State) : State := yieldToBlock (accept w s)

end Sys2Proof.Machine
end

