-- ==== Sys2Proof/Machine/Step.lean ====
section
/-! DEFINITION. One step of the machine, and how an instruction word is placed before it.

The block fetches nothing (rule R76 in 20_memory.md): a command reaches it by a host's write to `CMD`, which latches the
word (rule R261), and the step that follows runs it (rule R263). -/

namespace Sys2Proof.Machine

/-- One step: the first turn of the total order of rule R73. -/
def step (s : State) : Host.Outcome State Fault Refusal := nextTurn s

/-- The state in which the command word with the bits `w` of the opcode table has been accepted, so that the very next step
runs it (rules R261, R263). -/
def State.withFetchWord (s : State) (nbits w : Nat) : State := presentCommand (BitVec.ofNat 32 (w % 2 ^ nbits)) s

end Sys2Proof.Machine
end

