-- ==== Sys2Proof/Machine/Script.lean ====
section
/-! DEFINITION. The host script notation and its pseudo-operations (rules R115, R116 in 30_encoding.md), as the turns they
stand for. `WAIT` polls an undetermined number of times (rule R340), so it takes that number. -/

namespace Sys2Proof.Machine.Script

/-- Offsets of the register map (rule R21). -/
abbrev offCtrl : Nat := 0x00
/-- `CMD` -/
abbrev offCmd : Nat := 0x08
/-- `STATUS` -/
abbrev offStatus : Nat := 0x10
/-- `IN_LEN` -/
abbrev offInLen : Nat := 0x18
/-- `OUT_LEN` -/
abbrev offOutLen : Nat := 0x20
/-- `IN_CAP` -/
abbrev offInCap : Nat := 0x28
/-- `OUT_CAP` -/
abbrev offOutCap : Nat := 0x30

/-- `WRIN a, b0 b1 ..` -/
def wrin : Nat → List Byte → List Turn
  | _, [] => []
  | a, b :: bs => .host (.writeIn a b) :: wrin (a + 1) bs

/-- `WRREG name, v` -/
def wrreg (off : Nat) (v : Word64) : List Turn := [.host (.writeReg off v)]

/-- `RDREG name` -/
def rdreg (off : Nat) : List Turn := [.host (.readReg off)]

/-- `RDOUT a, n` -/
def rdout (a n : Nat) : List Turn := (List.range n).map fun i => .host (.readOut (a + i))

/-- `HENC`, `HDEC`, `LENC`, `LDEC`: `WRREG CMD` with the command's word. -/
def issue (i : Instr) : List Turn := wrreg offCmd ((encode i).setWidth 64)

/-- `LOAD b0 b1 ..` -/
def load (bs : List Byte) : List Turn := wrin 0 bs ++ wrreg offInLen (BitVec.ofNat 64 bs.length)

/-- `WAIT` whose first `polls` reads of `STATUS` come before the completion; the read after it returns `DONE = 1`. -/
def wait (polls : Nat) : List Turn := (List.replicate polls (rdreg offStatus)).flatten ++ .block :: rdreg offStatus

/-- `ACK` -/
def acknowledge : List Turn := wrreg offStatus 2

/-- `RUN op` -/
def run (i : Instr) (polls : Nat) : List Turn := issue i ++ wait polls

/-- `TURNAROUND`, as the host issues it in the state `s`: it writes to IN what its reads of OUT return. It needs
`OUT_LEN ≤ IN_CAP`, and every byte below `OUT_LEN` has a known value (rule R41). -/
def turnaround (s : State) : List Turn :=
  rdreg offOutLen
    ++ (List.range s.outLen.toNat).flatMap (fun a => [.host (.readOut a), .host (.writeIn a (hostReadOut a s).1)])
    ++ wrreg offInLen s.outLen

end Sys2Proof.Machine.Script
end

