-- ==== Sys2Proof/Reference.lean ====
section
/-! DEFINITION. A second reading of the four codecs, for statements to compare the machine with: pure functions from the
input bytes and the capacities to the result (rule R264 in 46_host_operations.md allows exactly this form).

Nothing here is called by the machine. The machine keeps an arena of indexed nodes and a table of (prefix code, byte)
pairs, moves cursors and packs bits into an accumulator; here a tree is a tree, the priority queue is the list of queued
trees in insertion order, the LZW dictionary is the list of its strings (the representation of the source, rule R208 in
43_lzw_dictionary.md), a container is a concatenation of its fields and a payload is the list of its bits. Only the byte
order of a field (`leBytes`, `leValue`, rule R62) and the names of the error causes are shared with the machine. -/

namespace Sys2Proof.Ref

open Sys2Proof.Machine (Err leBytes leValue ceil8 allBytes)

/-- What a command computes: the output bytes and `TRAIL`, or the error (rule R264). -/
abbrev Result := Except Err (List Byte × Bool)

/-- `Ok(bytes, trail)` when the bytes fit OUT, else `E_IO_OVF` (rule R289: for the encoders the same as the first write that
does not fit). -/
def fit (outCap : Nat) (bytes : List Byte) : Result := if bytes.length ≤ outCap then .ok (bytes, false) else .error .ioOvf

/-! ## Huffman trees (rules R133 to R140) -/

/-- HuffmanNode of rule R15 without the weight. -/
inductive Tree where
  | leaf (b : Byte)
  | node (l r : Tree)
deriving DecidableEq, Repr

/-- A queued tree with its weight. -/
structure Item where
  w : Nat
  tree : Tree
deriving DecidableEq, Repr

/-- The item of least weight, the earliest inserted among equals, and the queue without it (rule R135). A queue lists its
items in insertion order. -/
def pop : List Item → Option (Item × List Item)
  | [] => none
  | x :: xs =>
    match pop xs with
    | none => some (x, [])
    | some (y, ys) => if x.w ≤ y.w then some (x, xs) else some (y, x :: ys)

/-- Two combined trees: weights add, the first is the left child (rule R136). -/
def Item.join (a b : Item) : Item := { w := a.w + b.w, tree := .node a.tree b.tree }

/-- Combine the two lowest until one is left, at most `k` times: the first popped goes left (rule R136). -/
def build : Nat → List Item → Option Tree
  | 0, q => (pop q).map fun p => p.1.tree
  | k + 1, q =>
    match pop q with
    | none => none
    | some (a, q₁) =>
      match pop q₁ with
      | none => some a.tree
      | some (b, q₂) => build k (q₂ ++ [a.join b])

/-- The leaf of a byte that occurs. -/
def leafItem (f : Byte → Nat) (b : Byte) : Option Item := if f b = 0 then none else some { w := f b, tree := .leaf b }

/-- A leaf per byte that occurs, in ascending byte order (rule R133). -/
def leafQueue (f : Byte → Nat) : List Item := allBytes.filterMap (leafItem f)

/-- The tree of a frequency mapping (rule R137). -/
def treeOf (f : Byte → Nat) : Option Tree := build 256 (leafQueue f)

/-- The turns from the root to each leaf: 0 for left, 1 for right (rule R139). -/
def paths : Tree → List (Byte × Bits)
  | .leaf b => [(b, [])]
  | .node l r => (paths l).map (fun p => (p.1, false :: p.2)) ++ (paths r).map (fun p => (p.1, true :: p.2))

/-- The prefix codes of a tree: the paths, and `"0"` for a single leaf (rule R139). -/
def codes : Tree → List (Byte × Bits)
  | .leaf b => [(b, [false])]
  | t => paths t

/-- The code of a byte; empty for a byte that has none. -/
def codeOf (t : Option Tree) (b : Byte) : Bits :=
  match t with
  | none => []
  | some t => ((codes t).lookup b).getD []

/-! ## Containers (rules R64, R95, R105) -/

/-- Payload byte `i`: stream bits `8i` to `8i + 7`, the first in the most significant place, 0 past the end (rule R64). -/
def payloadByte (bits : Bits) (i : Nat) : Byte :=
  BitVec.ofNat 8 ((List.range 8).map fun j => if bits.getD (8 * i + j) false then 2 ^ (7 - j) else 0).sum

/-- The packed payload: `ceil8(L)` bytes (rule R99). -/
def packBits (bits : Bits) : List Byte := (List.range (ceil8 bits.length)).map (payloadByte bits)

/-- All bits of a byte string, most significant first (rule R64). -/
def bitsOf (bytes : List Byte) : Bits := bytes.flatMap fun b => (List.range 8).map fun j => b.getLsbD (7 - j)

/-- The entries of the table that occur, in ascending byte order (rule R162). -/
def entries (f : Byte → Nat) : List (Byte × Nat) := allBytes.filterMap fun b => if f b = 0 then none else some (b, f b)

/-- The fields of one table entry. -/
def entryBytes (e : Byte × Nat) : List Byte := e.1 :: leBytes 4 e.2

/-- The `.huf` container of a table and a bit sequence (rule R95). -/
def hufContainer (table : List (Byte × Nat)) (bits : Bits) : List Byte :=
  leBytes 8 table.length ++ table.flatMap entryBytes ++ leBytes 8 bits.length ++ packBits bits

/-- The `.lzw` container of a code sequence (rule R105). -/
def lzwContainer (cs : List Nat) : List Byte := leBytes 8 cs.length ++ cs.flatMap (leBytes 4)

/-! ## The Huffman commands -/

/-- How often a byte occurs. -/
def freqOf (input : List Byte) (b : Byte) : Nat := input.count b

/-- The container `HENC` makes of its input (rules R160, R164). -/
def hencContainer (input : List Byte) : List Byte :=
  hufContainer (entries (freqOf input)) (input.flatMap (codeOf (treeOf (freqOf input))))

/-- `HENC` after dispatch (rule R161). -/
def henc (outCap : Nat) (input : List Byte) : Result := fit outCap (hencContainer input)

/-- A field of `n` bytes and what follows it. -/
def field (n : Nat) (bs : List Byte) : Except Err (Nat × List Byte) :=
  if bs.length < n then .error .fmtTrunc else .ok (leValue (bs.take n), bs.drop n)

/-- `k` table entries (rule R183), beside those read before. -/
def readEntries : Nat → List (Byte × Nat) → List Byte → Except Err (List (Byte × Nat) × List Byte)
  | 0, tab, bs => .ok (tab, bs)
  | k + 1, tab, bs =>
    match bs with
    | b :: b0 :: b1 :: b2 :: b3 :: rest =>
      let f := leValue [b0, b1, b2, b3]
      if f = 0 then .error .fmtZeroFreq
      else if (tab.lookup b).isSome then .error .fmtDup
      else readEntries k ((b, f) :: tab) rest
    | _ => .error .fmtTrunc

/-- The walk through a tree of two or more leaves (rules R187, R189): from the subtree `cur`, with `room` bytes of OUT free;
`atRoot` says that no bit has been taken since the last leaf. -/
def walk (root : Tree) : Tree → Bool → Nat → Bits → Except Err (List Byte)
  | _, atRoot, _, [] => if atRoot then .ok [] else .error .fmtOffLeaf
  | cur, _, room, x :: xs =>
    match (match cur with | .leaf b => Tree.leaf b | .node l r => if x then r else l) with
    | .leaf b =>
      match room with
      | 0 => .error .ioOvf
      | room + 1 => (walk root root true room xs).map (b :: ·)
    | t => walk root t false room xs

/-- The walk of a single leaf (rule R188). -/
def walkLeaf (b : Byte) : Nat → Bits → Except Err (List Byte)
  | _, [] => .ok []
  | room, x :: xs =>
    if x then .error .fmtBadBit
    else match room with
      | 0 => .error .ioOvf
      | room + 1 => (walkLeaf b room xs).map (b :: ·)

/-- `HDEC` after dispatch (rule R181). -/
def hdec (outCap : Nat) (input : List Byte) : Result := do
  let (count, bs) ← field 8 input
  if count = 0 ∨ count > 256 then .error .fmtCount
  else do
    let (tab, bs) ← readEntries count [] bs
    let (len, payload) ← field 8 bs
    if payload.length < ceil8 len then .error .fmtTrunc
    else do
      let bits := (bitsOf payload).take len
      let out ← match treeOf fun b => (tab.lookup b).getD 0 with
        | none => .ok []
        | some (.leaf b) => walkLeaf b outCap bits
        | some t => walk t t true outCap bits
      .ok (out, decide (payload.length > ceil8 len))

/-! ## The LZW commands, over a dictionary of strings (rules R200, R208) -/

/-- `initialize()`: the 256 one-byte strings; the code of a string is its place in the list. -/
def seed : List (List Byte) := allBytes.map ([·])

/-- `add(s)`: at the next free code, unless there are 4096 entries. -/
def add (d : List (List Byte)) (s : List Byte) : List (List Byte) := if d.length < 4096 then d ++ [s] else d

/-- The codes of the rest of the input, with `current = cur` (rules R222, R223): extend while the string is in the
dictionary; otherwise emit `search(current)`, add and reset; at the end emit `search(current)`. -/
def scan (d : List (List Byte)) (cur : List Byte) : List Byte → List Nat
  | [] => [d.idxOf cur]
  | b :: bs =>
    if cur ++ [b] ∈ d then scan d (cur ++ [b]) bs
    else d.idxOf cur :: scan (add d (cur ++ [b])) [b] bs

/-- The code sequence of an input (rule R221). -/
def lzwCodes : List Byte → List Nat
  | [] => []
  | b :: bs => scan seed [b] bs

/-- `LENC` after dispatch (rule R220). -/
def lenc (outCap : Nat) (input : List Byte) : Result := fit outCap (lzwContainer (lzwCodes input))

/-- The value of an `i32` field (rule R63). -/
def signed32 (v : Nat) : Int := if v < 2 ^ 31 then v else (v : Int) - 2 ^ 32

/-- `current` for a code after the first (rules R241, R242): present, or the one synthesizable code. -/
def current (d : List (List Byte)) (prev : List Byte) (c : Int) : Except Err (List Byte) :=
  if 0 ≤ c ∧ c < d.length then .ok (d.getD c.toNat [])
  else if c = d.length ∧ d.length < 4096 then .ok (prev ++ prev.take 1)
  else .error .fmtCode

/-- What the codes after the first stand for, when every one of them is in range. -/
def expandFrom (d : List (List Byte)) (prev : List Byte) : List Nat → Option (List Byte)
  | [] => some []
  | c :: cs =>
    match current d prev c with
    | .error _ => none
    | .ok cur => (expandFrom (add d (prev ++ cur.take 1)) cur cs).map (cur ++ ·)

/-- What a code sequence stands for, when its first code is a literal and every later one is in range
(rules R240 to R243); no bound on the output. -/
def expand : List Nat → Option (List Byte)
  | [] => some []
  | c :: cs => if c < 256 then (expandFrom seed [BitVec.ofNat 8 c] cs).map (BitVec.ofNat 8 c :: ·) else none

/-- `k` codes after the first (rules R239, R241, R243), with `room` bytes of OUT free: the bytes they stand for and the
input that is left. -/
def decodeRest : Nat → List (List Byte) → List Byte → Nat → List Byte → Except Err (List Byte × List Byte)
  | 0, _, _, _, bs => .ok ([], bs)
  | k + 1, d, prev, room, bs => do
    let (v, bs) ← field 4 bs
    let cur ← current d prev (signed32 v)
    if room < cur.length then .error .ioOvf
    else do
      let (out, bs) ← decodeRest k (add d (prev ++ cur.take 1)) cur (room - cur.length) bs
      .ok (cur ++ out, bs)

/-- `k` codes from the first (rule R240). -/
def decodeAll (k room : Nat) (bs : List Byte) : Except Err (List Byte × List Byte) :=
  match k with
  | 0 => .ok ([], bs)
  | k + 1 => do
    let (v, bs) ← field 4 bs
    let c := signed32 v
    if c < 0 ∨ c ≥ 256 then .error .fmtCode
    else if room < 1 then .error .ioOvf
    else do
      let (out, bs) ← decodeRest k seed [BitVec.ofNat 8 c.toNat] (room - 1) bs
      .ok (BitVec.ofNat 8 c.toNat :: out, bs)

/-- `LDEC` after dispatch (rule R236). -/
def ldec (outCap : Nat) (input : List Byte) : Result := do
  let (count, bs) ← field 8 input
  let (out, rest) ← decodeAll count outCap bs
  .ok (out, decide (rest ≠ []))

/-! ## One command -/

/-- The function of rule R264: the checks of `DISPATCH` after the opcode's (rule R262), then the command. `n` is the latched
length and `input` is IN[0..n−1]. -/
def run (i : Instr) (caps : Caps) (n : Nat) (input : List Byte) : Result :=
  if n > caps.inCap.toNat then .error .inputLen
  else match i with
    | .henc => if n = 0 then .error .inputEmpty else henc caps.outCap.toNat input
    | .hdec => hdec caps.outCap.toNat input
    | .lenc => if n = 0 then .error .inputEmpty else lenc caps.outCap.toNat input
    | .ldec => ldec caps.outCap.toNat input

/-- The state in which the command accepted in `s` leaves the block when it computes `r` (rules R263, R264, R292): `Ok` sets
OUT, `OUT_LEN` and `TRAIL`, `Err` the code. -/
def complete (s : Machine.State) : Result → Machine.State
  | .ok (bytes, trail) =>
    Machine.forgetScratch
      { s with
        outBuf := Machine.Memory.writeBytes [] 0 bytes
        outLen := BitVec.ofNat 64 bytes.length
        status := .succeeded trail
        ph := .idle }
  | .error e => Machine.errorTerminate e s

end Sys2Proof.Ref
end

