-- ==== Sys2Proof/Safety.lean ====
section
/-! DEFINITION. The terms in which claims are made: what a run of this block may reach (the invariants of rule R54 in
10_state.md with the canonical form of the two byte spaces), when a command has been accepted, what OUT holds, and what a
step may not change. -/

namespace Sys2Proof.Machine

/-- Rule R54 (a) to (f); the shape of IN and OUT that rules R40, R41 and R61 give (`IN_CAP ≥ 1`, the two spaces in canonical
form, nothing of IN at or above `IN_CAP`, a known byte of OUT exactly below `OUT_LEN`); and what stays as acceptance left it
until completion (rules R38, R39, R261). -/
structure State.Inv (s : State) : Prop where
  caps : s.cfg.wellFormed = true
  /-- (a) -/
  notBusyAndDone : ¬ (s.status.busy = true ∧ s.status.done = true)
  /-- (b) -/
  errIffCode : s.status.err = true ↔ s.status.errcode ≠ 0
  /-- (c) -/
  busyClear : s.status.busy = true →
    s.status.err = false ∧ s.status.errcode = 0 ∧ s.status.trail = false ∧ s.outLen = 0
  /-- (d) -/
  errClear : s.status.err = true → s.outLen = 0 ∧ s.status.trail = false
  /-- (e) -/
  outLenLe : s.outLen.toNat ≤ s.cfg.outCap.toNat
  /-- (f) -/
  idleIff : s.ph = .idle ↔ s.status.busy = false
  inCanonical : Memory.wf s.inBuf = true
  inInRange : ∀ a, a ≥ s.cfg.inCap.toNat → Memory.read s.inBuf a = none
  outCanonical : Memory.wf s.outBuf = true
  outKnown : ∀ a, (Memory.read s.outBuf a).isSome ↔ a < s.outLen.toNat
  /-- The cursors are 0 and `N = IN_LEN` from acceptance to completion: `IN_LEN` cannot change while busy (rule R39). -/
  busyLatched : s.status.busy = true →
    s.seq.rp = 0 ∧ s.seq.wp = 0 ∧ s.seq.bp = 0 ∧ s.seq.n = s.inLen ∧ s.ph = .dispatch

/-- What acceptance establishes and a completion relies on (rule R261): the block is busy, the cursors are 0 and no byte of
OUT is specified. -/
structure State.Accepted (s : State) : Prop where
  busy : s.status.busy = true
  rp : s.seq.rp = 0
  wp : s.seq.wp = 0
  bp : s.seq.bp = 0
  out : s.outBuf = []

/-- OUT[0..`OUT_LEN`−1] is the byte string `bytes`, and no other byte of OUT is specified (rule R41). -/
def State.Output (t : State) (bytes : List Byte) : Prop :=
  t.outLen.toNat = bytes.length ∧ ∀ a, Memory.read t.outBuf a = bytes[a]?

/-- The frame of a completion: IN, `IN_LEN` and `CTRL` (rule R263), the capacities (rule R36), and the model's own record of
the outside. Everything else of the state is either written by the completion or unspecified after it (U1, U2, U5). -/
structure State.SameShell (s t : State) : Prop where
  cfg : t.cfg = s.cfg
  ie : t.ie = s.ie
  inLen : t.inLen = s.inLen
  inBuf : t.inBuf = s.inBuf
  epoch : t.epoch = s.epoch
  agenda : t.agenda = s.agenda
  reply : t.reply = s.reply

/-- A step is safe when the machine goes on: it neither faults nor refuses. Only a host access that is no transaction of
the port is refused (U8). -/
def Safe (s : State) : Prop := ∃ t, step s = .next t

end Sys2Proof.Machine
end

