-- ==== Sys2Proof/Certificates/Slice0/Obligations.lean ====
section
/-! DEFINITION. The statements for the provers, in the order of the spec's files. -/

open Sys2Proof Sys2Proof.Machine

/-! ## Command words (30_encoding.md) -/

/-- The four words of the opcode map (rule R92), written out bit by bit from format `C` (rule R91). -/
def Obligations.CommandWordsDecode : Prop :=
  decode 0b00000000000000000000000000000001#32 = .ok .henc ∧
  decode 0b00000000000000000000000000000010#32 = .ok .hdec ∧
  decode 0b00000000000000000000000000000011#32 = .ok .lenc ∧
  decode 0b00000000000000000000000000000100#32 = .ok .ldec

/-- The decoder and the encoder agree, and no other word decodes (rules R91 to R93): each word has one meaning. -/
def Obligations.DecodeInvertsEncode : Prop :=
  (∀ i : Instr, decode (encode i) = .ok i) ∧
  (∀ (w : Word32) (i : Instr), decode w = .ok i ↔ w = encode i) ∧
  (∀ w : Word32, legalCommandWord w = true ↔ ∃ i, decode w = .ok i)

/-- Rule R93: an illegal word written while not busy is accepted like any command and its completion ends with `E_CMD`,
whatever `IN_LEN` and IN hold (rule R282), with no output. -/
def Obligations.IllegalWordIsAcceptedThenFails : Prop :=
  ∀ (s : State) (v : Word64), s.status.busy = false →
    (opField (commandWord v) = 0 ∨ 5 ≤ (opField (commandWord v)).toNat ∨ rsvdField (commandWord v) ≠ 0) →
    ∃ t u, hostTurn (.writeReg 0x08 v) s = .next t ∧ t.status.busy = true ∧ blockTurn t = .next u ∧
      u.status = { busy := false, done := true, err := true, trail := false, errcode := 0x40 } ∧
      u.outLen = 0 ∧ (∀ a, Memory.read u.outBuf a = none) ∧ t.SameShell u

/-! ## The step -/

/-- The block's turn runs the command that the latched word decodes to (rules R262, R263). `step` adds nothing around
`exec` but taking the turn off the agenda, which is the model's own (log entry 6). -/
def Obligations.StepRunsLatchedCommand : Prop :=
  ∀ (s : State) (i : Instr), s.status.busy = true → decode s.seq.cmdl = .ok i →
    (s.agenda = [] → step s = exec i s) ∧
    (∀ rest, s.agenda = .block :: rest → step s = exec i { s with agenda := rest })

/-- `withFetchWord` makes the very next step run the instruction of the word, in the state right after its acceptance. This is
the model's choice (log entry 6, DESIGN CHOICE): `withFetchWord` is the model's own device, and it accepts the word in a busy
block too, where rules R30 and R256 drop a host's write to `CMD`. From the spec are only what acceptance leaves (rule R261)
and that the latched word is what runs (rules R262, R263). -/
def Obligations.FetchWordRunsNext : Prop :=
  ∀ (s : State) (nbits w : Nat) (i : Instr), decodeTableWord nbits w = some i →
    step (s.withFetchWord nbits w) = exec i (accept (BitVec.ofNat 32 (w % 2 ^ nbits)) s)

/-- Turns take effect one at a time, in the order of `agenda`, and an idle block with an empty agenda steps to itself. The agenda,
its order and that last step are the model's choice (log entry 6, DESIGN CHOICE): rule R73 (a), (b) asks for some total order,
in which each transaction and each completion takes effect at once. That an idle block does nothing by itself is what rules
R323 and R343 say. -/
def Obligations.TurnsTakeEffectInOrder : Prop :=
  ∀ s : State,
    (∀ op rest, s.agenda = .host op :: rest → step s = hostTurn op { s with agenda := rest }) ∧
    (∀ rest, s.agenda = .reset :: rest → step s = .next (resetEvent { s with agenda := rest })) ∧
    (∀ rest, s.agenda = .block :: rest → s.status.busy = false → step s = .next { s with agenda := rest }) ∧
    (s.agenda = [] → s.status.busy = false → step s = .next s)

/-! ## Reset (10_state.md, 70_reset_and_hazards.md) -/

/-- Rules R53, R321: the reset event, in any state, busy or not, gives the shell its reset values and leaves the capacities, and
every byte of OUT is unspecified. That byte `a` of IN then reads as the free value `freeInByte (epoch + 1) a`, and right after
`State.reset` as `freeInByte 0 a`, is the model's choice (log entries 3 and 12, DESIGN CHOICE): rule R53 says only that the
byte is unspecified but stable; that it stays until the host writes it is the statement `InputBufferChangesOnly`. -/
def Obligations.ResetValues : Prop :=
  (∀ (s : State) (rest : List Turn), s.agenda = .reset :: rest → ∃ t, step s = .next t ∧
    t.ie = false ∧ t.status = { busy := false, done := false, err := false, trail := false, errcode := 0 } ∧
    t.status.word = 0 ∧ t.inLen = 0 ∧ t.outLen = 0 ∧ t.ph = .idle ∧ t.irq = false ∧ t.cfg = s.cfg ∧
    (∀ a, t.inByte a = Config.freeInByte (s.epoch + 1) a) ∧ (∀ a, Memory.read t.outBuf a = none)) ∧
  State.reset.ie = false ∧ State.reset.status.word = 0 ∧ State.reset.inLen = 0 ∧ State.reset.outLen = 0 ∧
  State.reset.ph = .idle ∧ State.reset.irq = false ∧ (∀ a, State.reset.inByte a = Config.freeInByte 0 a) ∧
  (∀ a, Memory.read State.reset.outBuf a = none)

/-- The invariant holds right after reset (rule R54; that the capacities of `State.reset` are those of Config.lean is the
model's choice, log entry 1). -/
def Obligations.ResetMeetsInvariant : Prop := State.reset.Inv ∧ ∀ s : State, s.cfg.wellFormed = true → (resetEvent s).Inv

/-- Rule R54: every step keeps the invariants (a) to (f), the canonical form of IN and OUT, and what stays latched while busy.
That a busy block between two steps has `PH = DISPATCH` and its cursors at 0 (`Inv.busyLatched`) rests on the model's choice to
run a command in one step (log entry 9, DESIGN CHOICE): rule R13 allows smaller steps too, rule R38 lists the other busy
phases, and rules R261 and R263 say what acceptance leaves and what completion does. -/
def Obligations.StepKeepsInvariant : Prop := ∀ s t : State, s.Inv → step s = .next t → t.Inv

/-- A command that runs has been accepted: acceptance gives `Accepted`, and every busy state that meets the invariant has it,
so the statements about accepted commands speak of every command that runs (rules R54, R261). -/
def Obligations.BusyMeansAccepted : Prop :=
  (∀ (s : State) (w : Word32), (accept w s).Accepted) ∧ ∀ s : State, s.Inv → s.status.busy = true → s.Accepted

/-! ## The register port (10_state.md, 46_host_operations.md) -/

/-- Rule R255: the value a register read returns, at every offset, in every condition of the block; it changes no state
(`reply` is where the model keeps what the host got). -/
def Obligations.RegisterRead : Prop :=
  ∀ (s : State) (off : Nat), off % 8 = 0 → off < 0x100 →
    hostTurn (.readReg off) s = .next { s with reply := .word (
      if off = 0x00 then (if s.ie then 1 else 0)
      else if off = 0x10 then BitVec.ofNat 64
        (s.status.busy.toNat + 2 * s.status.done.toNat + 4 * s.status.err.toNat + 8 * s.status.trail.toNat
          + 256 * s.status.errcode.toNat)
      else if off = 0x18 then s.inLen
      else if off = 0x20 then s.outLen
      else if off = 0x28 then BitVec.ofNat 64 s.cfg.inCap.toNat
      else if off = 0x30 then s.cfg.outCap
      else 0) }

/-- Rule R256: the effect of a register write, at every offset, not busy and busy. -/
def Obligations.RegisterWrite : Prop :=
  ∀ (s : State) (off : Nat) (v : Word64), off % 8 = 0 → off < 0x100 →
    hostTurn (.writeReg off v) s = .next { (
      if off = 0x00 then { s with ie := v.getLsbD 0 }
      else if off = 0x08 then (if s.status.busy then s else accept (v.extractLsb' 0 32) s)
      else if off = 0x10 then (if v.getLsbD 1 then { s with status.done := false } else s)
      else if off = 0x18 then (if s.status.busy then s else { s with inLen := v })
      else s) with reply := .none }

/-- Rule R28: a malformed access is refused; reserved offsets read 0 and ignore writes; so do the reserved bits of `CTRL` and
`STATUS`, and no read has a side effect. -/
def Obligations.PortWidthAndReserved : Prop :=
  ∀ (s : State) (off : Nat) (v : Word64),
    (off % 8 ≠ 0 ∨ 0x100 ≤ off →
      hostTurn (.readReg off) s = .refused (.notAPortTransaction off) ∧
      hostTurn (.writeReg off v) s = .refused (.notAPortTransaction off)) ∧
    (off % 8 = 0 → 0x38 ≤ off → off < 0x100 →
      hostTurn (.readReg off) s = .next { s with reply := .word 0 } ∧
      hostTurn (.writeReg off v) s = .next { s with reply := .none }) ∧
    (∀ k, 1 ≤ k → (readReg s 0x00).getLsbD k = false) ∧
    (∀ k, 4 ≤ k → k < 8 ∨ 16 ≤ k → (readReg s 0x10).getLsbD k = false) ∧
    writeReg 0x00 v s = writeReg 0x00 (v &&& 1) s ∧ writeReg 0x10 v s = writeReg 0x10 (v &&& 2) s ∧
    (off % 8 = 0 → off < 0x100 → ∃ t, hostTurn (.readReg off) s = .next t ∧ { t with reply := s.reply } = s)

/-- Rule R261: acceptance of a command word. -/
def Obligations.Acceptance : Prop :=
  ∀ (s : State) (v : Word64), s.status.busy = false →
    ∃ t, hostTurn (.writeReg 0x08 v) s = .next t ∧
      t.seq = { cmdl := v.extractLsb' 0 32, n := s.inLen, rp := 0, wp := 0, bp := 0 } ∧
      t.status = { busy := true, done := false, err := false, trail := false, errcode := 0 } ∧
      t.outLen = 0 ∧ t.ph = .dispatch ∧ t.irq = false ∧ (∀ a, Memory.read t.outBuf a = none) ∧
      t.inBuf = s.inBuf ∧ t.inLen = s.inLen ∧ t.ie = s.ie ∧ t.cfg = s.cfg ∧ t.epoch = s.epoch ∧ t.draws = s.draws

/-- Rules R73 (c), R76, R39: no host transaction alters what a running command reads or what it will do: writes to `CMD`,
`IN_LEN` and IN are dropped while busy (rules R30, R34, R40). -/
def Obligations.HostCannotDisturbRunningCommand : Prop :=
  ∀ (s t : State) (op : HostOp), s.status.busy = true → hostTurn op s = .next t →
    t.seq = s.seq ∧ t.inBuf = s.inBuf ∧ t.inLen = s.inLen ∧ t.cfg = s.cfg ∧ t.epoch = s.epoch ∧ t.outBuf = s.outBuf ∧
    t.outLen = s.outLen ∧ t.ph = s.ph ∧ t.huff = s.huff ∧ t.lzw = s.lzw ∧ t.status.busy = true ∧
    t.status.err = s.status.err ∧ t.status.errcode = s.status.errcode ∧ t.status.trail = s.status.trail ∧
    t.input = s.input

/-- Rule R32: `BUSY` and `DONE` are never both 1; acceptance sets `BUSY` and clears `DONE`, completion does the reverse, a
write of 1 to `STATUS` bit 1 clears `DONE` and changes nothing else, and idle and done accept commands alike. -/
def Obligations.BusyAndDone : Prop :=
  (∀ s : State, s.Inv → ¬ (s.status.busy = true ∧ s.status.done = true)) ∧
  (∀ (s : State) (w : Word32), (accept w s).status.busy = true ∧ (accept w s).status.done = false) ∧
  (∀ s : State, s.status.busy = true →
    ∃ t, blockTurn s = .next t ∧ t.status.busy = false ∧ t.status.done = true) ∧
  (∀ (s : State) (v : Word64), v.getLsbD 1 = true →
    hostTurn (.writeReg 0x10 v) s = .next { s with status.done := false, reply := .none }) ∧
  (∀ (s : State) (v : Word64), s.status.busy = false →
    hostTurn (.writeReg 0x08 v) { s with status.done := true } = hostTurn (.writeReg 0x08 v) { s with status.done := false })

/-- Rule R33: `ERR`, `ERRCODE` and `TRAIL` are written at completion, cleared by acceptance and by reset, and changed by
nothing else; the same of `OUT_LEN` (rule R35). -/
def Obligations.OutcomeRegistersChangeOnly : Prop :=
  (∀ s t : State, step s = .next t →
    (t.status.err ≠ s.status.err ∨ t.status.errcode ≠ s.status.errcode ∨ t.status.trail ≠ s.status.trail
      ∨ t.outLen ≠ s.outLen) →
    (s.status.busy = true ∧ (s.agenda = [] ∨ s.agenda.head? = some .block)) ∨ s.agenda.head? = some .reset ∨
      (s.status.busy = false ∧ ∃ v, s.agenda.head? = some (.host (.writeReg 0x08 v)))) ∧
  (∀ (s : State) (w : Word32),
    (accept w s).status.err = false ∧ (accept w s).status.errcode = 0 ∧ (accept w s).status.trail = false
      ∧ (accept w s).outLen = 0) ∧
  (∀ s : State, (resetEvent s).status.err = false ∧ (resetEvent s).status.errcode = 0
      ∧ (resetEvent s).status.trail = false ∧ (resetEvent s).outLen = 0)

/-- Rules R50, R296: `irq = DONE AND IE`; it is `IE` after a completion, falls at acceptance, acknowledgement and reset, and
follows a write to `CTRL`. -/
def Obligations.InterruptPin : Prop :=
  (∀ s : State, s.irq = (s.status.done && s.ie)) ∧
  (∀ (s t : State), s.status.busy = true → blockTurn s = .next t → t.irq = s.ie) ∧
  (∀ (s : State) (w : Word32), (accept w s).irq = false) ∧
  (∀ s : State, (ackDone s).irq = false ∧ (resetEvent s).irq = false) ∧
  (∀ (s : State) (v : Word64), (writeReg 0x00 v s).irq = (s.status.done && v.getLsbD 0))

/-! ## The buffer port (20_memory.md) -/

/-- Rule R71: every row of the table of buffer transactions. What the host got is held in `reply` (log entry 11), and the byte it
gets from an unspecified byte of OUT is the free value `freeOutByte draws`, after which one draw is counted; these are the
model's choice (log entries 4 and 11, DESIGN CHOICE), since the rule says only that some byte is returned. -/
def Obligations.BufferPort : Prop :=
  ∀ (s : State) (a : Nat) (v : Byte),
    (s.status.busy = false → a < s.cfg.inCap.toNat → ∃ t, hostTurn (.writeIn a v) s = .next t ∧
      t.inByte a = v ∧ (∀ b, b ≠ a → t.inByte b = s.inByte b) ∧
      { t with inBuf := s.inBuf, reply := s.reply } = s) ∧
    (s.status.busy = true ∨ s.cfg.inCap.toNat ≤ a → hostTurn (.writeIn a v) s = .next { s with reply := .none }) ∧
    (a < s.cfg.inCap.toNat → hostTurn (.readIn a) s = .next { s with reply := .byte (s.inByte a) }) ∧
    (s.cfg.inCap.toNat ≤ a → hostTurn (.readIn a) s = .next { s with reply := .byte 0 }) ∧
    (s.cfg.outCap.toNat ≤ a → hostTurn (.readOut a) s = .next { s with reply := .byte 0 }) ∧
    (∀ b, a < s.cfg.outCap.toNat → s.status.busy = false → Memory.read s.outBuf a = some b →
      hostTurn (.readOut a) s = .next { s with reply := .byte b }) ∧
    (a < s.cfg.outCap.toNat → (s.status.busy = true ∨ Memory.read s.outBuf a = none) →
      hostTurn (.readOut a) s = .next { s with reply := .byte (Config.freeOutByte s.draws), draws := s.draws + 1 }) ∧
    hostTurn (.writeOut a v) s = .next { s with reply := .none }

/-- Rule R41: which bytes of OUT are specified. After a success exactly those below `OUT_LEN`; after an error, from
acceptance on, and after reset none. -/
def Obligations.SpecifiedOutBytes : Prop :=
  (∀ (s t : State) (i : Instr), s.Accepted → exec i s = .next t →
    (t.status.err = false → ∀ a, (Memory.read t.outBuf a).isSome ↔ a < t.outLen.toNat) ∧
    (t.status.err = true → ∀ a, Memory.read t.outBuf a = none)) ∧
  (∀ (s : State) (w : Word32) (a : Nat), Memory.read (accept w s).outBuf a = none) ∧
  (∀ (s : State) (a : Nat), Memory.read (resetEvent s).outBuf a = none)

/-- Rules R40, R53: a byte of IN changes only by a host write to that byte while not busy, or by reset; the block never
writes IN. -/
def Obligations.InputBufferChangesOnly : Prop :=
  ∀ (s t : State) (a : Nat), step s = .next t → t.inByte a ≠ s.inByte a →
    s.agenda.head? = some .reset ∨
      (s.status.busy = false ∧ a < s.cfg.inCap.toNat ∧ s.agenda.head? = some (.host (.writeIn a (t.inByte a))))

/-- Rule R62: a field of `n` bytes at index `a` has the value `B[a] + 256·B[a+1] + ..`, and a field is written with the
byte at the lowest index least significant. -/
def Obligations.FieldsAreLittleEndian : Prop :=
  (∀ (s : State) (a n : Nat), s.memRead a n = ((List.range n).map fun i => 256 ^ i * (s.inByte (a + i)).toNat).sum) ∧
  (∀ (s : State) (a n v k : Nat),
    Memory.read (memWrite a n v s).outBuf k =
      if a ≤ k ∧ k < a + n then some (BitVec.ofNat 8 (v / 256 ^ (k - a) % 256)) else Memory.read s.outBuf k)

/-- Rule R64: bit `k` of a packed bit sequence is bit `7 − (k mod 8)` of payload byte `k div 8`, the pad bits are 0, and the
unpacker reads a payload bit from that place (rules R165, R166, R187). -/
def Obligations.PayloadBitOrder : Prop :=
  (∀ (s : State) (bits : Bits), s.huff.acc = 0 → s.huff.nb = 0 →
    s.seq.wp.toNat + ceil8 bits.length ≤ s.cfg.outCap.toNat →
    ∃ t u, bits.foldlM putBit s = .ok t ∧ flush t = .ok u ∧
      u.seq.wp.toNat = s.seq.wp.toNat + ceil8 bits.length ∧
      (∀ k, k < 8 * ceil8 bits.length → ∃ p, Memory.read u.outBuf (s.seq.wp.toNat + k / 8) = some p ∧
        p.getLsbD (7 - k % 8) = bits.getD k false) ∧
      (∀ a, a < s.seq.wp.toNat ∨ s.seq.wp.toNat + ceil8 bits.length ≤ a →
        Memory.read u.outBuf a = Memory.read s.outBuf a)) ∧
  (∀ (s : State) (pb k : Nat), getBit s pb k = (s.inByte (pb + k / 8)).getLsbD (7 - k % 8))

/-- Rules R66, R68: the sequential read, and the sequential write, which is all or nothing. -/
def Obligations.SequentialAccess : Prop :=
  ∀ (s : State) (n v : Nat),
    (s.seq.rp.toNat + n > s.seq.n.toNat → inBytes n s = .error .fmtTrunc) ∧
    (s.seq.rp.toNat + n ≤ s.seq.n.toNat → ∃ t, inBytes n s = .ok (s.memRead s.seq.rp.toNat n, t) ∧
      t.seq.rp.toNat = s.seq.rp.toNat + n ∧ { t with seq.rp := s.seq.rp } = s) ∧
    (s.seq.wp.toNat + n > s.cfg.outCap.toNat → outBytes n v s = .error .ioOvf) ∧
    (s.seq.wp.toNat + n ≤ s.cfg.outCap.toNat → ∃ t, outBytes n v s = .ok t ∧
      t.outBuf = (memWrite s.seq.wp.toNat n v s).outBuf ∧ t.seq.wp.toNat = s.seq.wp.toNat + n ∧
      { t with outBuf := s.outBuf, seq.wp := s.seq.wp } = s)

/-! ## Frequency analyzer, tree builder, code generator (40_huffman_tree_and_codes.md) -/

/-- Rule R131: every entry of FREQ is the number of times its byte occurs in IN[0..N−1], `NSYM` is the number of bytes that
occur, the counts sum to `N`, `1 ≤ NSYM ≤ min(N, 256)` when there is input, and nothing else changes. -/
def Obligations.FrequencyCount : Prop :=
  ∀ s : State, s.seq.n.toNat < 2 ^ 32 →
    (∀ b, (entryOf (freqCount s).huff.freq b).toNat = s.input.count b) ∧
    (freqCount s).huff.nsym.toNat = (allBytes.filter fun b => b ∈ s.input).length ∧
    (allBytes.map fun b => (entryOf (freqCount s).huff.freq b).toNat).sum = s.seq.n.toNat ∧
    (1 ≤ s.seq.n.toNat → 1 ≤ (freqCount s).huff.nsym.toNat ∧ (freqCount s).huff.nsym.toNat ≤ min s.seq.n.toNat 256) ∧
    { freqCount s with huff.freq := s.huff.freq, huff.nsym := s.huff.nsym } = s

/-- Rule R135: `POPMIN` returns the queued index whose pair (weight, index) is smallest, and clears its `INQ` alone. -/
def Obligations.PopMinTieBreak : Prop :=
  ∀ ns : List Node, 1 ≤ queueSize ns →
    ∃ i n, ns[i]? = some n ∧ n.inq = true ∧ popMin ns = some (i, n.w, ns.set i { n with inq := false }) ∧
      ∀ (j : Nat) (m : Node), ns[j]? = some m → m.inq = true → n.w < m.w ∨ (n.w = m.w ∧ i ≤ j)

/-- Rule R132: a tree of `NSYM` distinct bytes has `NSYM` leaves at the indices below `NSYM`, `NSYM − 1` internal nodes above
them, at most 511 nodes in all, and its root is the last node created. -/
def Obligations.TreeSize : Prop :=
  ∀ (s : State) (k : Nat), k = (allBytes.filter fun b => entryOf s.huff.freq b ≠ 0).length → 1 ≤ k →
    let t := buildTree s
    t.huff.node.length = 2 * k - 1 ∧ t.huff.ncnt.toNat = 2 * k - 1 ∧ 2 * k - 1 ≤ 511 ∧ t.huff.root.toNat = 2 * k - 2 ∧
      (∀ i, i < k → ∃ n b, t.huff.node[i]? = some n ∧ n.body = .leaf b) ∧
      (∀ i, k ≤ i → i < 2 * k - 1 → ∃ n l r, t.huff.node[i]? = some n ∧ n.body = .internal l r)

/-- Rules R133, R136, R138 (a), (c): the leaves are the bytes of the mapping in ascending order with their counts; an
internal node has two children of smaller index and the sum of their weights; the root weighs what all counts sum to. -/
def Obligations.TreeWeights : Prop :=
  ∀ (s : State), (∃ b, entryOf s.huff.freq b ≠ 0) →
    let ns := (buildTree s).huff.node
    (ns.filterMap fun n => match n.body with | .leaf b => some (b, n.w.toNat) | .internal _ _ => none) =
      ((allBytes.filter fun b => entryOf s.huff.freq b ≠ 0).map fun b => (b, (entryOf s.huff.freq b).toNat)) ∧
    (∀ (i : Nat) (n : Node) (l r : BitVec 9), ns[i]? = some n → n.body = .internal l r → l.toNat < i ∧ r.toNat < i ∧
      ∃ a b : Node, ns[l.toNat]? = some a ∧ ns[r.toNat]? = some b ∧ n.w.toNat = a.w.toNat + b.w.toNat) ∧
    (∃ n, ns[(buildTree s).huff.root.toNat]? = some n ∧
      n.w.toNat = (allBytes.map fun b => (entryOf s.huff.freq b).toNat).sum)

/-- Rules R139, R187: with two or more bytes in the mapping, the code of a byte, followed from the root bit by bit, ends at
the leaf of that byte. -/
def Obligations.CodeLeadsToItsLeaf : Prop :=
  ∀ (s : State) (b c : Byte), b ≠ c → entryOf s.huff.freq b ≠ 0 → entryOf s.huff.freq c ≠ 0 →
    let t := codegen (buildTree s)
    (nodeAt t ((entryOf t.huff.code b).foldl (fun i x => childOf (nodeAt t i).body x) t.huff.root)).body = .leaf b

/-- Rule R140: the codes of different bytes of a mapping are different and none is a prefix of another. -/
def Obligations.CodesArePrefixFree : Prop :=
  ∀ (s : State) (b c : Byte), b ≠ c → entryOf s.huff.freq b ≠ 0 → entryOf s.huff.freq c ≠ 0 →
    entryOf (codegen (buildTree s)).huff.code b ≠ entryOf (codegen (buildTree s)).huff.code c ∧
    ¬ entryOf (codegen (buildTree s)).huff.code b <+: entryOf (codegen (buildTree s)).huff.code c

/-- Rules R139, R141: a byte of the mapping has a code of 1 to 255 bits, every other byte has none, and the code of the one
byte of a single-byte mapping is `"0"`. -/
def Obligations.CodeLengths : Prop :=
  ∀ (s : State) (b : Byte),
    (entryOf s.huff.freq b ≠ 0 → 1 ≤ (entryOf (codegen (buildTree s)).huff.code b).length ∧
      (entryOf (codegen (buildTree s)).huff.code b).length ≤ 255) ∧
    (entryOf s.huff.freq b = 0 → entryOf (codegen (buildTree s)).huff.code b = []) ∧
    ((∀ c, entryOf s.huff.freq c ≠ 0 ↔ c = b) → entryOf (codegen (buildTree s)).huff.code b = [false])

/-! ## Huffman encoder (41_huffman_encode.md) -/

/-- `HENC` computes what Reference.lean computes, and leaves exactly the state rule R264 says: trees, queues, bit packing and
cursors of the machine against trees, lists and bit strings. -/
def Obligations.HencIsReference : Prop :=
  ∀ s : State, s.Accepted →
    exec .henc s = .next (Ref.complete s (Ref.run .henc s.cfg s.seq.n.toNat s.input))

/-- Rules R161, R95, R100: `HENC` completes on every input of 1 to `IN_CAP` bytes whose container fits OUT, with the table in
ascending byte order, the sum of the code lengths and the packed codes. -/
def Obligations.HencCompletes : Prop :=
  ∀ s : State, s.Accepted → 1 ≤ s.seq.n.toNat → s.seq.n.toNat ≤ s.cfg.inCap.toNat →
    (Ref.hencContainer s.input).length ≤ s.cfg.outCap.toNat →
    ∃ t, exec .henc s = .next t ∧ t.status = .succeeded false ∧ t.ph = .idle ∧
      t.Output (Ref.hencContainer s.input) ∧ s.SameShell t

/-- Rule R167: the size of the result, and when it does not fit (rule R161). `L` is the sum of count times code length
(rule R163). -/
def Obligations.HencResultSize : Prop :=
  ∀ (s t : State) (nsym l : Nat), s.Accepted → 1 ≤ s.seq.n.toNat → s.seq.n.toNat ≤ s.cfg.inCap.toNat →
    nsym = (freqCount s).huff.nsym.toNat →
    l = codedLength (freqCount s).huff.freq (codegen (buildTree (freqCount s))).huff.code →
    exec .henc s = .next t →
    s.seq.n.toNat ≤ l ∧ l ≤ 255 * s.seq.n.toNat ∧ 22 ≤ 16 + 5 * nsym + ceil8 l ∧
    16 + 5 * nsym + ceil8 l ≤ 16 + 1280 + 32 * s.seq.n.toNat ∧
    (16 + 5 * nsym + ceil8 l ≤ s.cfg.outCap.toNat →
      t.status = .succeeded false ∧ t.outLen.toNat = 16 + 5 * nsym + ceil8 l) ∧
    (s.cfg.outCap.toNat < 16 + 5 * nsym + ceil8 l → t.status = .failed .ioOvf)

/-! ## Huffman decoder (42_huffman_decode.md) -/

/-- `HDEC` computes what Reference.lean computes on every input, well-formed or not (rule R264). -/
def Obligations.HdecIsReference : Prop :=
  ∀ s : State, s.Accepted →
    exec .hdec s = .next (Ref.complete s (Ref.run .hdec s.cfg s.seq.n.toNat s.input))

/-- Rules R181, R183, R187 to R190, R193: `HDEC` completes on every well-formed container: 1 to 256 entries with different
bytes in any order and frequencies that are not 0, then the length of the coded message, a payload whose first `L` bits are
the codes of the message (its pad bits are free), then any trailing bytes, which set `TRAIL`. The message may be empty
(`L = 0`, rule R189) and the table may have one entry (rule R188). -/
def Obligations.HdecCompletes : Prop :=
  ∀ (s : State) (table : List (Byte × Nat)) (msg payload extra : List Byte) (bits : Bits),
    s.Accepted → s.seq.n.toNat ≤ s.cfg.inCap.toNat →
    table ≠ [] → (table.map (·.1)).Nodup → (∀ e ∈ table, 1 ≤ e.2 ∧ e.2 < 2 ^ 32) →
    (∀ b ∈ msg, b ∈ table.map (·.1)) →
    bits = msg.flatMap (Ref.codeOf (Ref.treeOf fun b => (table.lookup b).getD 0)) →
    payload.length = ceil8 bits.length → (Ref.bitsOf payload).take bits.length = bits →
    s.input = leBytes 8 table.length ++ table.flatMap Ref.entryBytes ++ leBytes 8 bits.length ++ payload ++ extra →
    msg.length ≤ s.cfg.outCap.toNat →
    ∃ t, exec .hdec s = .next t ∧ t.status = .succeeded (decide (extra ≠ [])) ∧ t.ph = .idle ∧ t.Output msg ∧
      s.SameShell t

/-- Rule R182: a count of 0 or of more than 256 ends with `E_FMT_COUNT`, and fewer than 8 bytes with `E_FMT_TRUNC`. -/
def Obligations.HdecCountField : Prop :=
  ∀ s : State, s.Accepted → s.seq.n.toNat ≤ s.cfg.inCap.toNat →
    (s.seq.n.toNat < 8 → exec .hdec s = .next (errorTerminate .fmtTrunc s)) ∧
    (8 ≤ s.seq.n.toNat → (s.memRead 0 8 = 0 ∨ 256 < s.memRead 0 8) →
      exec .hdec s = .next (errorTerminate .fmtCount s))

/-- Rules R183, R286, R290: one entry of the table: truncation is checked first, then a zero frequency, then a repeated
byte; otherwise the entry is stored and nothing else but the read cursor changes. -/
def Obligations.TableEntryChecks : Prop :=
  ∀ (s : State), (s.seq.n.toNat < s.seq.rp.toNat + 5 → readEntry s = .error .fmtTrunc) ∧
    (s.seq.rp.toNat + 5 ≤ s.seq.n.toNat →
      (s.memRead (s.seq.rp.toNat + 1) 4 = 0 → readEntry s = .error .fmtZeroFreq) ∧
      (s.memRead (s.seq.rp.toNat + 1) 4 ≠ 0 → entryOf s.huff.freq (s.inByte s.seq.rp.toNat) ≠ 0 →
        readEntry s = .error .fmtDup) ∧
      (s.memRead (s.seq.rp.toNat + 1) 4 ≠ 0 → entryOf s.huff.freq (s.inByte s.seq.rp.toNat) = 0 →
        readEntry s = .ok { s with
          seq.rp := s.seq.rp + 5
          huff.freq := setEntry s.huff.freq (s.inByte s.seq.rp.toNat)
            (BitVec.ofNat 32 (s.memRead (s.seq.rp.toNat + 1) 4)) }))

/-- Rule R188: a 1 among the `L` payload bits of a single-entry container ends with `E_FMT_BADBIT`, unless the bytes before it
already overflow OUT (rule R290). -/
def Obligations.SingleLeafBadBit : Prop :=
  ∀ (s : State) (b : Byte) (f l : Nat) (payload extra : List Byte),
    s.Accepted → s.seq.n.toNat ≤ s.cfg.inCap.toNat → 1 ≤ f → f < 2 ^ 32 → payload.length = ceil8 l →
    s.input = leBytes 8 1 ++ Ref.entryBytes (b, f) ++ leBytes 8 l ++ payload ++ extra →
    true ∈ (Ref.bitsOf payload).take l →
    (((Ref.bitsOf payload).take l).takeWhile fun x => !x).length ≤ s.cfg.outCap.toNat →
    exec .hdec s = .next (errorTerminate .fmtBadBit s)

/-- Rules R189, R287: when the `L` bits end inside a code word of a table of two or more bytes the command ends with
`E_FMT_OFFLEAF`, unless the complete code words already overflow OUT (rule R290). -/
def Obligations.EndOffLeaf : Prop :=
  ∀ (s : State) (table : List (Byte × Nat)) (msg payload extra : List Byte) (tail : Bits) (b : Byte) (bits : Bits),
    s.Accepted → s.seq.n.toNat ≤ s.cfg.inCap.toNat →
    2 ≤ table.length → (table.map (·.1)).Nodup → (∀ e ∈ table, 1 ≤ e.2 ∧ e.2 < 2 ^ 32) →
    (∀ c ∈ msg, c ∈ table.map (·.1)) → b ∈ table.map (·.1) →
    tail ≠ [] → tail <+: Ref.codeOf (Ref.treeOf fun c => (table.lookup c).getD 0) b →
    tail ≠ Ref.codeOf (Ref.treeOf fun c => (table.lookup c).getD 0) b →
    bits = msg.flatMap (Ref.codeOf (Ref.treeOf fun c => (table.lookup c).getD 0)) ++ tail →
    payload.length = ceil8 bits.length → (Ref.bitsOf payload).take bits.length = bits →
    s.input = leBytes 8 table.length ++ table.flatMap Ref.entryBytes ++ leBytes 8 bits.length ++ payload ++ extra →
    msg.length ≤ s.cfg.outCap.toNat →
    exec .hdec s = .next (errorTerminate .fmtOffLeaf s)

/-- Rule R192: what `HENC` makes of an input, `HDEC` turns back into that input, when the container fits IN and the input fits
OUT. The two commands may run on different blocks. -/
def Obligations.HuffmanRoundTrip : Prop :=
  ∀ (s t u : State), s.Accepted → 1 ≤ s.seq.n.toNat → s.seq.n.toNat ≤ s.cfg.inCap.toNat →
    exec .henc s = .next t → t.status.err = false →
    u.Accepted → u.seq.n = t.outLen → u.seq.n.toNat ≤ u.cfg.inCap.toNat →
    (∀ a, a < t.outLen.toNat → Memory.read t.outBuf a = some (u.inByte a)) →
    s.seq.n.toNat ≤ u.cfg.outCap.toNat →
    ∃ v, exec .hdec u = .next v ∧ v.status = .succeeded false ∧ v.Output s.input

/-! ## LZW dictionary (43_lzw_dictionary.md) -/

/-- Rule R203: `DICT_SEARCH` returns the smallest valid code with that prefix and byte, or `NOTFOUND` when there is none. -/
def Obligations.DictionarySearch : Prop :=
  ∀ (s : State) (p : BitVec 12) (b : Byte),
    (∀ k, dictSearch s p b = some k ↔
      (256 ≤ k ∧ k < s.lzw.next.toNat ∧ s.lzw.dict[k - 256]? = some { pfx := p, ch := b } ∧
        ∀ j, 256 ≤ j → j < k → s.lzw.dict[j - 256]? ≠ some { pfx := p, ch := b })) ∧
    (dictSearch s p b = none ↔
      ∀ k, 256 ≤ k → k < s.lzw.next.toNat → s.lzw.dict[k - 256]? ≠ some { pfx := p, ch := b })

/-- Rule R206: `DICT_ADD` stores at `NEXT` and increments it, keeps every earlier entry, and does nothing at the cap. The
premise, that as many entries are listed as `NEXT` says, holds after `DICT_INIT` and is kept. -/
def Obligations.DictionaryAdd : Prop :=
  (∀ s : State, (dictInit s).lzw.next.toNat = 256 ∧ (dictInit s).lzw.dict.length = 0) ∧
  ∀ (s : State) (p : BitVec 12) (b : Byte), s.lzw.next.toNat = 256 + s.lzw.dict.length →
    (s.lzw.next.toNat < 4096 →
      (dictAdd p b s).lzw.next.toNat = s.lzw.next.toNat + 1 ∧
      (dictAdd p b s).lzw.dict[s.lzw.next.toNat - 256]? = some { pfx := p, ch := b } ∧
      (dictAdd p b s).lzw.dict.length = s.lzw.dict.length + 1 ∧
      (∀ j, j < s.lzw.dict.length → (dictAdd p b s).lzw.dict[j]? = s.lzw.dict[j]?) ∧
      { dictAdd p b s with lzw.dict := s.lzw.dict, lzw.next := s.lzw.next } = s) ∧
    (s.lzw.next.toNat = 4096 → dictAdd p b s = s)

/-- Rules R47, R205: the string of a code: one byte below 256, else the prefix's string and the entry's byte; `FIRST` is its
first byte. The premise, that a prefix is smaller than its entry's own code, is kept by every add (rule R206). -/
def Obligations.DictionaryStrings : Prop :=
  ∀ (s : State), (∀ (j : Nat) (e : DictEntry), s.lzw.dict[j]? = some e → e.pfx.toNat < 256 + j) →
    (∀ c, c < 256 → dictEntry s c = [BitVec.ofNat 8 c] ∧ firstByte s c = BitVec.ofNat 8 c) ∧
    (∀ (j : Nat) (e : DictEntry), s.lzw.dict[j]? = some e →
      dictEntry s (256 + j) = dictEntry s e.pfx.toNat ++ [e.ch] ∧ firstByte s (256 + j) = firstByte s e.pfx.toNat ∧
      (dictEntry s (256 + j)).head? = some (firstByte s (256 + j)))

/-- Rules R202, R207, R228: when a codec has run to its end, the dictionary has 256 to 4096 entries, as many as are listed, and
every prefix is a code smaller than its entry's own; after `LENC` it has `min(4096, 256 + m − 1)` entries for `m` codes, and
`CUR` is a present code. -/
def Obligations.DictionaryBounds : Prop :=
  (∀ (s t : State) (trail : Bool), s.Accepted → (runLenc s = .ok (t, trail) ∨ runLdec s = .ok (t, trail)) →
    256 ≤ t.lzw.next.toNat ∧ t.lzw.next.toNat ≤ 4096 ∧ t.lzw.next.toNat = 256 + t.lzw.dict.length ∧
    (∀ (j : Nat) (e : DictEntry), t.lzw.dict[j]? = some e → e.pfx.toNat < 256 + j)) ∧
  (∀ (s t : State) (trail : Bool), s.Accepted → runLenc s = .ok (t, trail) →
    t.lzw.next.toNat = min 4096 (256 + (t.lzw.ccnt.toNat - 1)) ∧ t.lzw.cur.toNat < t.lzw.next.toNat)

/-! ## LZW encoder and decoder (44_lzw_encode.md, 45_lzw_decode.md) -/

/-- `LENC` computes what Reference.lean computes over a dictionary of strings (rules R208, R264). -/
def Obligations.LencIsReference : Prop :=
  ∀ s : State, s.Accepted →
    exec .lenc s = .next (Ref.complete s (Ref.run .lenc s.cfg s.seq.n.toNat s.input))

/-- Rules R220, R108, R228: `LENC` completes on every input of 1 to `IN_CAP` bytes whose container fits OUT; it writes 1 to `N`
codes, the first of them the first byte, all of them below 4096, and they stand for the input. -/
def Obligations.LencCompletes : Prop :=
  ∀ s : State, s.Accepted → 1 ≤ s.seq.n.toNat → s.seq.n.toNat ≤ s.cfg.inCap.toNat →
    8 + 4 * (Ref.lzwCodes s.input).length ≤ s.cfg.outCap.toNat →
    ∃ t, exec .lenc s = .next t ∧ t.status = .succeeded false ∧ t.ph = .idle ∧
      t.Output (Ref.lzwContainer (Ref.lzwCodes s.input)) ∧ s.SameShell t ∧
      t.outLen.toNat = 8 + 4 * (Ref.lzwCodes s.input).length ∧
      1 ≤ (Ref.lzwCodes s.input).length ∧ (Ref.lzwCodes s.input).length ≤ s.seq.n.toNat ∧
      (Ref.lzwCodes s.input).head? = some (s.inByte 0).toNat ∧ (∀ c ∈ Ref.lzwCodes s.input, c < 4096) ∧
      Ref.expand (Ref.lzwCodes s.input) = some s.input

/-- `LDEC` computes what Reference.lean computes on every input, well-formed or not (rules R208, R264). -/
def Obligations.LdecIsReference : Prop :=
  ∀ s : State, s.Accepted →
    exec .ldec s = .next (Ref.complete s (Ref.run .ldec s.cfg s.seq.n.toNat s.input))

/-- Rules R236, R238, R240 to R246, R249: `LDEC` completes on every stream whose codes are in range, no code at all included,
and writes what they stand for; trailing bytes set `TRAIL`. -/
def Obligations.LdecCompletes : Prop :=
  ∀ (s : State) (cs : List Nat) (out extra : List Byte),
    s.Accepted → s.seq.n.toNat ≤ s.cfg.inCap.toNat → s.input = Ref.lzwContainer cs ++ extra → Ref.expand cs = some out → out.length ≤ s.cfg.outCap.toNat →
    ∃ t, exec .ldec s = .next t ∧ t.status = .succeeded (decide (extra ≠ [])) ∧ t.ph = .idle ∧ t.Output out ∧
      s.SameShell t

/-- Rules R237, R239, R240, R285: a count field that is cut, a first code that is cut, and a first code outside 0 to 255. -/
def Obligations.LdecFirstCode : Prop :=
  ∀ s : State, s.Accepted → s.seq.n.toNat ≤ s.cfg.inCap.toNat →
    (s.seq.n.toNat < 8 → exec .ldec s = .next (errorTerminate .fmtTrunc s)) ∧
    (8 ≤ s.seq.n.toNat → s.memRead 0 8 ≠ 0 → s.seq.n.toNat < 12 → exec .ldec s = .next (errorTerminate .fmtTrunc s)) ∧
    (12 ≤ s.seq.n.toNat → s.memRead 0 8 ≠ 0 →
      (BitVec.ofNat 32 (s.memRead 8 4)).toInt < 0 ∨ 256 ≤ (BitVec.ofNat 32 (s.memRead 8 4)).toInt →
      exec .ldec s = .next (errorTerminate .fmtCode s))

/-- Rules R241, R242, R245: which later codes are accepted and what they stand for: a present code its string, the code `NEXT`
below the cap the synthesized string, and every negative code, every code above `NEXT` and every code from 4096 up is
`E_FMT_CODE`. -/
def Obligations.LaterCodeClasses : Prop :=
  ∀ s : State, 256 ≤ s.lzw.next.toNat → s.lzw.next.toNat ≤ 4096 →
    (∀ c, s.lzw.codev.toInt = (c : Nat) → c < s.lzw.next.toNat → classifyCode s = .ok (dictEntry s c)) ∧
    (s.lzw.codev.toInt = s.lzw.next.toNat → s.lzw.next.toNat < 4096 →
      classifyCode s = .ok (dictEntry s s.lzw.prev.toNat ++ [firstByte s s.lzw.prev.toNat])) ∧
    (s.lzw.codev.toInt < 0 ∨ (s.lzw.next.toNat : Int) < s.lzw.codev.toInt ∨ 4096 ≤ s.lzw.codev.toInt →
      classifyCode s = .error .fmtCode)

/-- Rule R248: what `LENC` makes of an input, `LDEC` turns back into that input, when the container fits IN and the input fits
OUT; the two dictionaries end with the same number of entries. -/
def Obligations.LzwRoundTrip : Prop :=
  ∀ (s t u : State), s.Accepted → 1 ≤ s.seq.n.toNat → s.seq.n.toNat ≤ s.cfg.inCap.toNat →
    exec .lenc s = .next t → t.status.err = false →
    u.Accepted → u.seq.n = t.outLen → u.seq.n.toNat ≤ u.cfg.inCap.toNat →
    (∀ a, a < t.outLen.toNat → Memory.read t.outBuf a = some (u.inByte a)) →
    s.seq.n.toNat ≤ u.cfg.outCap.toNat →
    ∃ v, exec .ldec u = .next v ∧ v.status = .succeeded false ∧ v.Output s.input ∧
      ∀ x y, runLenc s = .ok x → runLdec u = .ok y → x.1.lzw.next = y.1.lzw.next

/-! ## Completion and errors (46_host_operations.md, 60_exceptions.md) -/

/-- Rules R263, R281, R292: every command completes in every state, with success or with one of the error codes its row of
the code table allows. -/
def Obligations.EveryCommandCompletes : Prop :=
  ∀ (i : Instr) (s : State), ∃ t, exec i s = .next t ∧ t.status.busy = false ∧ t.status.done = true ∧ t.ph = .idle ∧
    ((t.status.err = false ∧ t.status.errcode = 0 ∧ (i = .henc ∨ i = .lenc → t.status.trail = false)) ∨
     (t.status.err = true ∧ t.status.trail = false ∧ t.outLen = 0 ∧ (∀ a, Memory.read t.outBuf a = none) ∧
      t.status.errcode ∈ (match i with
        | .henc => [0x10, 0x11, 0x30]
        | .hdec => [0x11, 0x20, 0x21, 0x22, 0x23, 0x24, 0x25, 0x30]
        | .lenc => [0x10, 0x11, 0x30]
        | .ldec => [0x11, 0x20, 0x26, 0x30] : List (BitVec 8))))

/-- Rules R263, R36, R40, R41: the frame of all four commands: IN, `IN_LEN`, `CTRL` and the capacities are unchanged, every byte of
IN reads as before, and no byte of OUT at or above `OUT_LEN` is specified. That one free value is drawn, `draws + 1`, is the
model's choice (log entry 5, DESIGN CHOICE): the counter is the model's own. -/
def Obligations.CommandFrame : Prop :=
  ∀ (i : Instr) (s t : State), exec i s = .next t →
    s.SameShell t ∧ (∀ a, t.inByte a = s.inByte a) ∧ t.draws = s.draws + 1 ∧
    (∀ a, t.outLen.toNat ≤ a → Memory.read t.outBuf a = none)

/-- Rule R292: whatever error `e` a command raises, and wherever, the completion step ends with this state change, with the code
of rule R281; and a command that ends with `ERR = 1` ends in this way. The rule leaves the scratch state, the latches and the
cursors unspecified; that they are the free values of one draw is the model's choice (log entry 5, DESIGN CHOICE). -/
def Obligations.ErrorTermination : Prop :=
  (∀ (s : State) (e : Err), ∃ t, conclude s (.error e) = .next t ∧
    t.status.err = true ∧ t.status.errcode = (match e with
      | .inputEmpty => 0x10 | .inputLen => 0x11 | .fmtTrunc => 0x20 | .fmtCount => 0x21 | .fmtDup => 0x22
      | .fmtZeroFreq => 0x23 | .fmtOffLeaf => 0x24 | .fmtBadBit => 0x25 | .fmtCode => 0x26 | .ioOvf => 0x30
      | .cmd => 0x40) ∧
    t.status.trail = false ∧ t.status.done = true ∧ t.status.busy = false ∧ t.outLen = 0 ∧
    (∀ a, Memory.read t.outBuf a = none) ∧ t.ph = .idle ∧ t.inBuf = s.inBuf ∧ t.epoch = s.epoch ∧ t.inLen = s.inLen ∧
    t.ie = s.ie ∧ t.cfg = s.cfg ∧ t.seq = Config.freeSeq s.draws ∧ t.huff = Config.freeHuff s.draws ∧
    t.lzw = Config.freeLzw s.draws) ∧
  (∀ (s t : State) (i : Instr), exec i s = .next t → t.status.err = true → ∃ e, conclude s (.error e) = .next t)

/-- Rules R264, R52, R61: the result is a function of the command, `N`, IN[0..N−1] and the capacities: two accepted commands
that agree on these end alike, whatever scratch state, `CTRL`, the rest of IN and the history hold. -/
def Obligations.ResultDependsOnInputsOnly : Prop :=
  ∀ (i : Instr) (s s' t t' : State), s.Accepted → s'.Accepted → s.cfg = s'.cfg → s.seq.n = s'.seq.n →
    (∀ a, a < s.seq.n.toNat → s.inByte a = s'.inByte a) → exec i s = .next t → exec i s' = .next t' →
    t.status = t'.status ∧ t.outLen = t'.outLen ∧ t.outBuf = t'.outBuf

/-- Rule R284: `N > IN_CAP` ends every legal command with `E_INPUT_LEN`, before any other check; so while busy `N ≤ IN_CAP`, or
the command is about to end with `E_CMD` or `E_INPUT_LEN` (rule R54 (g)). -/
def Obligations.InputTooLong : Prop :=
  (∀ (i : Instr) (s : State), s.cfg.inCap.toNat < s.seq.n.toNat → exec i s = .next (errorTerminate .inputLen s)) ∧
  (∀ s : State, s.status.busy = true →
    s.seq.n.toNat ≤ s.cfg.inCap.toNat ∨ blockTurn s = .next (errorTerminate .cmd s) ∨
      blockTurn s = .next (errorTerminate .inputLen s))

/-- Rule R283: `N = 0` ends the encoders with `E_INPUT_EMPTY` and the decoders with `E_FMT_TRUNC`; the decoders never raise
`E_INPUT_EMPTY`. -/
def Obligations.EmptyInput : Prop :=
  (∀ s : State, s.Accepted → s.seq.n = 0 →
    exec .henc s = .next (errorTerminate .inputEmpty s) ∧ exec .lenc s = .next (errorTerminate .inputEmpty s) ∧
    exec .hdec s = .next (errorTerminate .fmtTrunc s) ∧ exec .ldec s = .next (errorTerminate .fmtTrunc s)) ∧
  (∀ (i : Instr) (s t : State), exec i s = .next t → t.status.errcode = 0x10 → s.seq.n = 0 ∧ (i = .henc ∨ i = .lenc))

/-! ## Time (70_reset_and_hazards.md) -/

/-- Rule R340: a busy block ends its command, after finitely many steps. The rule gives no bound. The bound here, one step more
than the agenda has turns, and that the block moves alone on an empty agenda are the model's choice (log entries 6 and 9,
DESIGN CHOICE): whatever finite sequence of transactions the outside still has, as long as each is one the port has, the
block is no longer busy after at most that many steps. -/
def Obligations.BusyBlockCompletes : Prop :=
  ∀ s : State, s.status.busy = true → (∀ x ∈ s.agenda, x.wellFormed = true) →
    ∃ k t, k ≤ s.agenda.length + 1 ∧ Host.Core.run core k s = .next t ∧ t.status.busy = false

/-- Rules R341, R322: only completion or reset ends the busy condition; no host transaction does. -/
def Obligations.OnlyCompletionOrResetEndsBusy : Prop :=
  ∀ s t : State, s.status.busy = true → step s = .next t → t.status.busy = false →
    s.agenda = [] ∨ s.agenda.head? = some .block ∨ s.agenda.head? = some .reset
end

