-- ==== Sys2Proof/Laws/Operands.lean ====
section
/-! SUPPORT. The laws of the byte order, of the tables indexed by byte value and of `ceil8`. -/

namespace Sys2Proof.Machine

@[simp] theorem leBytes_length (n v : Nat) : (leBytes n v).length = n := by
  induction n generalizing v with
  | zero => rfl
  | succ n ih => simp [leBytes, ih]

/-- A field reads back as the value written, when the value fits (rule R62). -/
theorem leValue_leBytes (n v : Nat) (h : v < 256 ^ n) : leValue (leBytes n v) = v := by
  induction n generalizing v with
  | zero => simp at h; simp [leBytes, leValue, h]
  | succ n ih =>
    have hd : v / 256 < 256 ^ n := by
      rw [Nat.div_lt_iff_lt_mul (by norm_num)]
      rw [pow_succ] at h
      exact h
    simp only [leBytes, leValue, ih _ hd, BitVec.toNat_ofNat]
    omega

theorem leValue_lt (bs : List Byte) : leValue bs < 256 ^ bs.length := by
  induction bs with
  | nil => simp [leValue]
  | cons b bs ih =>
    have := b.isLt
    simp only [leValue, List.length_cons, pow_succ]
    omega

@[simp] theorem leBytes_one (b : Byte) : leBytes 1 b.toNat = [b] := by simp [leBytes]

@[simp] theorem entryOf_setEntry_same {α : Type} (t : ByteTable α) (b : Byte) (v : α) :
    entryOf (setEntry t b v) b = v := by simp [entryOf, setEntry]

theorem entryOf_setEntry {α : Type} (t : ByteTable α) (b c : Byte) (v : α) :
    entryOf (setEntry t b v) c = if c = b then v else entryOf t c := by
  simp only [entryOf, setEntry, Vector.getElem_set]
  by_cases h : c = b
  · subst h; simp
  · rw [if_neg h, if_neg fun h' => h (BitVec.eq_of_toNat_eq h'.symm)]

@[simp] theorem entryOf_replicate {α : Type} (v : α) (b : Byte) :
    entryOf (Vector.replicate 256 v) b = v := by simp [entryOf]

theorem mem_allBytes (b : Byte) : b ∈ allBytes := by
  simp only [allBytes, List.mem_map, List.mem_range]
  exact ⟨b.toNat, b.isLt, by simp⟩

theorem allBytes_nodup : allBytes.Nodup := by
  refine List.Nodup.map_on ?_ List.nodup_range
  intro a ha b hb h
  rw [List.mem_range] at ha hb
  have := congrArg BitVec.toNat h
  simp only [BitVec.toNat_ofNat] at this
  omega

@[simp] theorem allBytes_length : allBytes.length = 256 := by simp [allBytes]

theorem ceil8_le_iff (l n : Nat) : ceil8 l ≤ n ↔ l ≤ 8 * n := by unfold ceil8; omega

end Sys2Proof.Machine
end

