-- ==== Sys2Proof/Laws/Bits.lean ====
section
/-! SUPPORT. The bits of packed bytes: which bit of which byte a stream bit is (rule R64), packing byte by byte, and unpacking
what was packed. -/

namespace Sys2Proof.Ref

open Sys2Proof.Machine (ceil8)

/-- Eight stream bits summed into a byte as rule R64 weighs them: byte bit `k` is stream bit `7 − k`. -/
theorem byte_of_bits : ∀ b₀ b₁ b₂ b₃ b₄ b₅ b₆ b₇ : Bool, ∀ k : Fin 8,
    (BitVec.ofNat 8 (List.sum [if b₀ then 2 ^ 7 else 0, if b₁ then 2 ^ 6 else 0, if b₂ then 2 ^ 5 else 0,
      if b₃ then 2 ^ 4 else 0, if b₄ then 2 ^ 3 else 0, if b₅ then 2 ^ 2 else 0, if b₆ then 2 ^ 1 else 0,
      if b₇ then 2 ^ 0 else 0])).getLsbD k = [b₀, b₁, b₂, b₃, b₄, b₅, b₆, b₇].getD (7 - k) false := by
  decide +kernel

/-- Bit `k` of payload byte `i`. -/
theorem payloadByte_bit (bits : Bits) (i k : Nat) (hk : k < 8) :
    (payloadByte bits i).getLsbD k = bits.getD (8 * i + (7 - k)) false := by
  let streamAt := fun j => bits.getD (8 * i + j) false
  have hbyte := byte_of_bits (streamAt 0) (streamAt 1) (streamAt 2) (streamAt 3) (streamAt 4) (streamAt 5) (streamAt 6)
    (streamAt 7) ⟨k, hk⟩
  have hpick : ((List.range 8).map streamAt).getD (7 - k) false = streamAt (7 - k) := by
    rw [List.getD_eq_getElem?_getD, List.getElem?_map, List.getElem?_range (by omega), Option.map_some, Option.getD_some]
  exact Eq.trans hbyte hpick

theorem payloadByte_congr {bits bits' : Bits} {i i' : Nat}
    (h : ∀ j, j < 8 → bits.getD (8 * i + j) false = bits'.getD (8 * i' + j) false) :
    payloadByte bits i = payloadByte bits' i' := by
  refine BitVec.eq_of_getLsbD_eq fun k hk => ?_
  rw [payloadByte_bit _ _ _ hk, payloadByte_bit _ _ _ hk, h _ (by omega)]

/-- The bytes that are full. -/
def fullBytes (bits : Bits) : List Byte := (List.range (bits.length / 8)).map (payloadByte bits)

/-- The bits after the last full byte. -/
def leftover (bits : Bits) : Bits := bits.drop (8 * (bits.length / 8))

theorem leftover_length (bits : Bits) : (leftover bits).length = bits.length % 8 := by
  simp only [leftover, List.length_drop]; omega

theorem fullBytes_short {bits : Bits} (h : bits.length < 8) : fullBytes bits = [] := by
  simp [fullBytes, Nat.div_eq_of_lt h]

theorem leftover_short {bits : Bits} (h : bits.length < 8) : leftover bits = bits := by
  simp [leftover, Nat.div_eq_of_lt h]

/-- A full byte at the front. -/
theorem fullBytes_append {as bs : Bits} (h : as.length = 8) : fullBytes (as ++ bs) = payloadByte as 0 :: fullBytes bs := by
  have hl : (as ++ bs).length / 8 = bs.length / 8 + 1 := by rw [List.length_append, h]; omega
  rw [fullBytes, hl, List.range_succ_eq_map, List.map_cons, List.map_map, fullBytes]
  congr 1
  · refine payloadByte_congr fun j hj => ?_
    simp only [Nat.mul_zero, Nat.zero_add, List.getD_eq_getElem?_getD]
    rw [List.getElem?_append_left (by omega)]
  · refine List.map_congr_left fun i _ => payloadByte_congr fun j _ => ?_
    simp only [List.getD_eq_getElem?_getD]
    rw [List.getElem?_append_right (by omega), h]
    congr 2
    omega

theorem leftover_append {as bs : Bits} (h : as.length = 8) : leftover (as ++ bs) = leftover bs := by
  have hl : 8 * ((as ++ bs).length / 8) = as.length + 8 * (bs.length / 8) := by rw [List.length_append, h]; omega
  rw [leftover, hl, List.drop_append]
  simp [leftover]

/-- The packed bytes: the full ones, and one more when bits are left over. -/
theorem packBits_eq (bits : Bits) :
    packBits bits = fullBytes bits ++ if leftover bits = [] then [] else [payloadByte (leftover bits) 0] := by
  have hlo := leftover_length bits
  by_cases h : leftover bits = []
  · rw [if_pos h, List.append_nil, packBits, fullBytes]
    rw [h, List.length_nil] at hlo
    have : ceil8 bits.length = bits.length / 8 := by unfold ceil8; omega
    rw [this]
  · rw [if_neg h]
    have hpos : 0 < (leftover bits).length := List.length_pos_of_ne_nil h
    have : ceil8 bits.length = bits.length / 8 + 1 := by unfold ceil8; omega
    rw [packBits, this, List.range_succ, List.map_append, fullBytes, List.map_cons, List.map_nil]
    congr 2
    refine payloadByte_congr fun j _ => ?_
    simp only [leftover, List.getD_eq_getElem?_getD, List.getElem?_drop]
    congr 2
    omega

@[simp] theorem packBits_length (bits : Bits) : (packBits bits).length = ceil8 bits.length := by simp [packBits]

theorem packBits_getElem? (bits : Bits) (i : Nat) (h : i < ceil8 bits.length) :
    (packBits bits)[i]? = some (payloadByte bits i) := by
  rw [packBits, List.getElem?_map, List.getElem?_range h]; rfl

@[simp] theorem bitsOf_length (bs : List Byte) : (bitsOf bs).length = 8 * bs.length := by
  induction bs with
  | nil => rfl
  | cons b bs ih => simp only [bitsOf, List.flatMap_cons, List.length_append, List.length_map, List.length_range,
      List.length_cons] at ih ⊢; omega

/-- Bit `k` of a byte string (rule R64). -/
theorem bitsOf_getElem? (bs : List Byte) (k : Nat) :
    (bitsOf bs)[k]? = (bs[k / 8]?).map fun b => b.getLsbD (7 - k % 8) := by
  induction bs generalizing k with
  | nil => simp [bitsOf]
  | cons b bs ih =>
    unfold bitsOf at ih ⊢
    rw [List.flatMap_cons]
    by_cases hk : k < 8
    · rw [List.getElem?_append_left (by simpa using hk), List.getElem?_map, List.getElem?_range hk,
        Nat.div_eq_of_lt hk, Nat.mod_eq_of_lt hk]
      rfl
    · rw [List.getElem?_append_right (by simpa using hk)]
      simp only [List.length_map, List.length_range]
      rw [ih (k - 8), show k / 8 = (k - 8) / 8 + 1 by omega, List.getElem?_cons_succ, show (k - 8) % 8 = k % 8 by omega]

/-- Unpacking what was packed gives the bits back, before the pad bits. -/
theorem take_bitsOf_packBits (bits : Bits) : (bitsOf (packBits bits)).take bits.length = bits := by
  refine List.ext_getElem? fun k => ?_
  rw [List.getElem?_take]
  split_ifs with h
  · have hc : k / 8 < ceil8 bits.length := by unfold ceil8; omega
    rw [bitsOf_getElem?, packBits_getElem? _ _ hc, Option.map_some, payloadByte_bit _ _ _ (by omega)]
    rw [show 8 * (k / 8) + (7 - (7 - k % 8)) = k by omega, List.getD_eq_getElem?_getD, List.getElem?_eq_getElem h]
    rfl
  · rw [List.getElem?_eq_none (by omega)]

end Sys2Proof.Ref
end

