-- ==== Sys2Proof/Laws/Memory.lean ====
section
/-! SUPPORT. The laws of the byte spaces: read after write, canonical form, equality of canonical spaces. -/

namespace Sys2Proof.Machine

@[simp] theorem Memory.read_nil (a : Nat) : Memory.read [] a = none := rfl

theorem Memory.read_write (m : Memory) (a k : Nat) (v : Byte) :
    Memory.read (Memory.write m a v) k = if k = a then some v else Memory.read m k := by
  induction m with
  | nil => simp [Memory.write, Memory.read]
  | cons c m ih =>
    obtain ⟨i, b⟩ := c
    by_cases h₁ : a < i
    · simp only [Memory.write, if_pos h₁, Memory.read]
    · by_cases h₂ : a = i
      · subst h₂
        simp only [Memory.write, if_neg h₁, if_true, Memory.read]
        split_ifs <;> rfl
      · simp only [Memory.write, if_neg h₁, if_neg h₂, Memory.read, ih]
        split_ifs <;> first | rfl | omega

@[simp] theorem Memory.read_write_same (m : Memory) (a : Nat) (v : Byte) :
    Memory.read (Memory.write m a v) a = some v := by simp [Memory.read_write]

theorem Memory.read_write_other (m : Memory) {a k : Nat} (v : Byte) (h : k ≠ a) :
    Memory.read (Memory.write m a v) k = Memory.read m k := by simp [Memory.read_write, h]

/-- Every index listed is at least `a`. -/
def Memory.from (a : Nat) (m : Memory) : Prop := ∀ c ∈ m, a ≤ c.1

theorem Memory.wf_cons {a : Nat} {v : Byte} {m : Memory} :
    Memory.wf ((a, v) :: m) = true ↔ Memory.from (a + 1) m ∧ Memory.wf m = true := by
  induction m generalizing a v with
  | nil => simp [Memory.wf, Memory.from]
  | cons c m ih =>
    obtain ⟨b, y⟩ := c
    simp only [Memory.wf, Bool.and_eq_true, decide_eq_true_eq, ih]
    constructor
    · rintro ⟨h, hf, hw⟩
      refine ⟨?_, hf, hw⟩
      intro c hc
      rcases List.mem_cons.1 hc with rfl | hc
      · exact h
      · have := hf c hc; omega
    · rintro ⟨h, hf, hw⟩
      exact ⟨h _ (List.mem_cons_self ..), hf, hw⟩

theorem Memory.read_eq_none_of_from {m : Memory} {a k : Nat} (h : Memory.from a m) (hk : k < a) :
    Memory.read m k = none := by
  induction m with
  | nil => rfl
  | cons c m ih =>
    obtain ⟨i, b⟩ := c
    have hi : a ≤ i := h (i, b) (List.mem_cons_self ..)
    simp only [Memory.read, if_neg (show k ≠ i by omega)]
    exact ih fun c hc => h c (List.mem_cons_of_mem _ hc)

theorem Memory.from_write {m : Memory} {a k : Nat} {v : Byte} (h : Memory.from a m) (hk : a ≤ k) :
    Memory.from a (Memory.write m k v) := by
  induction m with
  | nil => intro c hc; simp [Memory.write] at hc; subst hc; exact hk
  | cons c m ih =>
    obtain ⟨i, b⟩ := c
    have hi : a ≤ i := h (i, b) (List.mem_cons_self ..)
    have hm : Memory.from a m := fun c hc => h c (List.mem_cons_of_mem _ hc)
    intro c hc
    simp only [Memory.write] at hc
    split_ifs at hc with h₁ h₂
    · rcases List.mem_cons.1 hc with rfl | hc
      · exact hk
      · exact h c hc
    · rcases List.mem_cons.1 hc with rfl | hc
      · exact hk
      · exact hm c hc
    · rcases List.mem_cons.1 hc with rfl | hc
      · exact hi
      · exact ih hm c hc

/-- A write keeps the canonical form. -/
theorem Memory.wf_write {m : Memory} (a : Nat) (v : Byte) (h : Memory.wf m = true) :
    Memory.wf (Memory.write m a v) = true := by
  induction m with
  | nil => rfl
  | cons c m ih =>
    obtain ⟨i, b⟩ := c
    have ⟨hf, hw⟩ := Memory.wf_cons.1 h
    simp only [Memory.write]
    split_ifs with h₁ h₂
    · refine Memory.wf_cons.2 ⟨?_, h⟩
      intro c hc
      rcases List.mem_cons.1 hc with rfl | hc
      · exact h₁
      · have := hf c hc; omega
    · subst h₂; exact Memory.wf_cons.2 ⟨hf, hw⟩
    · exact Memory.wf_cons.2 ⟨Memory.from_write hf (by omega), ih hw⟩

theorem Memory.wf_writeBytes (vs : List Byte) {m : Memory} (a : Nat) (h : Memory.wf m = true) :
    Memory.wf (Memory.writeBytes m a vs) = true := by
  induction vs generalizing m a with
  | nil => exact h
  | cons v vs ih => exact ih _ (Memory.wf_write a v h)

theorem Memory.read_writeBytes (vs : List Byte) (m : Memory) (a k : Nat) :
    Memory.read (Memory.writeBytes m a vs) k =
      if a ≤ k ∧ k < a + vs.length then vs[k - a]? else Memory.read m k := by
  induction vs generalizing m a with
  | nil => simp [Memory.writeBytes]
  | cons v vs ih =>
    simp only [Memory.writeBytes, ih, Memory.read_write, List.length_cons]
    by_cases hk : k = a
    · subst hk; simp
    · by_cases h : a + 1 ≤ k ∧ k < a + 1 + vs.length
      · rw [if_pos h, if_pos (by omega), show k - a = (k - (a + 1)) + 1 by omega, List.getElem?_cons_succ]
      · rw [if_neg h, if_neg hk, if_neg (by omega)]

theorem Memory.writeBytes_append (vs ws : List Byte) (m : Memory) (a : Nat) :
    Memory.writeBytes m a (vs ++ ws) = Memory.writeBytes (Memory.writeBytes m a vs) (a + vs.length) ws := by
  induction vs generalizing m a with
  | nil => rfl
  | cons v vs ih => simp [Memory.writeBytes, ih, Nat.add_assoc, Nat.add_comm]

theorem Memory.from_filter {m : Memory} {a : Nat} (p : Host.Cell → Bool) (h : Memory.from a m) :
    Memory.from a (m.filter p) := fun c hc => h c (List.mem_of_mem_filter hc)

theorem Memory.wf_below (n : Nat) {m : Memory} (h : Memory.wf m = true) : Memory.wf (Memory.below n m) = true := by
  unfold Memory.below
  induction m with
  | nil => rfl
  | cons c m ih =>
    obtain ⟨i, b⟩ := c
    have ⟨hf, hw⟩ := Memory.wf_cons.1 h
    rw [List.filter_cons]
    split_ifs
    · exact Memory.wf_cons.2 ⟨Memory.from_filter _ hf, ih hw⟩
    · exact ih hw

theorem Memory.read_below (n : Nat) (m : Memory) (k : Nat) :
    Memory.read (Memory.below n m) k = if k < n then Memory.read m k else none := by
  unfold Memory.below
  induction m with
  | nil => simp
  | cons c m ih =>
    obtain ⟨i, b⟩ := c
    rw [List.filter_cons]
    split_ifs with h hk hk
    · simp only [Memory.read, ih, if_pos hk]
    · simp only [Memory.read, ih, if_neg hk]
      simp only [decide_eq_true_eq] at h
      rw [if_neg (by omega)]
    · simp only [decide_eq_true_eq] at h
      simp only [Memory.read, ih, if_pos hk]
      rw [if_neg (by omega)]
    · rw [ih, if_neg hk]

/-- A canonical space is determined by what its indices read as. -/
theorem Memory.ext_of_wf {m m' : Memory} (h : Memory.wf m = true) (h' : Memory.wf m' = true)
    (hr : ∀ a, Memory.read m a = Memory.read m' a) : m = m' := by
  induction m generalizing m' with
  | nil =>
    cases m' with
    | nil => rfl
    | cons c m' => obtain ⟨j, y⟩ := c; simpa [Memory.read] using hr j
  | cons c m ih =>
    obtain ⟨i, b⟩ := c
    have ⟨hf, hw⟩ := Memory.wf_cons.1 h
    cases m' with
    | nil => simpa [Memory.read] using hr i
    | cons c m' =>
      obtain ⟨j, y⟩ := c
      have ⟨hf', hw'⟩ := Memory.wf_cons.1 h'
      have hij : i = j := by
        rcases Nat.lt_trichotomy i j with hlt | heq | hgt
        · have := hr i
          simp only [Memory.read, if_pos, if_neg (show i ≠ j by omega),
            Memory.read_eq_none_of_from hf' (show i < j + 1 by omega)] at this
          exact absurd this (by simp)
        · exact heq
        · have := hr j
          simp only [Memory.read, if_pos, if_neg (show j ≠ i by omega),
            Memory.read_eq_none_of_from hf (show j < i + 1 by omega)] at this
          exact absurd this (by simp)
      subst hij
      have hby : b = y := by simpa [Memory.read] using hr i
      subst hby
      rw [ih hw hw' fun a => ?_]
      by_cases ha : a < i + 1
      · rw [Memory.read_eq_none_of_from hf ha, Memory.read_eq_none_of_from hf' ha]
      · have := hr a
        simpa only [Memory.read, if_neg (show a ≠ i by omega)] using this

/-- The bytes of a list, from index 0 up: what OUT holds after a successful command. -/
theorem Memory.read_writeBytes_nil (vs : List Byte) (k : Nat) :
    Memory.read (Memory.writeBytes [] 0 vs) k = vs[k]? := by
  rw [Memory.read_writeBytes]
  split_ifs with h
  · rfl
  · rw [Memory.read_nil, List.getElem?_eq_none (by omega)]

end Sys2Proof.Machine
end

