-- ==== Sys2Proof/Laws/Ops.lean ====
section
/-! SUPPORT. What the shared operations do. The sequential writes of rule R68 compose: writing `as` and then `bs` is writing
`as ++ bs` (`emit_append`), and every writer of a codec is `emit` of its bytes. -/

namespace Sys2Proof.Machine

/-! ## Sequential writes -/

/-- OUT with `bs` written at the write cursor, and the cursor moved on. -/
def appendOut (bs : List Byte) (s : State) : State :=
  { s with
    outBuf := Memory.writeBytes s.outBuf s.seq.wp.toNat bs
    seq.wp := s.seq.wp + BitVec.ofNat 64 bs.length }

/-- The sequential write of a byte string: all of it, or none of it and `E_IO_OVF`. -/
def emit (bs : List Byte) (s : State) : Except Err State :=
  if s.seq.wp.toNat + bs.length > s.cfg.outCap.toNat then .error .ioOvf else .ok (appendOut bs s)

/-- The write cursor is within OUT (rule R38: `WP ≤ OUT_CAP`). -/
def Fits (s : State) : Prop := s.seq.wp.toNat ≤ s.cfg.outCap.toNat

theorem outBytes_eq_emit (n v : Nat) (s : State) : outBytes n v s = emit (leBytes n v) s := by
  simp [outBytes, emit, appendOut, memWrite]

theorem emit_nil {s : State} (h : Fits s) : emit [] s = .ok s := by
  have : ¬ s.seq.wp.toNat + ([] : List Byte).length > s.cfg.outCap.toNat := by simpa [Fits] using h
  rw [emit, if_neg this]
  simp [appendOut, Memory.writeBytes]

theorem wp_appendOut {bs : List Byte} {s : State} (h : s.seq.wp.toNat + bs.length ≤ s.cfg.outCap.toNat) :
    (appendOut bs s).seq.wp.toNat = s.seq.wp.toNat + bs.length := by
  have := s.cfg.outCap.isLt
  simp only [appendOut, BitVec.toNat_add, BitVec.toNat_ofNat, Nat.add_mod_mod]
  exact Nat.mod_eq_of_lt (by omega)

theorem fits_emit {bs : List Byte} {s t : State} (h : emit bs s = .ok t) : Fits t := by
  unfold emit at h
  split_ifs at h with hc
  cases h
  have := wp_appendOut (bs := bs) (s := s) (by omega)
  simp only [Fits, this]
  exact Nat.not_lt.1 hc

/-- Two writes in a row are one write of the concatenation. -/
theorem emit_append (as bs : List Byte) (s : State) :
    (emit as s >>= emit bs) = emit (as ++ bs) s := by
  by_cases ha : s.seq.wp.toNat + as.length > s.cfg.outCap.toNat
  · rw [emit, if_pos ha, emit, if_pos (by rw [List.length_append]; omega)]
    rfl
  · have hw := wp_appendOut (bs := as) (s := s) (by omega)
    rw [emit, if_neg ha]
    change emit bs (appendOut as s) = _
    have hcfg : (appendOut as s).cfg = s.cfg := rfl
    rw [emit, emit, hw, hcfg, List.length_append, Nat.add_assoc]
    split_ifs
    · rfl
    · simp only [appendOut] at hw
      simp only [appendOut, hw, Memory.writeBytes_append, List.length_append, BitVec.ofNat_add, BitVec.add_assoc]

/-- A loop whose every round writes is one write, when a property of the state fixes what each round writes. -/
theorem foldlM_eq_emit {α : Type} {f : State → α → Except Err State} {g : α → List Byte} {P : State → Prop}
    (hP : ∀ s bs, P s → P (appendOut bs s)) (hf : ∀ s a, P s → Fits s → f s a = emit (g a) s) (l : List α) (s : State)
    (h : P s) (hs : Fits s) : l.foldlM f s = emit (l.flatMap g) s := by
  induction l generalizing s with
  | nil => exact (emit_nil hs).symm
  | cons a l ih =>
    rw [List.foldlM_cons, List.flatMap_cons, hf s a h hs, ← emit_append]
    cases he : emit (g a) s with
    | error e => rfl
    | ok t =>
      have ht : P t := by
        unfold emit at he
        split_ifs at he
        cases he
        exact hP s _ h
      exact ih t ht (fits_emit he)

/-! ## Sequential reads -/

@[simp] theorem inSlice_length (s : State) (a n : Nat) : (s.inSlice a n).length = n := by simp [State.inSlice]

@[simp] theorem input_length (s : State) : s.input.length = s.seq.n.toNat := by simp [State.input]

theorem inSlice_getElem? (s : State) (a n k : Nat) : (s.inSlice a n)[k]? = if k < n then some (s.inByte (a + k)) else none := by
  unfold State.inSlice
  split_ifs with h
  · rw [List.getElem?_map, List.getElem?_range h]; rfl
  · rw [List.getElem?_eq_none (by simpa using h)]

/-- Inside the operand, a slice of IN is the slice of the operand. -/
theorem take_drop_input (s : State) {a n : Nat} (h : a + n ≤ s.seq.n.toNat) : (s.input.drop a).take n = s.inSlice a n := by
  refine List.ext_getElem? fun k => ?_
  simp only [List.getElem?_take, List.getElem?_drop, State.input, inSlice_getElem?, Nat.zero_add]
  split_ifs <;> first | rfl | omega

/-- What a sequential read does (rule R66). -/
theorem inBytes_eq (n : Nat) (s : State) :
    inBytes n s =
      if (s.input.drop s.seq.rp.toNat).length < n ∨ s.seq.rp.toNat > s.seq.n.toNat then .error .fmtTrunc
      else .ok (leValue ((s.input.drop s.seq.rp.toNat).take n), { s with seq.rp := s.seq.rp + BitVec.ofNat 64 n }) := by
  unfold inBytes
  by_cases h : s.seq.rp.toNat + n > s.seq.n.toNat
  · rw [if_pos h, if_pos]
    simp only [List.length_drop, input_length]; omega
  · rw [if_neg h, if_neg, take_drop_input s (by omega)]
    · rfl
    · simp only [List.length_drop, input_length]; omega

end Sys2Proof.Machine
end

