-- ==== Sys2Proof/Laws/Outcome.lean ====
section
/-! SUPPORT. How the run of a command and its result in Reference.lean fit together: `conclude_result` turns a run that writes
the right bytes into the completion step that rule R264 describes. -/

namespace Sys2Proof.Machine

/-- The states agree on everything a completion keeps: all but the scratch state, the phase and the outcome registers. -/
structure Vis (s t : State) : Prop where
  cfg : t.cfg = s.cfg
  ie : t.ie = s.ie
  inLen : t.inLen = s.inLen
  inBuf : t.inBuf = s.inBuf
  outBuf : t.outBuf = s.outBuf
  wp : t.seq.wp = s.seq.wp
  n : t.seq.n = s.seq.n
  agenda : t.agenda = s.agenda
  reply : t.reply = s.reply
  epoch : t.epoch = s.epoch
  draws : t.draws = s.draws

theorem Vis.refl (s : State) : Vis s s := ⟨rfl, rfl, rfl, rfl, rfl, rfl, rfl, rfl, rfl, rfl, rfl⟩

theorem Vis.trans {s t u : State} (h : Vis s t) (h' : Vis t u) : Vis s u :=
  ⟨h'.cfg.trans h.cfg, h'.ie.trans h.ie, h'.inLen.trans h.inLen, h'.inBuf.trans h.inBuf, h'.outBuf.trans h.outBuf,
    h'.wp.trans h.wp, h'.n.trans h.n, h'.agenda.trans h.agenda, h'.reply.trans h.reply, h'.epoch.trans h.epoch,
    h'.draws.trans h.draws⟩

theorem Vis.appendOut {s t : State} (h : Vis s t) (bs : List Byte) : Vis (appendOut bs s) (appendOut bs t) :=
  ⟨h.cfg, h.ie, h.inLen, h.inBuf, by simp [Machine.appendOut, h.outBuf, h.wp], by simp [Machine.appendOut, h.wp], h.n,
    h.agenda, h.reply, h.epoch, h.draws⟩

theorem Vis.inByte {s t : State} (h : Vis s t) (a : Nat) : t.inByte a = s.inByte a := by
  simp only [State.inByte, h.inBuf, h.epoch]

theorem Vis.inSlice {s t : State} (h : Vis s t) (a n : Nat) : t.inSlice a n = s.inSlice a n := by
  simp only [State.inSlice, h.inByte]

theorem Vis.input {s t : State} (h : Vis s t) : t.input = s.input := by simp only [State.input, h.inSlice, h.n]

/-- What the completion of a successful run leaves depends on nothing else. -/
theorem succeed_congr {s t : State} (h : Vis s t) (trail : Bool) : succeed trail t = succeed trail s := by
  obtain ⟨h₁, h₂, h₃, h₄, h₅, h₆, -, h₈, h₉, h₁₀, h₁₁⟩ := h
  simp only [succeed, forgetScratch, h₁, h₂, h₃, h₄, h₅, h₆, h₈, h₉, h₁₀, h₁₁]

/-- The run `r`, from the state `s`, does what the pure result says: the same error, or the same bytes written at the write
cursor and nothing else that a completion keeps. -/
def Agrees (s : State) (r : Except Err State) : Except Err (List Byte) → Prop
  | .error e => r = .error e
  | .ok bs => s.seq.wp.toNat + bs.length ≤ s.cfg.outCap.toNat ∧ ∃ t, r = .ok t ∧ Vis (appendOut bs s) t

theorem below_writeBytes (bs : List Byte) :
    Memory.below bs.length (Memory.writeBytes [] 0 bs) = Memory.writeBytes [] 0 bs := by
  refine Memory.ext_of_wf (Memory.wf_below _ (Memory.wf_writeBytes _ _ rfl)) (Memory.wf_writeBytes _ _ rfl) fun a => ?_
  rw [Memory.read_below, Memory.read_writeBytes_nil]
  split_ifs with h
  · rfl
  · rw [List.getElem?_eq_none (by omega)]

/-- A run that wrote `bs` from an accepted state completes as rule R264 says. -/
theorem succeed_eq_complete {s t : State} (h : s.Accepted) {bs : List Byte} (hl : bs.length ≤ s.cfg.outCap.toNat)
    (hv : Vis (appendOut bs s) t) (trail : Bool) : succeed trail t = Ref.complete s (.ok (bs, trail)) := by
  have := s.cfg.outCap.isLt
  have hwp : (appendOut bs s).seq.wp.toNat = bs.length := by
    rw [wp_appendOut (by simpa [h.wp] using hl), h.wp]; simp
  rw [succeed_congr hv]
  simp only [succeed, hwp, Ref.complete]
  have : (appendOut bs s).outBuf = Memory.writeBytes [] 0 bs := by simp [appendOut, h.out, h.wp]
  rw [this, below_writeBytes]
  have hw : (appendOut bs s).seq.wp = BitVec.ofNat 64 bs.length := by simp [appendOut, h.wp]
  rw [hw]
  rfl

/-- The run `r` of the command accepted in `s` gives the pure result: the same error, or the same bytes and `TRAIL`. -/
def Result (s : State) (r : Except Err (State × Bool)) : Ref.Result → Prop
  | .error e => r = .error e
  | .ok (bs, trail) => bs.length ≤ s.cfg.outCap.toNat ∧ ∃ t, r = .ok (t, trail) ∧ Vis (appendOut bs s) t

/-- The completion of an accepted command whose run gives a pure result. -/
theorem conclude_result {s : State} (h : s.Accepted) {r : Except Err (State × Bool)} {p : Ref.Result}
    (hr : Result s r p) : conclude s r = .next (Ref.complete s p) := by
  match p, hr with
  | .error e, hr => rw [show r = .error e from hr]; rfl
  | .ok (bs, trail), ⟨hl, t, ht, hv⟩ =>
    rw [ht]
    simp only [conclude, succeed_eq_complete h hl hv]

/-- A command ends in its completion step: it neither faults nor refuses. -/
theorem exec_next (i : Instr) (s : State) : ∃ t, exec i s = .next t := by
  have h : ∀ r, ∃ t, conclude s r = .next t := fun r => by
    cases r with
    | error e => exact ⟨_, rfl⟩
    | ok p => exact ⟨_, rfl⟩
  cases i <;> exact h _

/-- The checks of dispatch, as Reference.lean makes them. -/
theorem dispatchCheck_eq (encoder : Bool) (s : State) :
    dispatchCheck encoder s =
      if s.seq.n.toNat > s.cfg.inCap.toNat then .error .inputLen
      else if encoder = true ∧ s.seq.n.toNat = 0 then .error .inputEmpty else .ok s := by
  have : s.seq.n = 0#64 ↔ s.seq.n.toNat = 0 := by rw [← BitVec.toNat_inj]; rfl
  simp [dispatchCheck, this]

/-- Writing `as` and going on with a writer of `bs` is a writer of `as ++ bs`. -/
theorem emit_bind {α : Type} {as bs : List Byte} {s : State} {f : State → Except Err α} {g : State → α}
    (h : Fits (appendOut as s) → f (appendOut as s) = (emit bs (appendOut as s)).map g) :
    (emit as s >>= f) = (emit (as ++ bs) s).map g := by
  rw [← emit_append]
  by_cases hc : s.seq.wp.toNat + as.length > s.cfg.outCap.toNat
  · simp only [emit, if_pos hc]; rfl
  · have he : emit as s = .ok (appendOut as s) := by rw [emit, if_neg hc]
    have hf := fits_emit he
    rw [he]
    exact h hf

/-- Changes that touch neither the write cursor nor OUT nor the capacities pass through a write. -/
theorem emit_map {g : State → State} {s : State} (bs : List Byte) (hw : (g s).seq.wp = s.seq.wp) (hc : (g s).cfg = s.cfg)
    (ha : appendOut bs (g s) = g (appendOut bs s)) : emit bs (g s) = (emit bs s).map g := by
  rw [emit, emit, hw, hc, ha]
  split_ifs <;> rfl

theorem emit_ok {bs : List Byte} {s t : State} (h : emit bs s = .ok t) :
    s.seq.wp.toNat + bs.length ≤ s.cfg.outCap.toNat ∧ t = appendOut bs s := by
  unfold emit at h
  split_ifs at h with hc
  cases h
  exact ⟨by omega, rfl⟩

theorem appendOut_appendOut {as : List Byte} {s : State} (h : s.seq.wp.toNat + as.length ≤ s.cfg.outCap.toNat)
    (bs : List Byte) : appendOut bs (appendOut as s) = appendOut (as ++ bs) s := by
  have hw := wp_appendOut h
  unfold appendOut at hw ⊢
  simp only [hw, Memory.writeBytes_append, List.length_append, BitVec.ofNat_add, BitVec.add_assoc]

theorem appendOut_nil (s : State) : appendOut [] s = s := by simp [appendOut, Memory.writeBytes]

theorem Agrees.ok_nil {s : State} (h : Fits s) : Agrees s (.ok s) (.ok []) := by
  refine ⟨?_, s, rfl, ?_⟩
  · simpa [Fits] using h
  · rw [appendOut_nil]; exact Vis.refl s

theorem Agrees.congr {s t : State} (h : Vis s t) {r : Except Err State} {p : Except Err (List Byte)} (ha : Agrees t r p) :
    Agrees s r p := by
  match p, ha with
  | .error e, ha => exact ha
  | .ok bs, ⟨hl, u, hu, hv⟩ =>
    refine ⟨?_, u, hu, (h.appendOut bs).trans hv⟩
    rw [h.wp, h.cfg] at hl
    exact hl

/-- Bytes written before a run that agrees. -/
theorem Agrees.append {s : State} {as : List Byte} (h : s.seq.wp.toNat + as.length ≤ s.cfg.outCap.toNat)
    {r : Except Err State} {p : Except Err (List Byte)} (ha : Agrees (appendOut as s) r p) :
    Agrees s r (p.map (as ++ ·)) := by
  match p, ha with
  | .error e, ha => exact ha
  | .ok bs, ⟨hl, u, hu, hv⟩ =>
    refine ⟨?_, u, hu, ?_⟩
    · have hc : (appendOut as s).cfg = s.cfg := rfl
      rw [wp_appendOut h, hc] at hl
      rw [List.length_append]
      omega
    · rw [← appendOut_appendOut h]; exact hv

/-- The write of one byte, then the rest of a run. -/
theorem agrees_byte {s : State} (b : Byte) {f : State → Except Err State} {p : Nat → Except Err (List Byte)}
    (h : s.seq.wp.toNat + 1 ≤ s.cfg.outCap.toNat →
      Agrees (appendOut [b] s) (f (appendOut [b] s)) (p (s.cfg.outCap.toNat - (s.seq.wp.toNat + 1)))) :
    Agrees s (outBytes 1 b.toNat s >>= f)
      (match s.cfg.outCap.toNat - s.seq.wp.toNat with
        | 0 => .error .ioOvf
        | room + 1 => (p room).map (b :: ·)) := by
  rw [outBytes_eq_emit, leBytes_one]
  by_cases hc : s.seq.wp.toNat + 1 ≤ s.cfg.outCap.toNat
  · have he : emit [b] s = .ok (appendOut [b] s) := by
      rw [emit, if_neg (by simp only [List.length_cons, List.length_nil]; omega)]
    rw [he, show s.cfg.outCap.toNat - s.seq.wp.toNat = (s.cfg.outCap.toNat - (s.seq.wp.toNat + 1)) + 1 by omega]
    exact Agrees.append (as := [b]) hc (h hc)
  · rw [emit, if_pos (by simp only [List.length_cons, List.length_nil]; omega),
      show s.cfg.outCap.toNat - s.seq.wp.toNat = 0 by omega]
    rfl

end Sys2Proof.Machine
end

