-- ==== Sys2Proof/Laws/State.lean ====
section
/-! SUPPORT. What each named update of the state leaves and sets, field by field: later proofs cite these and unfold no record
update. -/

namespace Sys2Proof.Machine

/-! ## `enter` -/

@[simp] theorem enter_cfg (s : State) (p : Phase) : (s.enter p).cfg = s.cfg := by simp only [State.enter]
@[simp] theorem enter_ie (s : State) (p : Phase) : (s.enter p).ie = s.ie := by simp only [State.enter]
@[simp] theorem enter_status (s : State) (p : Phase) : (s.enter p).status = s.status := by simp only [State.enter]
@[simp] theorem enter_inLen (s : State) (p : Phase) : (s.enter p).inLen = s.inLen := by simp only [State.enter]
@[simp] theorem enter_outLen (s : State) (p : Phase) : (s.enter p).outLen = s.outLen := by simp only [State.enter]
@[simp] theorem enter_inBuf (s : State) (p : Phase) : (s.enter p).inBuf = s.inBuf := by simp only [State.enter]
@[simp] theorem enter_outBuf (s : State) (p : Phase) : (s.enter p).outBuf = s.outBuf := by simp only [State.enter]
@[simp] theorem enter_ph (s : State) (p : Phase) : (s.enter p).ph = p := by simp only [State.enter]
@[simp] theorem enter_seq (s : State) (p : Phase) : (s.enter p).seq = s.seq := by simp only [State.enter]
@[simp] theorem enter_huff (s : State) (p : Phase) : (s.enter p).huff = s.huff := by simp only [State.enter]
@[simp] theorem enter_lzw (s : State) (p : Phase) : (s.enter p).lzw = s.lzw := by simp only [State.enter]
@[simp] theorem enter_agenda (s : State) (p : Phase) : (s.enter p).agenda = s.agenda := by simp only [State.enter]
@[simp] theorem enter_reply (s : State) (p : Phase) : (s.enter p).reply = s.reply := by simp only [State.enter]
@[simp] theorem enter_epoch (s : State) (p : Phase) : (s.enter p).epoch = s.epoch := by simp only [State.enter]
@[simp] theorem enter_draws (s : State) (p : Phase) : (s.enter p).draws = s.draws := by simp only [State.enter]

/-! ## `memWrite` -/

@[simp] theorem memWrite_cfg (a n v : Nat) (s : State) : (memWrite a n v s).cfg = s.cfg := by simp only [memWrite]
@[simp] theorem memWrite_ie (a n v : Nat) (s : State) : (memWrite a n v s).ie = s.ie := by simp only [memWrite]
@[simp] theorem memWrite_status (a n v : Nat) (s : State) : (memWrite a n v s).status = s.status := by simp only [memWrite]
@[simp] theorem memWrite_inLen (a n v : Nat) (s : State) : (memWrite a n v s).inLen = s.inLen := by simp only [memWrite]
@[simp] theorem memWrite_outLen (a n v : Nat) (s : State) : (memWrite a n v s).outLen = s.outLen := by simp only [memWrite]
@[simp] theorem memWrite_inBuf (a n v : Nat) (s : State) : (memWrite a n v s).inBuf = s.inBuf := by simp only [memWrite]
@[simp] theorem memWrite_ph (a n v : Nat) (s : State) : (memWrite a n v s).ph = s.ph := by simp only [memWrite]
@[simp] theorem memWrite_seq (a n v : Nat) (s : State) : (memWrite a n v s).seq = s.seq := by simp only [memWrite]
@[simp] theorem memWrite_huff (a n v : Nat) (s : State) : (memWrite a n v s).huff = s.huff := by simp only [memWrite]
@[simp] theorem memWrite_lzw (a n v : Nat) (s : State) : (memWrite a n v s).lzw = s.lzw := by simp only [memWrite]
@[simp] theorem memWrite_agenda (a n v : Nat) (s : State) : (memWrite a n v s).agenda = s.agenda := by simp only [memWrite]
@[simp] theorem memWrite_reply (a n v : Nat) (s : State) : (memWrite a n v s).reply = s.reply := by simp only [memWrite]
@[simp] theorem memWrite_epoch (a n v : Nat) (s : State) : (memWrite a n v s).epoch = s.epoch := by simp only [memWrite]
@[simp] theorem memWrite_draws (a n v : Nat) (s : State) : (memWrite a n v s).draws = s.draws := by simp only [memWrite]

/-! ## `accept` -/

@[simp] theorem accept_seq_cmdl (w : Word32) (s : State) : (accept w s).seq.cmdl = w := by simp only [accept]
@[simp] theorem accept_seq_n (w : Word32) (s : State) : (accept w s).seq.n = s.inLen := by simp only [accept]
@[simp] theorem accept_seq_rp (w : Word32) (s : State) : (accept w s).seq.rp = 0 := by simp only [accept]
@[simp] theorem accept_seq_wp (w : Word32) (s : State) : (accept w s).seq.wp = 0 := by simp only [accept]
@[simp] theorem accept_seq_bp (w : Word32) (s : State) : (accept w s).seq.bp = 0 := by simp only [accept]
@[simp] theorem accept_cfg (w : Word32) (s : State) : (accept w s).cfg = s.cfg := by simp only [accept]
@[simp] theorem accept_ie (w : Word32) (s : State) : (accept w s).ie = s.ie := by simp only [accept]
@[simp] theorem accept_status (w : Word32) (s : State) : (accept w s).status = Status.running := by simp only [accept]
@[simp] theorem accept_inLen (w : Word32) (s : State) : (accept w s).inLen = s.inLen := by simp only [accept]
@[simp] theorem accept_outLen (w : Word32) (s : State) : (accept w s).outLen = 0 := by simp only [accept]
@[simp] theorem accept_inBuf (w : Word32) (s : State) : (accept w s).inBuf = s.inBuf := by simp only [accept]
@[simp] theorem accept_outBuf (w : Word32) (s : State) : (accept w s).outBuf = [] := by simp only [accept]
@[simp] theorem accept_ph (w : Word32) (s : State) : (accept w s).ph = .dispatch := by simp only [accept]
@[simp] theorem accept_huff (w : Word32) (s : State) : (accept w s).huff = s.huff := by simp only [accept]
@[simp] theorem accept_lzw (w : Word32) (s : State) : (accept w s).lzw = s.lzw := by simp only [accept]
@[simp] theorem accept_agenda (w : Word32) (s : State) : (accept w s).agenda = s.agenda := by simp only [accept]
@[simp] theorem accept_reply (w : Word32) (s : State) : (accept w s).reply = s.reply := by simp only [accept]
@[simp] theorem accept_epoch (w : Word32) (s : State) : (accept w s).epoch = s.epoch := by simp only [accept]
@[simp] theorem accept_draws (w : Word32) (s : State) : (accept w s).draws = s.draws := by simp only [accept]

/-! ## `forgetScratch` -/

@[simp] theorem forgetScratch_cfg (s : State) : (forgetScratch s).cfg = s.cfg := by simp only [forgetScratch]
@[simp] theorem forgetScratch_ie (s : State) : (forgetScratch s).ie = s.ie := by simp only [forgetScratch]
@[simp] theorem forgetScratch_status (s : State) : (forgetScratch s).status = s.status := by simp only [forgetScratch]
@[simp] theorem forgetScratch_inLen (s : State) : (forgetScratch s).inLen = s.inLen := by simp only [forgetScratch]
@[simp] theorem forgetScratch_outLen (s : State) : (forgetScratch s).outLen = s.outLen := by simp only [forgetScratch]
@[simp] theorem forgetScratch_inBuf (s : State) : (forgetScratch s).inBuf = s.inBuf := by simp only [forgetScratch]
@[simp] theorem forgetScratch_outBuf (s : State) : (forgetScratch s).outBuf = s.outBuf := by simp only [forgetScratch]
@[simp] theorem forgetScratch_ph (s : State) : (forgetScratch s).ph = s.ph := by simp only [forgetScratch]
@[simp] theorem forgetScratch_seq (s : State) : (forgetScratch s).seq = Config.freeSeq s.draws := by simp only [forgetScratch]
@[simp] theorem forgetScratch_huff (s : State) : (forgetScratch s).huff = Config.freeHuff s.draws := by simp only [forgetScratch]
@[simp] theorem forgetScratch_lzw (s : State) : (forgetScratch s).lzw = Config.freeLzw s.draws := by simp only [forgetScratch]
@[simp] theorem forgetScratch_agenda (s : State) : (forgetScratch s).agenda = s.agenda := by simp only [forgetScratch]
@[simp] theorem forgetScratch_reply (s : State) : (forgetScratch s).reply = s.reply := by simp only [forgetScratch]
@[simp] theorem forgetScratch_epoch (s : State) : (forgetScratch s).epoch = s.epoch := by simp only [forgetScratch]
@[simp] theorem forgetScratch_draws (s : State) : (forgetScratch s).draws = s.draws + 1 := by simp only [forgetScratch]

/-! ## `succeed` -/

@[simp] theorem succeed_cfg (trail : Bool) (s : State) : (succeed trail s).cfg = s.cfg := by simp only [succeed, forgetScratch]
@[simp] theorem succeed_ie (trail : Bool) (s : State) : (succeed trail s).ie = s.ie := by simp only [succeed, forgetScratch]
@[simp] theorem succeed_status (trail : Bool) (s : State) : (succeed trail s).status = .succeeded trail := by simp only [succeed, forgetScratch]
@[simp] theorem succeed_inLen (trail : Bool) (s : State) : (succeed trail s).inLen = s.inLen := by simp only [succeed, forgetScratch]
@[simp] theorem succeed_outLen (trail : Bool) (s : State) : (succeed trail s).outLen = s.seq.wp := by simp only [succeed, forgetScratch]
@[simp] theorem succeed_inBuf (trail : Bool) (s : State) : (succeed trail s).inBuf = s.inBuf := by simp only [succeed, forgetScratch]
@[simp] theorem succeed_outBuf (trail : Bool) (s : State) : (succeed trail s).outBuf = Memory.below s.seq.wp.toNat s.outBuf := by simp only [succeed, forgetScratch]
@[simp] theorem succeed_ph (trail : Bool) (s : State) : (succeed trail s).ph = .idle := by simp only [succeed, forgetScratch]
@[simp] theorem succeed_seq (trail : Bool) (s : State) : (succeed trail s).seq = Config.freeSeq s.draws := by simp only [succeed, forgetScratch]
@[simp] theorem succeed_huff (trail : Bool) (s : State) : (succeed trail s).huff = Config.freeHuff s.draws := by simp only [succeed, forgetScratch]
@[simp] theorem succeed_lzw (trail : Bool) (s : State) : (succeed trail s).lzw = Config.freeLzw s.draws := by simp only [succeed, forgetScratch]
@[simp] theorem succeed_agenda (trail : Bool) (s : State) : (succeed trail s).agenda = s.agenda := by simp only [succeed, forgetScratch]
@[simp] theorem succeed_reply (trail : Bool) (s : State) : (succeed trail s).reply = s.reply := by simp only [succeed, forgetScratch]
@[simp] theorem succeed_epoch (trail : Bool) (s : State) : (succeed trail s).epoch = s.epoch := by simp only [succeed, forgetScratch]
@[simp] theorem succeed_draws (trail : Bool) (s : State) : (succeed trail s).draws = s.draws + 1 := by simp only [succeed, forgetScratch]

/-! ## `errorTerminate` -/

@[simp] theorem errorTerminate_cfg (e : Err) (s : State) : (errorTerminate e s).cfg = s.cfg := by simp only [errorTerminate, forgetScratch]
@[simp] theorem errorTerminate_ie (e : Err) (s : State) : (errorTerminate e s).ie = s.ie := by simp only [errorTerminate, forgetScratch]
@[simp] theorem errorTerminate_status (e : Err) (s : State) : (errorTerminate e s).status = .failed e := by simp only [errorTerminate, forgetScratch]
@[simp] theorem errorTerminate_inLen (e : Err) (s : State) : (errorTerminate e s).inLen = s.inLen := by simp only [errorTerminate, forgetScratch]
@[simp] theorem errorTerminate_outLen (e : Err) (s : State) : (errorTerminate e s).outLen = 0 := by simp only [errorTerminate, forgetScratch]
@[simp] theorem errorTerminate_inBuf (e : Err) (s : State) : (errorTerminate e s).inBuf = s.inBuf := by simp only [errorTerminate, forgetScratch]
@[simp] theorem errorTerminate_outBuf (e : Err) (s : State) : (errorTerminate e s).outBuf = [] := by simp only [errorTerminate, forgetScratch]
@[simp] theorem errorTerminate_ph (e : Err) (s : State) : (errorTerminate e s).ph = .idle := by simp only [errorTerminate, forgetScratch]
@[simp] theorem errorTerminate_seq (e : Err) (s : State) : (errorTerminate e s).seq = Config.freeSeq s.draws := by simp only [errorTerminate, forgetScratch]
@[simp] theorem errorTerminate_huff (e : Err) (s : State) : (errorTerminate e s).huff = Config.freeHuff s.draws := by simp only [errorTerminate, forgetScratch]
@[simp] theorem errorTerminate_lzw (e : Err) (s : State) : (errorTerminate e s).lzw = Config.freeLzw s.draws := by simp only [errorTerminate, forgetScratch]
@[simp] theorem errorTerminate_agenda (e : Err) (s : State) : (errorTerminate e s).agenda = s.agenda := by simp only [errorTerminate, forgetScratch]
@[simp] theorem errorTerminate_reply (e : Err) (s : State) : (errorTerminate e s).reply = s.reply := by simp only [errorTerminate, forgetScratch]
@[simp] theorem errorTerminate_epoch (e : Err) (s : State) : (errorTerminate e s).epoch = s.epoch := by simp only [errorTerminate, forgetScratch]
@[simp] theorem errorTerminate_draws (e : Err) (s : State) : (errorTerminate e s).draws = s.draws + 1 := by simp only [errorTerminate, forgetScratch]

/-! ## `ackDone` -/

@[simp] theorem ackDone_cfg (s : State) : (ackDone s).cfg = s.cfg := by simp only [ackDone]
@[simp] theorem ackDone_ie (s : State) : (ackDone s).ie = s.ie := by simp only [ackDone]
@[simp] theorem ackDone_status (s : State) : (ackDone s).status = s.status.acknowledged := by simp only [ackDone]
@[simp] theorem ackDone_inLen (s : State) : (ackDone s).inLen = s.inLen := by simp only [ackDone]
@[simp] theorem ackDone_outLen (s : State) : (ackDone s).outLen = s.outLen := by simp only [ackDone]
@[simp] theorem ackDone_inBuf (s : State) : (ackDone s).inBuf = s.inBuf := by simp only [ackDone]
@[simp] theorem ackDone_outBuf (s : State) : (ackDone s).outBuf = s.outBuf := by simp only [ackDone]
@[simp] theorem ackDone_ph (s : State) : (ackDone s).ph = s.ph := by simp only [ackDone]
@[simp] theorem ackDone_seq (s : State) : (ackDone s).seq = s.seq := by simp only [ackDone]
@[simp] theorem ackDone_huff (s : State) : (ackDone s).huff = s.huff := by simp only [ackDone]
@[simp] theorem ackDone_lzw (s : State) : (ackDone s).lzw = s.lzw := by simp only [ackDone]
@[simp] theorem ackDone_agenda (s : State) : (ackDone s).agenda = s.agenda := by simp only [ackDone]
@[simp] theorem ackDone_reply (s : State) : (ackDone s).reply = s.reply := by simp only [ackDone]
@[simp] theorem ackDone_epoch (s : State) : (ackDone s).epoch = s.epoch := by simp only [ackDone]
@[simp] theorem ackDone_draws (s : State) : (ackDone s).draws = s.draws := by simp only [ackDone]

/-! ## `resetEvent` -/

@[simp] theorem resetEvent_cfg (s : State) : (resetEvent s).cfg = s.cfg := by simp only [resetEvent, State.afterReset]
@[simp] theorem resetEvent_ie (s : State) : (resetEvent s).ie = false := by simp only [resetEvent, State.afterReset]
@[simp] theorem resetEvent_status (s : State) : (resetEvent s).status = .idle := by simp only [resetEvent, State.afterReset]
@[simp] theorem resetEvent_inLen (s : State) : (resetEvent s).inLen = 0 := by simp only [resetEvent, State.afterReset]
@[simp] theorem resetEvent_outLen (s : State) : (resetEvent s).outLen = 0 := by simp only [resetEvent, State.afterReset]
@[simp] theorem resetEvent_inBuf (s : State) : (resetEvent s).inBuf = [] := by simp only [resetEvent, State.afterReset]
@[simp] theorem resetEvent_outBuf (s : State) : (resetEvent s).outBuf = [] := by simp only [resetEvent, State.afterReset]
@[simp] theorem resetEvent_ph (s : State) : (resetEvent s).ph = .idle := by simp only [resetEvent, State.afterReset]
@[simp] theorem resetEvent_seq (s : State) : (resetEvent s).seq = .reset := by simp only [resetEvent, State.afterReset]
@[simp] theorem resetEvent_huff (s : State) : (resetEvent s).huff = .reset := by simp only [resetEvent, State.afterReset]
@[simp] theorem resetEvent_lzw (s : State) : (resetEvent s).lzw = .reset := by simp only [resetEvent, State.afterReset]
@[simp] theorem resetEvent_agenda (s : State) : (resetEvent s).agenda = s.agenda := by simp only [resetEvent, State.afterReset]
@[simp] theorem resetEvent_reply (s : State) : (resetEvent s).reply = .none := by simp only [resetEvent, State.afterReset]
@[simp] theorem resetEvent_epoch (s : State) : (resetEvent s).epoch = s.epoch + 1 := by simp only [resetEvent, State.afterReset]
@[simp] theorem resetEvent_draws (s : State) : (resetEvent s).draws = s.draws := by simp only [resetEvent, State.afterReset]

/-! ## `freqCount` -/

@[simp] theorem freqCount_cfg (s : State) : (freqCount s).cfg = s.cfg := by simp only [freqCount]
@[simp] theorem freqCount_ie (s : State) : (freqCount s).ie = s.ie := by simp only [freqCount]
@[simp] theorem freqCount_status (s : State) : (freqCount s).status = s.status := by simp only [freqCount]
@[simp] theorem freqCount_inLen (s : State) : (freqCount s).inLen = s.inLen := by simp only [freqCount]
@[simp] theorem freqCount_outLen (s : State) : (freqCount s).outLen = s.outLen := by simp only [freqCount]
@[simp] theorem freqCount_inBuf (s : State) : (freqCount s).inBuf = s.inBuf := by simp only [freqCount]
@[simp] theorem freqCount_outBuf (s : State) : (freqCount s).outBuf = s.outBuf := by simp only [freqCount]
@[simp] theorem freqCount_ph (s : State) : (freqCount s).ph = s.ph := by simp only [freqCount]
@[simp] theorem freqCount_seq (s : State) : (freqCount s).seq = s.seq := by simp only [freqCount]
@[simp] theorem freqCount_lzw (s : State) : (freqCount s).lzw = s.lzw := by simp only [freqCount]
@[simp] theorem freqCount_agenda (s : State) : (freqCount s).agenda = s.agenda := by simp only [freqCount]
@[simp] theorem freqCount_reply (s : State) : (freqCount s).reply = s.reply := by simp only [freqCount]
@[simp] theorem freqCount_epoch (s : State) : (freqCount s).epoch = s.epoch := by simp only [freqCount]
@[simp] theorem freqCount_draws (s : State) : (freqCount s).draws = s.draws := by simp only [freqCount]

/-! ## `buildTree` -/

@[simp] theorem buildTree_cfg (s : State) : (buildTree s).cfg = s.cfg := by simp only [buildTree]
@[simp] theorem buildTree_ie (s : State) : (buildTree s).ie = s.ie := by simp only [buildTree]
@[simp] theorem buildTree_status (s : State) : (buildTree s).status = s.status := by simp only [buildTree]
@[simp] theorem buildTree_inLen (s : State) : (buildTree s).inLen = s.inLen := by simp only [buildTree]
@[simp] theorem buildTree_outLen (s : State) : (buildTree s).outLen = s.outLen := by simp only [buildTree]
@[simp] theorem buildTree_inBuf (s : State) : (buildTree s).inBuf = s.inBuf := by simp only [buildTree]
@[simp] theorem buildTree_outBuf (s : State) : (buildTree s).outBuf = s.outBuf := by simp only [buildTree]
@[simp] theorem buildTree_ph (s : State) : (buildTree s).ph = s.ph := by simp only [buildTree]
@[simp] theorem buildTree_seq (s : State) : (buildTree s).seq = s.seq := by simp only [buildTree]
@[simp] theorem buildTree_lzw (s : State) : (buildTree s).lzw = s.lzw := by simp only [buildTree]
@[simp] theorem buildTree_agenda (s : State) : (buildTree s).agenda = s.agenda := by simp only [buildTree]
@[simp] theorem buildTree_reply (s : State) : (buildTree s).reply = s.reply := by simp only [buildTree]
@[simp] theorem buildTree_epoch (s : State) : (buildTree s).epoch = s.epoch := by simp only [buildTree]
@[simp] theorem buildTree_draws (s : State) : (buildTree s).draws = s.draws := by simp only [buildTree]

/-! ## `codegen` -/

@[simp] theorem codegen_cfg (s : State) : (codegen s).cfg = s.cfg := by simp only [codegen]
@[simp] theorem codegen_ie (s : State) : (codegen s).ie = s.ie := by simp only [codegen]
@[simp] theorem codegen_status (s : State) : (codegen s).status = s.status := by simp only [codegen]
@[simp] theorem codegen_inLen (s : State) : (codegen s).inLen = s.inLen := by simp only [codegen]
@[simp] theorem codegen_outLen (s : State) : (codegen s).outLen = s.outLen := by simp only [codegen]
@[simp] theorem codegen_inBuf (s : State) : (codegen s).inBuf = s.inBuf := by simp only [codegen]
@[simp] theorem codegen_outBuf (s : State) : (codegen s).outBuf = s.outBuf := by simp only [codegen]
@[simp] theorem codegen_ph (s : State) : (codegen s).ph = s.ph := by simp only [codegen]
@[simp] theorem codegen_seq (s : State) : (codegen s).seq = s.seq := by simp only [codegen]
@[simp] theorem codegen_lzw (s : State) : (codegen s).lzw = s.lzw := by simp only [codegen]
@[simp] theorem codegen_agenda (s : State) : (codegen s).agenda = s.agenda := by simp only [codegen]
@[simp] theorem codegen_reply (s : State) : (codegen s).reply = s.reply := by simp only [codegen]
@[simp] theorem codegen_epoch (s : State) : (codegen s).epoch = s.epoch := by simp only [codegen]
@[simp] theorem codegen_draws (s : State) : (codegen s).draws = s.draws := by simp only [codegen]

/-! ## `dictInit` -/

@[simp] theorem dictInit_cfg (s : State) : (dictInit s).cfg = s.cfg := by simp only [dictInit]
@[simp] theorem dictInit_ie (s : State) : (dictInit s).ie = s.ie := by simp only [dictInit]
@[simp] theorem dictInit_status (s : State) : (dictInit s).status = s.status := by simp only [dictInit]
@[simp] theorem dictInit_inLen (s : State) : (dictInit s).inLen = s.inLen := by simp only [dictInit]
@[simp] theorem dictInit_outLen (s : State) : (dictInit s).outLen = s.outLen := by simp only [dictInit]
@[simp] theorem dictInit_inBuf (s : State) : (dictInit s).inBuf = s.inBuf := by simp only [dictInit]
@[simp] theorem dictInit_outBuf (s : State) : (dictInit s).outBuf = s.outBuf := by simp only [dictInit]
@[simp] theorem dictInit_ph (s : State) : (dictInit s).ph = s.ph := by simp only [dictInit]
@[simp] theorem dictInit_seq (s : State) : (dictInit s).seq = s.seq := by simp only [dictInit]
@[simp] theorem dictInit_huff (s : State) : (dictInit s).huff = s.huff := by simp only [dictInit]
@[simp] theorem dictInit_agenda (s : State) : (dictInit s).agenda = s.agenda := by simp only [dictInit]
@[simp] theorem dictInit_reply (s : State) : (dictInit s).reply = s.reply := by simp only [dictInit]
@[simp] theorem dictInit_epoch (s : State) : (dictInit s).epoch = s.epoch := by simp only [dictInit]
@[simp] theorem dictInit_draws (s : State) : (dictInit s).draws = s.draws := by simp only [dictInit]

/-! ## `writeCount` -/

@[simp] theorem writeCount_cfg (s : State) : (writeCount s).cfg = s.cfg := by simp only [writeCount, memWrite]
@[simp] theorem writeCount_ie (s : State) : (writeCount s).ie = s.ie := by simp only [writeCount, memWrite]
@[simp] theorem writeCount_status (s : State) : (writeCount s).status = s.status := by simp only [writeCount, memWrite]
@[simp] theorem writeCount_inLen (s : State) : (writeCount s).inLen = s.inLen := by simp only [writeCount, memWrite]
@[simp] theorem writeCount_outLen (s : State) : (writeCount s).outLen = s.outLen := by simp only [writeCount, memWrite]
@[simp] theorem writeCount_inBuf (s : State) : (writeCount s).inBuf = s.inBuf := by simp only [writeCount, memWrite]
@[simp] theorem writeCount_ph (s : State) : (writeCount s).ph = s.ph := by simp only [writeCount, memWrite]
@[simp] theorem writeCount_seq (s : State) : (writeCount s).seq = s.seq := by simp only [writeCount, memWrite]
@[simp] theorem writeCount_huff (s : State) : (writeCount s).huff = s.huff := by simp only [writeCount, memWrite]
@[simp] theorem writeCount_lzw (s : State) : (writeCount s).lzw = s.lzw := by simp only [writeCount, memWrite]
@[simp] theorem writeCount_agenda (s : State) : (writeCount s).agenda = s.agenda := by simp only [writeCount, memWrite]
@[simp] theorem writeCount_reply (s : State) : (writeCount s).reply = s.reply := by simp only [writeCount, memWrite]
@[simp] theorem writeCount_epoch (s : State) : (writeCount s).epoch = s.epoch := by simp only [writeCount, memWrite]
@[simp] theorem writeCount_draws (s : State) : (writeCount s).draws = s.draws := by simp only [writeCount, memWrite]

/-! ## `dictAdd`: either nothing or the dictionary -/

@[simp] theorem dictAdd_cfg (p : BitVec 12) (b : Byte) (s : State) : (dictAdd p b s).cfg = s.cfg := by
  simp only [dictAdd]; split <;> rfl
@[simp] theorem dictAdd_ie (p : BitVec 12) (b : Byte) (s : State) : (dictAdd p b s).ie = s.ie := by
  simp only [dictAdd]; split <;> rfl
@[simp] theorem dictAdd_status (p : BitVec 12) (b : Byte) (s : State) : (dictAdd p b s).status = s.status := by
  simp only [dictAdd]; split <;> rfl
@[simp] theorem dictAdd_inLen (p : BitVec 12) (b : Byte) (s : State) : (dictAdd p b s).inLen = s.inLen := by
  simp only [dictAdd]; split <;> rfl
@[simp] theorem dictAdd_outLen (p : BitVec 12) (b : Byte) (s : State) : (dictAdd p b s).outLen = s.outLen := by
  simp only [dictAdd]; split <;> rfl
@[simp] theorem dictAdd_inBuf (p : BitVec 12) (b : Byte) (s : State) : (dictAdd p b s).inBuf = s.inBuf := by
  simp only [dictAdd]; split <;> rfl
@[simp] theorem dictAdd_outBuf (p : BitVec 12) (b : Byte) (s : State) : (dictAdd p b s).outBuf = s.outBuf := by
  simp only [dictAdd]; split <;> rfl
@[simp] theorem dictAdd_ph (p : BitVec 12) (b : Byte) (s : State) : (dictAdd p b s).ph = s.ph := by
  simp only [dictAdd]; split <;> rfl
@[simp] theorem dictAdd_seq (p : BitVec 12) (b : Byte) (s : State) : (dictAdd p b s).seq = s.seq := by
  simp only [dictAdd]; split <;> rfl
@[simp] theorem dictAdd_huff (p : BitVec 12) (b : Byte) (s : State) : (dictAdd p b s).huff = s.huff := by
  simp only [dictAdd]; split <;> rfl
@[simp] theorem dictAdd_agenda (p : BitVec 12) (b : Byte) (s : State) : (dictAdd p b s).agenda = s.agenda := by
  simp only [dictAdd]; split <;> rfl
@[simp] theorem dictAdd_reply (p : BitVec 12) (b : Byte) (s : State) : (dictAdd p b s).reply = s.reply := by
  simp only [dictAdd]; split <;> rfl
@[simp] theorem dictAdd_epoch (p : BitVec 12) (b : Byte) (s : State) : (dictAdd p b s).epoch = s.epoch := by
  simp only [dictAdd]; split <;> rfl
@[simp] theorem dictAdd_draws (p : BitVec 12) (b : Byte) (s : State) : (dictAdd p b s).draws = s.draws := by
  simp only [dictAdd]; split <;> rfl

end Sys2Proof.Machine
end

