-- ==== Sys2Proof/Laws/Frame.lean ====
section
/-! SUPPORT. What a run of a command keeps and which errors it can raise, from any state at all (rules R40, R263, R290): one
lemma per phase, one per command. -/

namespace Sys2Proof.Machine

/-- What no phase of a command changes: IN, `IN_LEN`, `CTRL`, the capacities, the latched length and the model's own record of
the outside. -/
structure Kept (s t : State) : Prop where
  cfg : t.cfg = s.cfg
  ie : t.ie = s.ie
  inLen : t.inLen = s.inLen
  inBuf : t.inBuf = s.inBuf
  n : t.seq.n = s.seq.n
  agenda : t.agenda = s.agenda
  reply : t.reply = s.reply
  epoch : t.epoch = s.epoch
  draws : t.draws = s.draws

theorem Kept.refl (s : State) : Kept s s := ⟨rfl, rfl, rfl, rfl, rfl, rfl, rfl, rfl, rfl⟩

theorem Kept.trans {s t u : State} (h : Kept s t) (h' : Kept t u) : Kept s u :=
  ⟨h'.cfg.trans h.cfg, h'.ie.trans h.ie, h'.inLen.trans h.inLen, h'.inBuf.trans h.inBuf, h'.n.trans h.n,
    h'.agenda.trans h.agenda, h'.reply.trans h.reply, h'.epoch.trans h.epoch, h'.draws.trans h.draws⟩

theorem Vis.kept {s t : State} (h : Vis s t) : Kept s t :=
  ⟨h.cfg, h.ie, h.inLen, h.inBuf, h.n, h.agenda, h.reply, h.epoch, h.draws⟩

/-- The run `r` from `s` ends in a state that keeps what `Kept` says, or in one of the errors `E`; `p` says where a result has
its state. -/
structure Runs {α : Type} (E : List Err) (p : α → State) (s : State) (r : Except Err α) : Prop where
  kept : ∀ a, r = .ok a → Kept s (p a)
  err : ∀ e, r = .error e → e ∈ E

variable {E : List Err} {s : State}

theorem Runs.ok {α : Type} {p : α → State} {a : α} (h : Kept s (p a)) : Runs E p s (.ok a) :=
  ⟨fun _ hb => by cases hb; exact h, fun _ he => nomatch he⟩

theorem Runs.error {α : Type} {p : α → State} {e : Err} (h : e ∈ E) : Runs E p s (.error e) :=
  ⟨fun _ hb => (nomatch hb), fun _ he => by cases he; exact h⟩

theorem ok_bind {α β : Type} (a : α) (f : α → Except Err β) : (Except.ok a >>= f) = f a := rfl

theorem Runs.from {α : Type} {p : α → State} {t : State} {r : Except Err α} (h : Kept s t) (hr : Runs E p t r) :
    Runs E p s r :=
  ⟨fun a ha => h.trans (hr.kept a ha), hr.err⟩

theorem Runs.mono {α : Type} {p : α → State} {E' : List Err} {r : Except Err α} (h : Runs E p s r) (hE : E ⊆ E') :
    Runs E' p s r :=
  ⟨h.kept, fun e he => hE (h.err e he)⟩

theorem Runs.bind {α β : Type} {p : α → State} {q : β → State} {r : Except Err α} {f : α → Except Err β}
    (h : Runs E p s r) (hf : ∀ a, Runs E q (p a) (f a)) : Runs E q s (r >>= f) := by
  cases r with
  | error e => exact Runs.error (h.err e rfl)
  | ok a => exact Runs.from (h.kept a rfl) (hf a)

theorem Runs.foldlM {α : Type} {f : State → α → Except Err State} (hf : ∀ s a, Runs E id s (f s a)) (l : List α) (s : State) :
    Runs E id s (l.foldlM f s) := by
  induction l generalizing s with
  | nil => exact Runs.ok (Kept.refl s)
  | cons a l ih =>
    rw [List.foldlM_cons]
    exact Runs.bind (hf s a) fun t => ih t

/-! ## Sequential access -/

theorem runs_outBytes (n v : Nat) (s : State) : Runs [.ioOvf] id s (outBytes n v s) := by
  unfold outBytes
  split_ifs
  · exact Runs.error (List.mem_singleton.2 rfl)
  · exact Runs.ok ⟨rfl, rfl, rfl, rfl, rfl, rfl, rfl, rfl, rfl⟩

theorem runs_inBytes (n : Nat) (s : State) : Runs [.fmtTrunc] Prod.snd s (inBytes n s) := by
  unfold inBytes
  split_ifs
  · exact Runs.error (List.mem_singleton.2 rfl)
  · exact Runs.ok ⟨rfl, rfl, rfl, rfl, rfl, rfl, rfl, rfl, rfl⟩

theorem kept_enter (p : Phase) (s : State) : Kept s (s.enter p) := by constructor <;> simp

theorem dispatchCheck_ok {encoder : Bool} {t : State} (h : dispatchCheck encoder s = .ok t) : t = s := by
  unfold dispatchCheck at h
  split_ifs at h
  exact (Except.ok.inj h).symm

/-! ## `HENC` -/

theorem runs_writeTable (s : State) : Runs [.ioOvf] id s (writeTable s) := by
  refine Runs.bind (runs_outBytes _ _ s) fun _ => Runs.foldlM (fun t b => ?_) _ _
  unfold writeEntry
  split_ifs
  · exact Runs.ok (Kept.refl t)
  · exact Runs.bind (runs_outBytes _ _ t) fun u => runs_outBytes _ _ _

theorem runs_writeBitlen (s : State) : Runs [.ioOvf] id s (writeBitlen s) :=
  Runs.from (t := { s with huff.len := BitVec.ofNat 64 (codedLength s.huff.freq s.huff.code) })
    ⟨rfl, rfl, rfl, rfl, rfl, rfl, rfl, rfl, rfl⟩ (runs_outBytes _ _ _)

theorem runs_putBit (s : State) (x : Bool) : Runs [.ioOvf] id s (putBit s x) := by
  refine Runs.from (t := { s with huff.acc := placeBit s.huff.acc s.huff.nb x, seq.bp := s.seq.bp + 1 })
    ⟨rfl, rfl, rfl, rfl, rfl, rfl, rfl, rfl, rfl⟩ ?_
  unfold putBit
  simp only
  split_ifs
  · exact Runs.bind (runs_outBytes _ _ _) fun _ => Runs.ok ⟨rfl, rfl, rfl, rfl, rfl, rfl, rfl, rfl, rfl⟩
  · exact Runs.ok ⟨rfl, rfl, rfl, rfl, rfl, rfl, rfl, rfl, rfl⟩

theorem runs_pack (s : State) : Runs [.ioOvf] id s (pack s) :=
  Runs.from (t := { s with huff.acc := 0, huff.nb := 0, seq.bp := 0 }) ⟨rfl, rfl, rfl, rfl, rfl, rfl, rfl, rfl, rfl⟩
    (Runs.foldlM (fun t _ => Runs.foldlM runs_putBit _ t) _ _)

theorem runs_flush (s : State) : Runs [.ioOvf] id s (flush s) := by
  unfold flush
  split_ifs
  · exact Runs.ok (Kept.refl s)
  · exact Runs.bind (runs_outBytes _ _ _) fun _ => Runs.ok ⟨rfl, rfl, rfl, rfl, rfl, rfl, rfl, rfl, rfl⟩

/-- `HENC` from any state: the dispatch error, or the frame and no error but `E_IO_OVF`. -/
theorem runs_runHenc (s : State) :
    match dispatchCheck true s with
    | .error e => runHenc s = .error e
    | .ok _ => Runs [.ioOvf] Prod.fst s (runHenc s) := by
  cases h : dispatchCheck true s with
  | error e => simp only [runHenc, h]; rfl
  | ok t =>
    cases dispatchCheck_ok h
    simp only [runHenc, h, ok_bind]
    have hk : Kept s ((codegen ((buildTree ((freqCount (s.enter .hFreq)).enter .hTree)).enter .hCode)).enter .hHdr) := by
      constructor <;> simp
    refine Runs.from hk (Runs.bind (p := id) (runs_writeTable _) fun t => ?_)
    refine Runs.bind (p := id) (runs_writeBitlen t) fun u => ?_
    refine Runs.bind (p := id) (Runs.from (kept_enter .hPack u) (runs_pack _)) fun v => ?_
    exact Runs.bind (p := id) (runs_flush v) fun w => Runs.ok (Kept.refl w)

/-! ## `HDEC` -/

theorem runs_readCount (s : State) : Runs [.fmtTrunc, .fmtCount] id s (readCount s) := by
  refine Runs.bind ((runs_inBytes 8 s).mono (by simp)) fun p => ?_
  simp only
  split_ifs
  · exact Runs.error (by simp)
  · exact Runs.ok ⟨rfl, rfl, rfl, rfl, rfl, rfl, rfl, rfl, rfl⟩

theorem runs_readEntry (s : State) : Runs [.fmtTrunc, .fmtZeroFreq, .fmtDup] id s (readEntry s) := by
  unfold readEntry
  split_ifs
  · exact Runs.error (by simp)
  · refine Runs.bind ((runs_inBytes 1 s).mono (by simp)) fun p => ?_
    refine Runs.bind ((runs_inBytes 4 p.2).mono (by simp)) fun q => ?_
    simp only
    split_ifs
    · exact Runs.error (by simp)
    · exact Runs.error (by simp)
    · exact Runs.ok ⟨rfl, rfl, rfl, rfl, rfl, rfl, rfl, rfl, rfl⟩

theorem runs_readEntries (k : Nat) (s : State) : Runs [.fmtTrunc, .fmtZeroFreq, .fmtDup] id s (readEntries k s) := by
  induction k generalizing s with
  | zero => exact Runs.ok (Kept.refl s)
  | succ k ih => exact Runs.bind (runs_readEntry s) fun t => ih t

theorem runs_readTable (s : State) : Runs [.fmtTrunc, .fmtZeroFreq, .fmtDup] id s (readTable s) :=
  Runs.from (t := { s with huff.freq := Vector.replicate 256 0 }) ⟨rfl, rfl, rfl, rfl, rfl, rfl, rfl, rfl, rfl⟩
    (Runs.bind (runs_readEntries _ _) fun _ => Runs.ok ⟨rfl, rfl, rfl, rfl, rfl, rfl, rfl, rfl, rfl⟩)

theorem runs_readBitlen (s : State) : Runs [.fmtTrunc] id s (readBitlen s) :=
  Runs.bind (runs_inBytes 8 s) fun _ => Runs.ok ⟨rfl, rfl, rfl, rfl, rfl, rfl, rfl, rfl, rfl⟩

theorem runs_checkPayload (s : State) : Runs [.fmtTrunc] id s (checkPayload s) := by
  unfold checkPayload
  split_ifs
  · exact Runs.error (List.mem_singleton.2 rfl)
  · exact Runs.ok (Kept.refl s)

theorem runs_walkTree (pb k : Nat) (s : State) : Runs [.ioOvf, .fmtOffLeaf] id s (walkTree pb k s) := by
  induction k generalizing s with
  | zero =>
    unfold walkTree
    split_ifs
    · exact Runs.error (by simp)
    · exact Runs.ok (Kept.refl s)
  | succ k ih =>
    unfold walkTree
    simp only
    split
    · refine Runs.from ?_ (Runs.bind ((runs_outBytes _ _ _).mono (by simp)) fun t => Runs.from ?_ (ih _))
      · exact ⟨rfl, rfl, rfl, rfl, rfl, rfl, rfl, rfl, rfl⟩
      · exact ⟨rfl, rfl, rfl, rfl, rfl, rfl, rfl, rfl, rfl⟩
    · refine Runs.from ?_ (ih _)
      exact ⟨rfl, rfl, rfl, rfl, rfl, rfl, rfl, rfl, rfl⟩

theorem runs_walkLeaf (pb : Nat) (b : Byte) (k : Nat) (s : State) : Runs [.ioOvf, .fmtBadBit] id s (walkLeaf pb b k s) := by
  induction k generalizing s with
  | zero => exact Runs.ok (Kept.refl s)
  | succ k ih =>
    unfold walkLeaf
    simp only
    split_ifs
    · exact Runs.error (by simp)
    · refine Runs.from ?_ (Runs.bind ((runs_outBytes _ _ _).mono (by simp)) fun t => ih t)
      exact ⟨rfl, rfl, rfl, rfl, rfl, rfl, rfl, rfl, rfl⟩

theorem runs_walk (pb : Nat) (s : State) : Runs [.ioOvf, .fmtOffLeaf, .fmtBadBit] id s (walk pb s) := by
  unfold walk
  split
  · refine Runs.from ?_ (Runs.mono (runs_walkLeaf _ _ _ _) ?_)
    · exact ⟨rfl, rfl, rfl, rfl, rfl, rfl, rfl, rfl, rfl⟩
    · simp
  · refine Runs.from ?_ (Runs.mono (runs_walkTree _ _ _) ?_)
    · exact ⟨rfl, rfl, rfl, rfl, rfl, rfl, rfl, rfl, rfl⟩
    · simp

/-- `HDEC` from any state: the dispatch error, or the frame and the errors of its row. -/
theorem runs_runHdec (s : State) :
    match dispatchCheck false s with
    | .error e => runHdec s = .error e
    | .ok _ => Runs [.fmtTrunc, .fmtCount, .fmtZeroFreq, .fmtDup, .ioOvf, .fmtOffLeaf, .fmtBadBit] Prod.fst s (runHdec s) := by
  cases h : dispatchCheck false s with
  | error e => simp only [runHdec, h]; rfl
  | ok t =>
    cases dispatchCheck_ok h
    simp only [runHdec, h, ok_bind]
    refine Runs.from (kept_enter .dHdr s) (Runs.bind (p := id) (Runs.mono (runs_readCount _) ?_) fun t => ?_)
    · simp
    refine Runs.bind (p := id) ((runs_readTable t).mono (by simp)) fun u => ?_
    refine Runs.bind (p := id) ((runs_readBitlen u).mono (by simp)) fun v => ?_
    refine Runs.bind (p := id) ((runs_checkPayload v).mono (by simp)) fun w => ?_
    have hk : Kept w ((buildTree (w.enter .dTree)).enter .dWalk) := by constructor <;> simp
    refine Runs.from hk (Runs.bind (p := id) (Runs.mono (runs_walk _ _) ?_) fun x => Runs.ok (Kept.refl x))
    simp

/-! ## `LENC` -/

theorem runs_emitCode (c : BitVec 12) (s : State) : Runs [.ioOvf] id s (emitCode c s) :=
  Runs.bind (runs_outBytes _ _ s) fun _ => Runs.ok ⟨rfl, rfl, rfl, rfl, rfl, rfl, rfl, rfl, rfl⟩

theorem kept_dictAdd (p : BitVec 12) (b : Byte) (s : State) : Kept s (dictAdd p b s) := by constructor <;> simp

theorem runs_scanByte (s : State) (b : Byte) : Runs [.ioOvf] id s (scanByte s b) := by
  unfold scanByte
  split
  · exact Runs.ok ⟨rfl, rfl, rfl, rfl, rfl, rfl, rfl, rfl, rfl⟩
  · refine Runs.bind (runs_emitCode _ _) fun t => Runs.from (kept_dictAdd s.lzw.cur b t) (Runs.ok ?_)
    exact ⟨rfl, rfl, rfl, rfl, rfl, rfl, rfl, rfl, rfl⟩

theorem runs_lzwStart (s : State) : Runs [.ioOvf] id s (lzwStart s) := by
  unfold lzwStart
  simp only
  split_ifs
  · exact Runs.error (List.mem_singleton.2 rfl)
  · exact Runs.ok ⟨rfl, rfl, rfl, rfl, rfl, rfl, rfl, rfl, rfl⟩

theorem runs_lzwScan (s : State) : Runs [.ioOvf] id s (lzwScan s) := by
  rw [lzwScan]
  exact Runs.foldlM runs_scanByte _ s

theorem kept_writeCount (s : State) : Kept s (writeCount s) := by constructor <;> simp [writeCount]

/-- `LENC` from any state: the dispatch error, or the frame and no error but `E_IO_OVF`. -/
theorem runs_runLenc (s : State) :
    match dispatchCheck true s with
    | .error e => runLenc s = .error e
    | .ok _ => Runs [.ioOvf] Prod.fst s (runLenc s) := by
  cases h : dispatchCheck true s with
  | error e => simp only [runLenc, h]; rfl
  | ok t =>
    cases dispatchCheck_ok h
    simp only [runLenc, h, ok_bind]
    have hk : Kept s (dictInit (s.enter .lInit)) := by constructor <;> simp
    refine Runs.from hk (Runs.bind (p := id) (runs_lzwStart _) fun t => ?_)
    refine Runs.bind (p := id) (Runs.from (kept_enter .lScan t) (runs_lzwScan _)) fun u => ?_
    refine Runs.bind (p := id) (Runs.from (kept_enter .lFin u) (runs_emitCode _ _)) fun v => Runs.ok ?_
    exact kept_writeCount v

/-! ## `LDEC` -/

theorem runs_readCcount (s : State) : Runs [.fmtTrunc] id s (readCcount s) :=
  Runs.bind (runs_inBytes 8 s) fun _ => Runs.ok ⟨rfl, rfl, rfl, rfl, rfl, rfl, rfl, rfl, rfl⟩

theorem runs_readCode (s : State) : Runs [.fmtTrunc] id s (readCode s) :=
  Runs.bind (runs_inBytes 4 s) fun _ => Runs.ok ⟨rfl, rfl, rfl, rfl, rfl, rfl, rfl, rfl, rfl⟩

theorem runs_firstCode (s : State) : Runs [.fmtCode, .ioOvf] id s (firstCode s) := by
  unfold firstCode
  simp only
  split_ifs
  · exact Runs.error (by simp)
  · refine Runs.bind (p := id) ((runs_outBytes _ _ s).mono (by simp)) fun _ => Runs.ok ?_
    exact ⟨rfl, rfl, rfl, rfl, rfl, rfl, rfl, rfl, rfl⟩

theorem runs_classifyCode (s : State) : Runs [.fmtCode] (fun _ => s) s (classifyCode s) := by
  unfold classifyCode
  simp only
  split_ifs
  · exact Runs.ok (Kept.refl s)
  · exact Runs.ok (Kept.refl s)
  · exact Runs.error (by simp)

theorem runs_emitString (bs : List Byte) (s : State) : Runs [.ioOvf] id s (emitString bs s) := by
  unfold emitString
  split_ifs
  · exact Runs.error (List.mem_singleton.2 rfl)
  · exact Runs.foldlM (fun t b => runs_outBytes _ _ t) _ _

theorem runs_nextCode (s : State) : Runs [.fmtCode, .ioOvf] id s (nextCode s) := by
  refine Runs.bind (p := fun _ => s) ((runs_classifyCode s).mono (by simp)) fun cur => ?_
  refine Runs.bind (p := id) ((runs_emitString cur s).mono (by simp)) fun u => Runs.ok ?_
  exact (kept_dictAdd u.lzw.prev (cur.headD 0) u).trans ⟨rfl, rfl, rfl, rfl, rfl, rfl, rfl, rfl, rfl⟩

theorem runs_decodeOne (s : State) : Runs [.fmtTrunc, .fmtCode, .ioOvf] id s (decodeOne s) := by
  refine Runs.bind (p := id) ((runs_readCode s).mono (by simp)) fun t => ?_
  simp only [id]
  split_ifs
  · refine Runs.bind (p := id) ((runs_firstCode t).mono (by simp)) fun u => Runs.ok ?_
    exact ⟨rfl, rfl, rfl, rfl, rfl, rfl, rfl, rfl, rfl⟩
  · refine Runs.bind (p := id) ((runs_nextCode t).mono (by simp)) fun u => Runs.ok ?_
    exact ⟨rfl, rfl, rfl, rfl, rfl, rfl, rfl, rfl, rfl⟩

theorem runs_decodeCodes (k : Nat) (s : State) : Runs [.fmtTrunc, .fmtCode, .ioOvf] id s (decodeCodes k s) := by
  induction k generalizing s with
  | zero => exact Runs.ok (Kept.refl s)
  | succ k ih => exact Runs.bind (runs_decodeOne s) fun t => ih t

/-- `LDEC` from any state: the dispatch error, or the frame and the errors of its row. -/
theorem runs_runLdec (s : State) :
    match dispatchCheck false s with
    | .error e => runLdec s = .error e
    | .ok _ => Runs [.fmtTrunc, .fmtCode, .ioOvf] Prod.fst s (runLdec s) := by
  cases h : dispatchCheck false s with
  | error e => simp only [runLdec, h]; rfl
  | ok t =>
    cases dispatchCheck_ok h
    simp only [runLdec, h, ok_bind]
    refine Runs.from (kept_enter .zHdr s) (Runs.bind (p := id) (Runs.mono (runs_readCcount _) ?_) fun t => ?_)
    · simp
    have hk : Kept t { (dictInit (t.enter .zInit)).enter .zCodes with lzw.cidx := 0 } := by constructor <;> simp
    refine Runs.from hk (Runs.bind (p := id) (runs_decodeCodes _ _) fun u => Runs.ok ?_)
    exact kept_enter .zFin u

end Sys2Proof.Machine
end

