-- ==== Sys2Proof/Laws/RefTree.lean ====
section
/-! SUPPORT. The trees of Reference.lean: what popping and combining keep, and the codes of a tree. -/

namespace Sys2Proof.Ref

open Sys2Proof.Machine (allBytes mem_allBytes allBytes_nodup allBytes_length)

/-- The leaves' bytes, left to right. -/
def Tree.bytes : Tree → List Byte
  | .leaf b => [b]
  | .node l r => l.bytes ++ r.bytes

/-- The bytes of all queued trees. -/
def queueBytes (q : List Item) : List Byte := q.flatMap fun i => i.tree.bytes

/-- The weight of all queued trees. -/
def queueWeight (q : List Item) : Nat := (q.map (·.w)).sum

theorem pop_isSome {q : List Item} (h : q ≠ []) : ∃ x xs, pop q = some (x, xs) := by
  cases q with
  | nil => exact absurd rfl h
  | cons y ys =>
    simp only [pop]
    cases pop ys with
    | none => exact ⟨_, _, rfl⟩
    | some p =>
      obtain ⟨z, zs⟩ := p
      by_cases hz : y.w ≤ z.w
      · exact ⟨_, _, if_pos hz⟩
      · exact ⟨_, _, if_neg hz⟩

/-- Popping takes one item out of the queue. -/
theorem pop_perm {q xs : List Item} {x : Item} (h : pop q = some (x, xs)) : q.Perm (x :: xs) := by
  induction q generalizing x xs with
  | nil => simp [pop] at h
  | cons y ys ih =>
    simp only [pop] at h
    cases hp : pop ys with
    | none =>
      rw [hp] at h
      have : ys = [] := by
        by_contra hne
        obtain ⟨a, b, hab⟩ := pop_isSome hne
        rw [hp] at hab
        cases hab
      subst this
      simp only [Option.some.injEq, Prod.mk.injEq] at h
      obtain ⟨rfl, rfl⟩ := h
      exact List.Perm.refl _
    | some p =>
      obtain ⟨z, zs⟩ := p
      rw [hp] at h
      simp only at h
      split_ifs at h
      · simp only [Option.some.injEq, Prod.mk.injEq] at h
        obtain ⟨rfl, rfl⟩ := h
        exact List.Perm.refl _
      · simp only [Option.some.injEq, Prod.mk.injEq] at h
        obtain ⟨rfl, rfl⟩ := h
        exact ((ih hp).cons y).trans (List.Perm.swap _ _ _)

theorem pop_length {q xs : List Item} {x : Item} (h : pop q = some (x, xs)) : q.length = xs.length + 1 :=
  (pop_perm h).length_eq

/-- One round of combining keeps the bytes and the weight of the queue. -/
theorem combine_bytes {q q₁ q₂ : List Item} {a b : Item} (ha : pop q = some (a, q₁)) (hb : pop q₁ = some (b, q₂)) :
    (queueBytes (q₂ ++ [a.join b])).Perm (queueBytes q) := by
  have h₁ := (pop_perm ha).trans ((pop_perm hb).cons a)
  have h₂ : (queueBytes q).Perm (queueBytes (a :: b :: q₂)) := h₁.flatMap_right _
  refine List.Perm.trans ?_ h₂.symm
  simp only [queueBytes, Item.join, List.flatMap_append, List.flatMap_cons, List.flatMap_nil, Tree.bytes, List.append_nil,
    ← List.append_assoc]
  rw [List.append_assoc]
  exact List.perm_append_comm

theorem combine_weight {q q₁ q₂ : List Item} {a b : Item} (ha : pop q = some (a, q₁)) (hb : pop q₁ = some (b, q₂)) :
    queueWeight (q₂ ++ [a.join b]) = queueWeight q := by
  have h₁ := (pop_perm ha).trans ((pop_perm hb).cons a)
  have h₂ := (h₁.map (·.w)).sum_eq
  simp only [queueWeight, h₂, Item.join, List.map_append, List.map_cons, List.map_nil, List.sum_append, List.sum_cons, List.sum_nil]
  omega

/-- A tree is built from every non-empty queue, and its leaves are those of the queue. -/
theorem build_spec (k : Nat) (q : List Item) (hq : q ≠ []) (hk : q.length ≤ k + 1) :
    ∃ t, build k q = some t ∧ t.bytes.Perm (queueBytes q) := by
  induction k generalizing q with
  | zero =>
    obtain ⟨x, rfl⟩ : ∃ x, q = [x] := List.length_eq_one_iff.1 (by
      have := List.length_pos_of_ne_nil hq; omega)
    exact ⟨x.tree, rfl, by simp [queueBytes]⟩
  | succ k ih =>
    obtain ⟨a, q₁, ha⟩ := pop_isSome hq
    have hl := pop_length ha
    simp only [build, ha]
    by_cases h₁ : q₁ = []
    · subst h₁
      refine ⟨a.tree, rfl, ?_⟩
      have := (pop_perm ha).flatMap_right (fun i => i.tree.bytes)
      simpa [queueBytes] using this.symm
    · obtain ⟨b, q₂, hb⟩ := pop_isSome h₁
      have hl₂ := pop_length hb
      simp only [hb]
      obtain ⟨t, ht, hp⟩ := ih (q₂ ++ [a.join b]) (by simp)
        (by simp only [List.length_append, List.length_cons, List.length_nil]; omega)
      exact ⟨t, ht, hp.trans (combine_bytes ha hb)⟩

/-- Once there are enough rounds, their number does not matter. -/
theorem build_fuel (k k' : Nat) (q : List Item) (hk : q.length ≤ k + 1) (hk' : q.length ≤ k' + 1) :
    build k q = build k' q := by
  induction k generalizing q k' with
  | zero =>
    cases k' with
    | zero => rfl
    | succ k' =>
      match q, hk with
      | [], _ => rfl
      | [x], _ => rfl
  | succ k ih =>
    cases k' with
    | zero =>
      match q, hk' with
      | [], _ => rfl
      | [x], _ => rfl
    | succ k' =>
      simp only [build]
      cases ha : pop q with
      | none => rfl
      | some p =>
        obtain ⟨a, q₁⟩ := p
        have hl := pop_length ha
        simp only
        cases hb : pop q₁ with
        | none => rfl
        | some p =>
          obtain ⟨b, q₂⟩ := p
          have hl₂ := pop_length hb
          exact ih _ _ (by simp only [List.length_append, List.length_cons, List.length_nil]; omega)
            (by simp only [List.length_append, List.length_cons, List.length_nil]; omega)

/-! ## The tree of a mapping -/

theorem queueBytes_leafQueue (f : Byte → Nat) : queueBytes (leafQueue f) = allBytes.filter fun b => f b ≠ 0 := by
  unfold queueBytes leafQueue
  induction allBytes with
  | nil => rfl
  | cons b bs ih =>
    by_cases h : f b = 0
    · simp [leafItem, h, ih]
    · simp only [List.filterMap_cons, leafItem, h, if_false, List.flatMap_cons, Tree.bytes, List.singleton_append]
      rw [ih]
      simp [h]

theorem leafQueue_length_le (f : Byte → Nat) : (leafQueue f).length ≤ 256 := by
  have := List.length_filterMap_le (leafItem f) allBytes
  simpa [leafQueue] using this

theorem leafQueue_eq_nil {f : Byte → Nat} : leafQueue f = [] ↔ ∀ b, f b = 0 := by
  unfold leafQueue
  rw [List.filterMap_eq_nil_iff]
  constructor
  · intro h b
    have := h b (mem_allBytes b)
    by_contra hb
    simp [leafItem, hb] at this
  · intro h b _
    simp [leafItem, h b]

/-- The leaves of the tree of a mapping are the bytes that occur, each once. -/
theorem treeOf_spec {f : Byte → Nat} (h : ∃ b, f b ≠ 0) :
    ∃ t, treeOf f = some t ∧ t.bytes.Nodup ∧ ∀ b, b ∈ t.bytes ↔ f b ≠ 0 := by
  have hq : leafQueue f ≠ [] := by
    intro hn
    obtain ⟨b, hb⟩ := h
    exact hb (leafQueue_eq_nil.1 hn b)
  obtain ⟨t, ht, hp⟩ := build_spec 256 (leafQueue f) hq (by have := leafQueue_length_le f; omega)
  rw [queueBytes_leafQueue] at hp
  refine ⟨t, ht, hp.nodup_iff.2 (allBytes_nodup.filter _), fun b => ?_⟩
  rw [hp.mem_iff]
  simp [mem_allBytes]

theorem treeOf_eq_none {f : Byte → Nat} (h : ∀ b, f b = 0) : treeOf f = none := by
  rw [treeOf, leafQueue_eq_nil.2 h]
  rfl

/-! ## Paths and codes -/

theorem paths_bytes (t : Tree) : (paths t).map (·.1) = t.bytes := by
  induction t with
  | leaf b => rfl
  | node l r ihl ihr => simp [paths, Tree.bytes, ← ihl, ← ihr, Function.comp_def]

theorem codes_bytes (t : Tree) : (codes t).map (·.1) = t.bytes := by
  cases t with
  | leaf b => rfl
  | node l r => exact paths_bytes _

theorem mem_lookup {l : List (Byte × Bits)} (hn : (l.map (·.1)).Nodup) {b : Byte} {c : Bits} (h : (b, c) ∈ l) :
    l.lookup b = some c := by
  obtain ⟨front, back, rfl⟩ := List.append_of_mem h
  refine List.lookup_eq_some_iff.2 ⟨front, back, rfl, fun p hp => ?_⟩
  rw [List.map_append, List.map_cons, List.nodup_append] at hn
  simpa using (hn.2.2 p.1 (List.mem_map_of_mem hp) b (by simp)).symm

theorem lookup_mem {l : List (Byte × Bits)} {b : Byte} {c : Bits} (h : l.lookup b = some c) : (b, c) ∈ l := by
  obtain ⟨front, back, rfl, -⟩ := List.lookup_eq_some_iff.1 h
  simp

/-- A byte of the tree has the code the list of codes gives it. -/
theorem codeOf_mem {t : Tree} (hn : t.bytes.Nodup) {b : Byte} (hb : b ∈ t.bytes) : (b, codeOf (some t) b) ∈ codes t := by
  have hb' := hb
  rw [← codes_bytes, List.mem_map] at hb'
  obtain ⟨⟨b', c⟩, hm, rfl⟩ := hb'
  have := mem_lookup (by rw [codes_bytes]; exact hn) hm
  simp [codeOf, this, hm]

/-- No path to a leaf runs through another leaf: the paths are prefix-free (rule R140). -/
theorem paths_prefix_free (t : Tree) : (paths t).Pairwise fun p q => ¬ p.2 <+: q.2 ∧ ¬ q.2 <+: p.2 := by
  induction t with
  | leaf b => exact List.pairwise_singleton _ _
  | node l r ihl ihr =>
    simp only [paths]
    rw [List.pairwise_append]
    refine ⟨?_, ?_, ?_⟩
    · rw [List.pairwise_map]
      exact ihl.imp fun h => by simpa using h
    · rw [List.pairwise_map]
      exact ihr.imp fun h => by simpa using h
    · intro p hp q hq
      simp only [List.mem_map] at hp hq
      obtain ⟨p', -, rfl⟩ := hp
      obtain ⟨q', -, rfl⟩ := hq
      simp

theorem Tree.bytes_length_pos (t : Tree) : 0 < t.bytes.length := by
  induction t with
  | leaf b => simp [Tree.bytes]
  | node l r ihl _ => simp only [Tree.bytes, List.length_append]; omega

/-- A path is no longer than the number of other leaves (rule R141). -/
theorem paths_length_lt (t : Tree) : ∀ p ∈ paths t, p.2.length < t.bytes.length := by
  induction t with
  | leaf b => simp [paths, Tree.bytes]
  | node l r ihl ihr =>
    have hl := Tree.bytes_length_pos l
    have hr := Tree.bytes_length_pos r
    intro p hp
    simp only [paths, List.mem_append, List.mem_map, Tree.bytes, List.length_append] at hp ⊢
    rcases hp with ⟨q, hq, rfl⟩ | ⟨q, hq, rfl⟩
    · have := ihl q hq; simp only [List.length_cons]; omega
    · have := ihr q hq; simp only [List.length_cons]; omega

end Sys2Proof.Ref
end

