-- ==== Sys2Proof/Laws/HuffTree.lean ====
section
/-! SUPPORT. The arena of the tree builder and the trees of Reference.lean are the same trees: `buildArena_spec` and
`codeTable_spec` say of the machine's builder and code generator everything the codecs use. -/

namespace Sys2Proof.Machine

open Sys2Proof.Ref (Tree Item)

/-! ## The queue of an arena -/

/-- The queued indices with their weights, in index order; `i` is the index of the list's first node. -/
def queued : Nat → List Node → List (Nat × BitVec 40)
  | _, [] => []
  | i, n :: ns => if n.inq then (i, n.w) :: queued (i + 1) ns else queued (i + 1) ns

/-- `Ref.pop` for any kind of item. -/
def popBy {α : Type} (w : α → Nat) : List α → Option (α × List α)
  | [] => none
  | x :: xs =>
    match popBy w xs with
    | none => some (x, [])
    | some (y, ys) => if w x ≤ w y then some (x, xs) else some (y, x :: ys)

theorem popBy_eq_none {α : Type} {w : α → Nat} {l : List α} : popBy w l = none ↔ l = [] := by
  cases l with
  | nil => simp [popBy]
  | cons x xs =>
    simp only [popBy]
    cases popBy w xs with
    | none => simp
    | some p => obtain ⟨y, ys⟩ := p; by_cases h : w x ≤ w y <;> simp [h]

theorem queued_length (i : Nat) (ns : List Node) : (queued i ns).length = queueSize ns := by
  induction ns generalizing i with
  | nil => rfl
  | cons n ns ih =>
    unfold queueSize at ih ⊢
    by_cases h : n.inq <;> simp [queued, h, ih (i + 1)]

theorem queued_append (i : Nat) (ns ms : List Node) : queued i (ns ++ ms) = queued i ns ++ queued (i + ns.length) ms := by
  induction ns generalizing i with
  | nil => rfl
  | cons n ns ih =>
    by_cases h : n.inq <;> simp [queued, h, ih (i + 1), Nat.add_assoc, Nat.add_comm 1]

theorem minQueued_eq (i : Nat) (ns : List Node) :
    minQueued i ns = (popBy (fun p => p.2.toNat) (queued i ns)).map (·.1) := by
  induction ns generalizing i with
  | nil => rfl
  | cons n ns ih =>
    simp only [minQueued, ih (i + 1)]
    by_cases h : n.inq
    · simp only [queued, h, if_true, popBy]
      cases popBy (fun p : Nat × BitVec 40 => p.2.toNat) (queued (i + 1) ns) with
      | none => simp
      | some p =>
        obtain ⟨⟨j, w⟩, ys⟩ := p
        by_cases hw : n.w ≤ w
        · have hw' : n.w.toNat ≤ w.toNat := hw
          simp [hw, hw']
        · have hw' : ¬ n.w.toNat ≤ w.toNat := hw
          simp [hw, hw']
    · simp only [queued, h, Bool.false_eq_true, if_false]
      cases popBy (fun p : Nat × BitVec 40 => p.2.toNat) (queued (i + 1) ns) with
      | none => simp
      | some p => obtain ⟨⟨j, w⟩, ys⟩ := p; simp

theorem queued_modify (i : Nat) (ns : List Node) {j : Nat} {w : BitVec 40} {rest : List (Nat × BitVec 40)}
    (h : popBy (fun p => p.2.toNat) (queued i ns) = some ((j, w), rest)) :
    i ≤ j ∧ j < i + ns.length ∧ queued i (ns.modify (j - i) unqueue) = rest := by
  induction ns generalizing i rest with
  | nil => simp [queued, popBy] at h
  | cons n ns ih =>
    by_cases hq : n.inq
    · simp only [queued, hq, if_true, popBy] at h
      cases hp : popBy (fun p : Nat × BitVec 40 => p.2.toNat) (queued (i + 1) ns) with
      | none =>
        rw [hp] at h
        simp only [Option.some.injEq, Prod.mk.injEq] at h
        obtain ⟨⟨rfl, rfl⟩, rfl⟩ := h
        simp [queued, unqueue, popBy_eq_none.1 hp]
      | some p =>
        obtain ⟨⟨j', w'⟩, ys⟩ := p
        rw [hp] at h
        simp only at h
        split_ifs at h
        · simp only [Option.some.injEq, Prod.mk.injEq] at h
          obtain ⟨⟨rfl, rfl⟩, rfl⟩ := h
          simp [queued, unqueue]
        · simp only [Option.some.injEq, Prod.mk.injEq] at h
          obtain ⟨⟨rfl, rfl⟩, rfl⟩ := h
          obtain ⟨h₁, h₂, h₃⟩ := ih (i + 1) hp
          refine ⟨by omega, by simp only [List.length_cons]; omega, ?_⟩
          rw [show j' - i = (j' - (i + 1)) + 1 by omega, List.modify_succ_cons]
          simp [queued, hq, h₃]
    · simp only [queued, hq, Bool.false_eq_true, if_false] at h
      obtain ⟨h₁, h₂, h₃⟩ := ih (i + 1) h
      refine ⟨by omega, by simp only [List.length_cons]; omega, ?_⟩
      rw [show j - i = (j - (i + 1)) + 1 by omega, List.modify_succ_cons]
      simp [queued, hq, h₃]

/-- What `POPMIN` does (rule R135). -/
theorem popMin_eq (ns : List Node) :
    popMin ns = (popBy (fun p => p.2.toNat) (queued 0 ns)).map fun p => (p.1.1, p.1.2, ns.modify p.1.1 unqueue) := by
  simp only [popMin, minQueued_eq, Option.map_map]
  rfl

/-! ## The trees of an arena -/

/-- Node `i` of the arena is the root of the tree `t`; children have smaller indices (rule R138). -/
def Rep (ns : List Node) : Nat → Tree → Prop
  | i, .leaf b => ∃ n, ns[i]? = some n ∧ n.body = .leaf b
  | i, .node l r => ∃ n a b, ns[i]? = some n ∧ n.body = .internal a b ∧ a.toNat < i ∧ b.toNat < i
      ∧ Rep ns a.toNat l ∧ Rep ns b.toNat r

theorem Rep.lt_length {ns : List Node} {i : Nat} {t : Tree} (h : Rep ns i t) : i < ns.length := by
  cases t with
  | leaf b => obtain ⟨n, hn, -⟩ := h; exact (List.getElem?_eq_some_iff.1 hn).1
  | node l r => obtain ⟨n, a, b, hn, -⟩ := h; exact (List.getElem?_eq_some_iff.1 hn).1

/-- A change that keeps every node's body keeps the trees. -/
theorem Rep.mono {ns ms : List Node} (hb : ∀ (i : Nat) (n : Node), ns[i]? = some n → ∃ m : Node, ms[i]? = some m ∧ m.body = n.body)
    {i : Nat} {t : Tree} (h : Rep ns i t) : Rep ms i t := by
  induction t generalizing i with
  | leaf b =>
    obtain ⟨n, hn, hc⟩ := h
    obtain ⟨m, hm, hmb⟩ := hb i n hn
    exact ⟨m, hm, hmb.trans hc⟩
  | node l r ihl ihr =>
    obtain ⟨n, a, b, hn, hc, ha, hb', hl, hr⟩ := h
    obtain ⟨m, hm, hmb⟩ := hb i n hn
    exact ⟨m, a, b, hm, hmb.trans hc, ha, hb', ihl hl, ihr hr⟩

theorem Rep.modify {ns : List Node} {i j : Nat} {t : Tree} (h : Rep ns i t) : Rep (ns.modify j unqueue) i t := by
  refine h.mono fun k n hk => ?_
  rw [List.getElem?_modify]
  by_cases hj : j = k
  · exact ⟨unqueue n, by simp [hj, hk], rfl⟩
  · exact ⟨n, by simp [hj, hk], rfl⟩

theorem Rep.append {ns ms : List Node} {i : Nat} {t : Tree} (h : Rep ns i t) : Rep (ns ++ ms) i t := by
  refine h.mono fun k n hk => ⟨n, ?_, rfl⟩
  rw [List.getElem?_append_left (List.getElem?_eq_some_iff.1 hk).1, hk]

/-- The queue of the arena is the queue `q`, item by item. -/
def Same (ns : List Node) (q : List Item) : Prop :=
  List.Forall₂ (fun p it => p.2.toNat = it.w ∧ Rep ns p.1 it.tree) (queued 0 ns) q

theorem popBy_forall₂ {α : Type} {w : α → Nat} {R : α → Item → Prop} (hR : ∀ a it, R a it → w a = it.w)
    {l : List α} {q : List Item} (h : List.Forall₂ R l q) :
    (popBy w l = none ∧ Ref.pop q = none) ∨
      ∃ a l' it q', popBy w l = some (a, l') ∧ Ref.pop q = some (it, q') ∧ R a it ∧ List.Forall₂ R l' q' := by
  induction h with
  | nil => exact Or.inl ⟨rfl, rfl⟩
  | @cons a it l q hab hlq ih =>
    refine Or.inr ?_
    rcases ih with ⟨h₁, h₂⟩ | ⟨a', l', it', q', h₁, h₂, h₃, h₄⟩
    · simp only [popBy, Ref.pop, h₁, h₂]
      exact ⟨_, _, _, _, rfl, rfl, hab, .nil⟩
    · simp only [popBy, Ref.pop, h₁, h₂, hR _ _ hab, hR _ _ h₃]
      by_cases hw : it.w ≤ it'.w
      · simp only [hw, if_true]
        exact ⟨_, _, _, _, rfl, rfl, hab, hlq⟩
      · simp only [hw, if_false]
        exact ⟨_, _, _, _, rfl, rfl, h₃, .cons hab h₄⟩

/-- `POPMIN` on the arena pops the item that `Ref.pop` pops. -/
theorem popMin_same {ns : List Node} {q : List Item} (h : Same ns q) (hq : q ≠ []) :
    ∃ i w ms it q', popMin ns = some (i, w, ms) ∧ Ref.pop q = some (it, q') ∧ w.toNat = it.w ∧ Rep ms i it.tree
      ∧ Same ms q' ∧ ms.length = ns.length ∧ i < ns.length ∧ (∀ j t, Rep ns j t → Rep ms j t) := by
  rcases popBy_forall₂ (fun _ _ h => h.1) h with ⟨-, h₂⟩ | ⟨⟨i, w⟩, l', it, q', h₁, h₂, h₃, h₄⟩
  · obtain ⟨x, xs, hx⟩ := Ref.pop_isSome hq
    rw [h₂] at hx
    cases hx
  · obtain ⟨-, hi, hr⟩ := queued_modify 0 ns h₁
    rw [Nat.sub_zero] at hr
    refine ⟨i, w, ns.modify i unqueue, it, q', by rw [popMin_eq, h₁]; rfl, h₂, h₃.1, h₃.2.modify, ?_, by simp, by omega,
      fun j t hj => hj.modify⟩
    unfold Same
    rw [hr]
    exact h₄.imp fun p it hp => ⟨hp.1, hp.2.modify⟩

theorem same_length {ns : List Node} {q : List Item} (h : Same ns q) : queueSize ns = q.length := by
  rw [← queued_length 0, h.length_eq]

theorem same_singleton {ns : List Node} {x : Item} (h : Same ns [x]) :
    ∃ i w, queued 0 ns = [(i, w)] ∧ w.toNat = x.w ∧ Rep ns i x.tree := by
  unfold Same at h
  generalize queued 0 ns = l at h
  cases h with
  | cons h₁ h₂ => cases h₂; exact ⟨_, _, rfl, h₁.1, h₁.2⟩

/-- `COMBINE` on the arena builds the tree that `Ref.build` builds (rule R136): one node stays queued, the last created
when there was anything to combine, and it is that tree's root. -/
theorem combine_same (k k' : Nat) (ns : List Node) (q : List Item) (h : Same ns q) (hq : q ≠ [])
    (hk : q.length ≤ k + 1) (hk' : q.length ≤ k' + 1) (hn : ns.length + q.length ≤ 512)
    (hw : Ref.queueWeight q < 2 ^ 40) :
    ∃ t i w, Ref.build k' q = some t ∧ queued 0 (combine k ns) = [(i, w)] ∧ Rep (combine k ns) i t
      ∧ w.toNat = Ref.queueWeight q ∧ (combine k ns).length + 1 = ns.length + q.length := by
  induction k generalizing ns q k' with
  | zero =>
    obtain ⟨x, rfl⟩ : ∃ x, q = [x] := List.length_eq_one_iff.1 (by
      have := List.length_pos_of_ne_nil hq; omega)
    have hb : Ref.build k' [x] = some x.tree := by cases k' <;> rfl
    obtain ⟨i, w, h₁, h₂, h₃⟩ := same_singleton h
    exact ⟨_, _, _, hb, h₁, h₃, by simpa [Ref.queueWeight] using h₂, rfl⟩
  | succ k ih =>
    simp only [combine, same_length h]
    by_cases h1 : q.length ≤ 1
    · rw [if_pos h1]
      obtain ⟨x, rfl⟩ : ∃ x, q = [x] := List.length_eq_one_iff.1 (by
        have := List.length_pos_of_ne_nil hq; omega)
      have hb : Ref.build k' [x] = some x.tree := by cases k' <;> rfl
      obtain ⟨i, w, h₁, h₂, h₃⟩ := same_singleton h
      exact ⟨_, _, _, hb, h₁, h₃, by simpa [Ref.queueWeight] using h₂, rfl⟩
    · rw [if_neg h1]
      obtain ⟨i, wa, ms, ita, q₁, hp, hpr, hwa, hra, hs₁, hl₁, hi, -⟩ := popMin_same h hq
      have hlen₁ := Ref.pop_length hpr
      have hq₁ : q₁ ≠ [] := by rintro rfl; simp at hlen₁; omega
      obtain ⟨j, wb, ms₂, itb, q₂, hp₂, hpr₂, hwb, hrb, hs₂, hl₂, hj, hkeep⟩ := popMin_same hs₁ hq₁
      have hlen₂ := Ref.pop_length hpr₂
      have hweight := Ref.combine_weight hpr hpr₂
      simp only [hp, hp₂]
      have hilt : i < 512 := by omega
      have hjlt : j < 512 := by omega
      have htot : (ita.w + itb.w) < 2 ^ 40 := by
        have hs : Ref.queueWeight (q₂ ++ [ita.join itb])
          = Ref.queueWeight q₂ + (ita.w + itb.w) := by simp [Ref.queueWeight, Ref.Item.join]
        omega
      have hwab : (wa + wb).toNat = ita.w + itb.w := by
        rw [BitVec.toNat_add, hwa, hwb, Nat.mod_eq_of_lt htot]
      have hi9 : (BitVec.ofNat 9 i).toNat = i := by simp; omega
      have hj9 : (BitVec.ofNat 9 j).toNat = j := by simp; omega
      have hrep : Rep (ms₂ ++ [parentNode i j (wa + wb)])
          ms₂.length (.node ita.tree itb.tree) := by
        refine ⟨parentNode i j (wa + wb), _, _, by simp, rfl, by omega, by omega, ?_, ?_⟩
        · rw [hi9]; exact (hkeep _ _ hra).append
        · rw [hj9]; exact hrb.append
      have hsame : Same (ms₂ ++ [parentNode i j (wa + wb)])
          (q₂ ++ [ita.join itb]) := by
        unfold Same
        rw [queued_append]
        refine List.rel_append (hs₂.imp fun p it hp => ⟨hp.1, hp.2.append⟩) ?_
        simp only [queued, Nat.zero_add]
        exact .cons ⟨hwab, hrep⟩ .nil
      obtain ⟨k'', rfl⟩ : ∃ k'', k' = k'' + 1 := ⟨k' - 1, by omega⟩
      obtain ⟨t, i', w', h₁, h₂, h₃, h₄, h₅⟩ := ih k'' _ _ hsame (by simp)
        (by simp only [List.length_append, List.length_cons, List.length_nil]; omega)
        (by simp only [List.length_append, List.length_cons, List.length_nil]; omega)
        (by simp only [List.length_append, List.length_cons, List.length_nil]; omega) (by omega)
      refine ⟨t, i', w', ?_, h₂, h₃, by omega, ?_⟩
      · simp only [Ref.build, hpr, hpr₂]; exact h₁
      · rw [h₅]
        simp only [List.length_append, List.length_cons, List.length_nil]
        omega

/-! ## From a frequency table -/

/-- The frequency mapping of a table. -/
def mapping (f : ByteTable (BitVec 32)) (b : Byte) : Nat := (entryOf f b).toNat

theorem mapping_eq_zero {f : ByteTable (BitVec 32)} {b : Byte} : mapping f b = 0 ↔ entryOf f b = 0 := by
  unfold mapping
  constructor
  · intro h; exact BitVec.eq_of_toNat_eq (by simpa using h)
  · intro h; simp [h]

theorem leafNode_absent {f : ByteTable (BitVec 32)} {b : Byte} (h : entryOf f b = 0) :
    leafNode f b = none ∧ Ref.leafItem (mapping f) b = none := by
  constructor
  · rw [leafNode, if_pos h]
  · rw [Ref.leafItem, if_pos (mapping_eq_zero.2 h)]

theorem leafNode_present {f : ByteTable (BitVec 32)} {b : Byte} (h : entryOf f b ≠ 0) :
    leafNode f b = some { body := .leaf b, w := (entryOf f b).setWidth 40, inq := true }
      ∧ Ref.leafItem (mapping f) b = some { w := mapping f b, tree := .leaf b } := by
  constructor
  · rw [leafNode, if_neg h]
  · rw [Ref.leafItem, if_neg (mapping_eq_zero.not.2 h)]

theorem leaves_length (f : ByteTable (BitVec 32)) : (leaves f).length = (Ref.leafQueue (mapping f)).length := by
  unfold leaves Ref.leafQueue
  induction allBytes with
  | nil => rfl
  | cons b bs ih =>
    by_cases h : entryOf f b = 0
    · rw [List.filterMap_cons_none (leafNode_absent h).1, List.filterMap_cons_none (leafNode_absent h).2, ih]
    · rw [List.filterMap_cons_some (leafNode_present h).1, List.filterMap_cons_some (leafNode_present h).2,
        List.length_cons, List.length_cons, ih]

theorem leaves_same (f : ByteTable (BitVec 32)) : Same (leaves f) (Ref.leafQueue (mapping f)) := by
  -- every prefix of the arena of leaves is queued as the leaf queue is
  have key : ∀ (bs : List Byte) (pre : List Node),
      List.Forall₂ (fun (p : Nat × BitVec 40) (it : Item) => p.2.toNat = it.w ∧
          Rep (pre ++ bs.filterMap (leafNode f)) p.1 it.tree)
        (queued pre.length (bs.filterMap (leafNode f))) (bs.filterMap (Ref.leafItem (mapping f))) := by
    intro bs
    induction bs with
    | nil => intro pre; exact .nil
    | cons b bs ih =>
      intro pre
      by_cases h : entryOf f b = 0
      · rw [List.filterMap_cons_none (leafNode_absent h).1, List.filterMap_cons_none (leafNode_absent h).2]
        exact ih pre
      · rw [List.filterMap_cons_some (leafNode_present h).1, List.filterMap_cons_some (leafNode_present h).2]
        refine .cons ⟨?_, ?_⟩ ?_
        · show ((entryOf f b).setWidth 40).toNat = (entryOf f b).toNat
          rw [BitVec.toNat_setWidth]
          have := (entryOf f b).isLt
          omega
        · exact ⟨_, by rw [List.getElem?_append_right (Nat.le_refl _), Nat.sub_self]; rfl, rfl⟩
        · have := ih (pre ++ [{ body := .leaf b, w := (entryOf f b).setWidth 40, inq := true }])
          rw [List.length_append, List.append_assoc] at this
          exact this
  exact key allBytes []

theorem queueWeight_leafQueue_lt (f : ByteTable (BitVec 32)) : Ref.queueWeight (Ref.leafQueue (mapping f)) < 2 ^ 40 := by
  have key : ∀ bs : List Byte, Ref.queueWeight (bs.filterMap (Ref.leafItem (mapping f))) ≤ bs.length * (2 ^ 32 - 1) := by
    intro bs
    induction bs with
    | nil => exact Nat.zero_le _
    | cons b bs ih =>
      rw [List.length_cons, Nat.add_mul, Nat.one_mul]
      by_cases h : entryOf f b = 0
      · rw [List.filterMap_cons_none (leafNode_absent h).2]
        exact Nat.le_trans ih (Nat.le_add_right _ _)
      · rw [List.filterMap_cons_some (leafNode_present h).2]
        have hlt : mapping f b ≤ 2 ^ 32 - 1 := Nat.le_sub_one_of_lt (entryOf f b).isLt
        unfold Ref.queueWeight at ih ⊢
        rw [List.map_cons, List.sum_cons, Nat.add_comm]
        exact Nat.add_le_add ih hlt
  have := key allBytes
  rw [allBytes_length] at this
  unfold Ref.leafQueue
  omega

/-- What `BUILD_TREE` does (rules R132, R133, R136 to R138): from a mapping with at least one byte it makes the tree of that
mapping, whose root is the one node still queued, of the summed weight. -/
theorem buildArena_spec (f : ByteTable (BitVec 32)) (h : ∃ b, entryOf f b ≠ 0) :
    ∃ t w, Ref.treeOf (mapping f) = some t
      ∧ queued 0 (buildArena f) = [(rootIndex (buildArena f), w)]
      ∧ Rep (buildArena f) (rootIndex (buildArena f)) t
      ∧ w.toNat = Ref.queueWeight (Ref.leafQueue (mapping f))
      ∧ (buildArena f).length + 1 = 2 * (leaves f).length ∧ (leaves f).length ≤ 256 := by
  have hq : Ref.leafQueue (mapping f) ≠ [] := by
    intro hn
    obtain ⟨b, hb⟩ := h
    exact hb (mapping_eq_zero.1 (Ref.leafQueue_eq_nil.1 hn b))
  have hl := Ref.leafQueue_length_le (mapping f)
  have hll := leaves_length f
  obtain ⟨t, i, w, h₁, h₂, h₃, h₄, h₅⟩ := combine_same (leaves f).length 256 (leaves f) _ (leaves_same f) hq
    (by omega) (by omega) (by omega) (queueWeight_leafQueue_lt f)
  have hroot : ∀ (ns : List Node) (j i : Nat) (w : BitVec 40), queued j ns = [(i, w)] → ns.findIdx (·.inq) + j = i := by
    intro ns
    induction ns with
    | nil => intro j i w hh; simp [queued] at hh
    | cons n ns ih =>
      intro j i w hh
      by_cases hn : n.inq
      · simp only [queued, hn, if_true, List.cons.injEq, Prod.mk.injEq] at hh
        simp [List.findIdx_cons, hn, hh.1.1]
      · simp only [queued, hn, Bool.false_eq_true, if_false] at hh
        have := ih _ _ _ hh
        simp only [List.findIdx_cons, hn, cond_false]
        omega
  have hr : rootIndex (buildArena f) = i := by
    have := hroot _ _ _ _ h₂
    simpa [rootIndex, buildArena] using this
  refine ⟨t, w, h₁, ?_, ?_, h₄, ?_, by omega⟩
  · rw [hr]; exact h₂
  · rw [hr]; exact h₃
  · unfold buildArena; omega

/-! ## Codes -/

theorem visit_eq {ns : List Node} {k i : Nat} {t : Tree} (h : Rep ns i t) (hk : i < k) (s : Bits) :
    visit ns k i s = (Ref.paths t).map fun p => (p.1, if s ++ p.2 = [] then [false] else s ++ p.2) := by
  induction t generalizing k i s with
  | leaf b =>
    obtain ⟨n, hn, hb⟩ := h
    obtain ⟨k, rfl⟩ : ∃ m, k = m + 1 := ⟨k - 1, by omega⟩
    simp [visit, hn, hb, Ref.paths]
  | node l r ihl ihr =>
    obtain ⟨n, a, b, hn, hb, ha, hb', hl, hr⟩ := h
    obtain ⟨k, rfl⟩ : ∃ m, k = m + 1 := ⟨k - 1, by omega⟩
    simp only [visit, hn, hb, ihl hl (show a.toNat < k by omega), ihr hr (show b.toNat < k by omega), Ref.paths,
      List.map_append, List.map_map]
    congr 1 <;> (refine List.map_congr_left fun p _ => ?_) <;> simp

theorem visit_root {ns : List Node} {i : Nat} {t : Tree} (h : Rep ns i t) : visit ns ns.length i [] = Ref.codes t := by
  rw [visit_eq h h.lt_length]
  cases t with
  | leaf b => rfl
  | node l r =>
    simp only [Ref.codes, List.nil_append]
    conv_rhs => rw [← List.map_id (Ref.paths (.node l r))]
    refine List.map_congr_left fun p hp => ?_
    have : p.2 ≠ [] := by
      simp only [Ref.paths, List.mem_append, List.mem_map] at hp
      rcases hp with ⟨q, -, rfl⟩ | ⟨q, -, rfl⟩ <;> simp
    simp [this]

theorem entryOf_foldl_setEntry (l : List (Byte × Bits)) (hn : (l.map (·.1)).Nodup) (t : ByteTable Bits) (b : Byte) :
    entryOf (l.foldl (fun t c => setEntry t c.1 c.2) t) b = (l.lookup b).getD (entryOf t b) := by
  induction l generalizing t with
  | nil => rfl
  | cons x xs ih =>
    obtain ⟨c, v⟩ := x
    simp only [List.map_cons, List.nodup_cons] at hn
    simp only [List.foldl_cons, ih hn.2, entryOf_setEntry, List.lookup]
    by_cases hb : b = c
    · subst hb
      have hnone : xs.lookup b = none := by
        cases hx : xs.lookup b with
        | none => rfl
        | some v' => exact absurd (List.mem_map.2 ⟨_, Ref.lookup_mem hx, rfl⟩) hn.1
      simp [hnone]
    · have : (b == c) = false := by simpa using hb
      simp [hb, this]

/-- What `CODEGEN` does after `BUILD_TREE` (rule R139): every byte gets the code the tree of the mapping gives it, and a byte
that does not occur gets none. -/
theorem codeTable_spec (f : ByteTable (BitVec 32)) (b : Byte) :
    entryOf (codeTable (buildArena f) (rootIndex (buildArena f))) b = Ref.codeOf (Ref.treeOf (mapping f)) b := by
  by_cases h : ∃ b, entryOf f b ≠ 0
  · obtain ⟨t, w, ht, -, hr, -⟩ := buildArena_spec f h
    obtain ⟨t', ht', hnd, -⟩ := Ref.treeOf_spec (f := mapping f) (by
      obtain ⟨c, hc⟩ := h; exact ⟨c, mapping_eq_zero.not.2 hc⟩)
    rw [ht] at ht'
    cases ht'
    rw [codeTable, visit_root hr, entryOf_foldl_setEntry _ (by rw [Ref.codes_bytes]; exact hnd), ht]
    simp [Ref.codeOf]
  · have h' : ∀ b, entryOf f b = 0 := fun b => by
      by_contra hb
      exact h ⟨b, hb⟩
    have hl : leaves f = [] := by
      rw [← List.length_eq_zero_iff, leaves_length, Ref.leafQueue_eq_nil.2 fun b => mapping_eq_zero.2 (h' b)]
      rfl
    rw [Ref.treeOf_eq_none fun b => mapping_eq_zero.2 (h' b)]
    simp [buildArena, hl, combine, codeTable, visit, Ref.codeOf]

end Sys2Proof.Machine
end

