-- ==== Sys2Proof/Laws/Reading.lean ====
section
/-! SUPPORT. Sequential reads of a decoder, as Reference.lean reads the fields of a container. -/

namespace Sys2Proof.Machine

/-- What is left to read. -/
def rest (s : State) : List Byte := s.input.drop s.seq.rp.toNat

/-- The read cursor is within the operand (rule R38: `RP ≤ N`). -/
def Reads (s : State) : Prop := s.seq.rp.toNat ≤ s.seq.n.toNat

/-- The read cursor moved on by `n` bytes. -/
def advance (n : Nat) (s : State) : State := { s with seq.rp := s.seq.rp + BitVec.ofNat 64 n }

theorem advance_vis (n : Nat) (s : State) : Vis s (advance n s) := ⟨rfl, rfl, rfl, rfl, rfl, rfl, rfl, rfl, rfl, rfl, rfl⟩

theorem rest_length (s : State) : (rest s).length = s.seq.n.toNat - s.seq.rp.toNat := by simp [rest]

theorem advance_rp {n : Nat} {s : State} (h : s.seq.rp.toNat + n ≤ s.seq.n.toNat) :
    (advance n s).seq.rp.toNat = s.seq.rp.toNat + n := by
  have := s.seq.n.isLt
  simp only [advance, BitVec.toNat_add, BitVec.toNat_ofNat, Nat.add_mod_mod]
  exact Nat.mod_eq_of_lt (by omega)

theorem rest_advance {n : Nat} {s : State} (h : s.seq.rp.toNat + n ≤ s.seq.n.toNat) :
    rest (advance n s) = (rest s).drop n ∧ Reads (advance n s) := by
  have hr := advance_rp h
  constructor
  · unfold rest
    rw [hr, (advance_vis n s).input, List.drop_drop]
  · rw [Reads, hr]; exact h

/-- What a sequential read does, as Reference.lean reads a field (rule R66). -/
theorem inBytes_field (n : Nat) {s : State} (h : Reads s) :
    inBytes n s = (Ref.field n (rest s)).map fun p => (p.1, advance n s) := by
  unfold Reads at h
  unfold Ref.field inBytes
  rw [rest_length]
  by_cases hc : s.seq.rp.toNat + n > s.seq.n.toNat
  · rw [if_pos hc, if_pos (by omega)]; rfl
  · rw [if_neg hc, if_neg (by omega), rest, take_drop_input s (by omega)]; rfl

theorem field_ok {n : Nat} {bs bs' : List Byte} {v : Nat} (h : Ref.field n bs = .ok (v, bs')) :
    n ≤ bs.length ∧ bs' = bs.drop n ∧ v = leValue (bs.take n) ∧ v < 256 ^ n := by
  unfold Ref.field at h
  split_ifs at h with hc
  cases h
  have := leValue_lt (bs.take n)
  rw [List.length_take, Nat.min_eq_left (by omega)] at this
  exact ⟨by omega, rfl, rfl, this⟩

end Sys2Proof.Machine
end

