-- ==== Sys2Proof/Laws/HuffDecode.lean ====
section
/-! SUPPORT. What `HDEC` does: the header reader, the two walks, and its run as a whole (`runHdec_result`). -/

namespace Sys2Proof.Machine

open Sys2Proof.Ref (Tree)

/-! ## The header -/

/-- FREQ is the table read so far. -/
def TableIs (f : ByteTable (BitVec 32)) (tab : List (Byte × Nat)) : Prop :=
  ∀ b, mapping f b = (tab.lookup b).getD 0 ∧ ((tab.lookup b).isSome ↔ entryOf f b ≠ 0)

theorem readEntry_spec (s : State) (tab : List (Byte × Nat)) (hr : Reads s) (ht : TableIs s.huff.freq tab) :
    match Ref.readEntries 1 tab (rest s) with
    | .error e => readEntry s = .error e
    | .ok (tab', bs) => ∃ t, readEntry s = .ok t ∧ Vis s t ∧ rest t = bs ∧ Reads t ∧ TableIs t.huff.freq tab'
        ∧ t.huff.dcnt = s.huff.dcnt := by
  have hlen := rest_length s
  unfold Reads at hr
  unfold readEntry
  rcases hbs : rest s with _ | ⟨b, _ | ⟨b0, _ | ⟨b1, _ | ⟨b2, _ | ⟨b3, bs⟩⟩⟩⟩⟩ <;> rw [hbs] at hlen <;>
    simp only [List.length_nil, List.length_cons] at hlen <;> simp only [Ref.readEntries]
  all_goals try rw [if_pos (show s.seq.rp.toNat + 5 > s.seq.n.toNat by omega)]
  rw [if_neg (show ¬ s.seq.rp.toNat + 5 > s.seq.n.toNat by omega)]
  have h₁ : inBytes 1 s = .ok (b.toNat, advance 1 s) := by
    rw [inBytes_field 1 hr, hbs]
    simp [Ref.field, leValue, Except.map]
  have ha := rest_advance (n := 1) (s := s) (by omega)
  rw [hbs] at ha
  have h₂ : inBytes 4 (advance 1 s) = .ok (leValue [b0, b1, b2, b3], advance 4 (advance 1 s)) := by
    rw [inBytes_field 4 ha.2, ha.1, Ref.field, if_neg (by simp)]
    rfl
  have hrp₁ := advance_rp (n := 1) (s := s) (by omega)
  have hn₁ : (advance 1 s).seq.n = s.seq.n := rfl
  have ha₂ := rest_advance (n := 4) (s := advance 1 s) (by rw [hrp₁, hn₁]; omega)
  rw [ha.1] at ha₂
  rw [h₁]
  simp only [bind, Except.bind, h₂]
  have hfreq : (advance 4 (advance 1 s)).huff.freq = s.huff.freq := rfl
  have hb8 : BitVec.ofNat 8 b.toNat = b := by simp
  rw [hfreq, hb8]
  by_cases hz : leValue [b0, b1, b2, b3] = 0
  · rw [if_pos hz, if_pos hz]
  · rw [if_neg hz, if_neg hz]
    by_cases hd : entryOf s.huff.freq b = 0
    · rw [if_neg (show ¬ (tab.lookup b).isSome = true from fun h => (ht b).2.1 h hd),
        if_neg (show ¬ entryOf s.huff.freq b ≠ 0 from fun h => h hd)]
      refine ⟨_, rfl, ⟨rfl, rfl, rfl, rfl, rfl, rfl, rfl, rfl, rfl, rfl, rfl⟩, ?_, ?_, ?_, rfl⟩
      · exact ha₂.1
      · exact ha₂.2
      · intro c
        have hlt : leValue [b0, b1, b2, b3] < 2 ^ 32 := by
          have := leValue_lt [b0, b1, b2, b3]
          simpa using this
        show mapping (setEntry s.huff.freq b (BitVec.ofNat 32 (leValue [b0, b1, b2, b3]))) c = _ ∧ _
        unfold mapping
        rw [entryOf_setEntry]
        by_cases hcb : c = b
        · subst hcb
          simp only [if_true, List.lookup, beq_self_eq_true, Option.getD_some, Option.isSome_some, true_iff,
            BitVec.toNat_ofNat]
          refine ⟨Nat.mod_eq_of_lt hlt, ?_⟩
          intro h0
          have := congrArg BitVec.toNat h0
          rw [BitVec.toNat_ofNat, Nat.mod_eq_of_lt hlt] at this
          exact hz this
        · have hcb' : (c == b) = false := by simpa using hcb
          simp only [if_neg hcb, List.lookup, hcb']
          exact ht c
    · rw [if_pos (show (tab.lookup b).isSome = true from (ht b).2.2 hd), if_pos (show entryOf s.huff.freq b ≠ 0 from hd)]

theorem refReadEntries_succ (k : Nat) (tab : List (Byte × Nat)) (bs : List Byte) :
    Ref.readEntries (k + 1) tab bs = (Ref.readEntries 1 tab bs) >>= fun p => Ref.readEntries k p.1 p.2 := by
  rcases bs with _ | ⟨b, _ | ⟨b0, _ | ⟨b1, _ | ⟨b2, _ | ⟨b3, bs⟩⟩⟩⟩⟩ <;> simp only [Ref.readEntries] <;> try rfl
  by_cases hz : leValue [b0, b1, b2, b3] = 0
  · simp only [if_pos hz]; rfl
  · simp only [if_neg hz]
    by_cases hd : (tab.lookup b).isSome
    · simp only [if_pos hd]; rfl
    · simp only [if_neg hd]; rfl

theorem readEntries_spec (k : Nat) (s : State) (tab : List (Byte × Nat)) (hr : Reads s) (ht : TableIs s.huff.freq tab) :
    match Ref.readEntries k tab (rest s) with
    | .error e => readEntries k s = .error e
    | .ok (tab', bs) => ∃ t, readEntries k s = .ok t ∧ Vis s t ∧ rest t = bs ∧ Reads t ∧ TableIs t.huff.freq tab'
        ∧ t.huff.dcnt = s.huff.dcnt := by
  induction k generalizing s tab with
  | zero => exact ⟨s, rfl, Vis.refl s, rfl, hr, ht, rfl⟩
  | succ k ih =>
    rw [refReadEntries_succ]
    have h₁ := readEntry_spec s tab hr ht
    cases he : Ref.readEntries 1 tab (rest s) with
    | error e =>
      rw [he] at h₁
      simp only [bind, Except.bind]
      rw [readEntries, h₁]
      rfl
    | ok p =>
      obtain ⟨tab₁, bs₁⟩ := p
      rw [he] at h₁
      obtain ⟨t, hte, hv, hre, hrd, htab, hdc⟩ := h₁
      have h₂ := ih t tab₁ hrd htab
      rw [hre] at h₂
      simp only [bind, Except.bind]
      have hstep : readEntries (k + 1) s = readEntries k t := by
        rw [readEntries, hte]
        rfl
      cases hk : Ref.readEntries k tab₁ bs₁ with
      | error e => rw [hk] at h₂; rw [hstep]; exact h₂
      | ok q =>
        obtain ⟨tab₂, bs₂⟩ := q
        rw [hk] at h₂
        obtain ⟨u, hue, hv', h⟩ := h₂
        exact ⟨u, by rw [hstep]; exact hue, hv.trans hv', h.1, h.2.1, h.2.2.1, h.2.2.2.trans hdc⟩

theorem readCount_spec (s : State) (hr : Reads s) :
    match Ref.field 8 (rest s) with
    | .error e => readCount s = .error e
    | .ok (v, bs) =>
      (v = 0 ∨ v > 256 → readCount s = .error .fmtCount) ∧
      (¬ (v = 0 ∨ v > 256) → ∃ t, readCount s = .ok t ∧ Vis s t ∧ rest t = bs ∧ Reads t ∧ t.huff.dcnt.toNat = v) := by
  unfold readCount
  rw [inBytes_field 8 hr]
  cases hf : Ref.field 8 (rest s) with
  | error e => rfl
  | ok p =>
    obtain ⟨v, bs⟩ := p
    obtain ⟨hl, hbs, -, hv⟩ := field_ok hf
    have hra := rest_advance (n := 8) (s := s) (by rw [rest_length] at hl; unfold Reads at hr; omega)
    have hd : (BitVec.ofNat 64 v).toNat = v := by
      rw [BitVec.toNat_ofNat]; exact Nat.mod_eq_of_lt (by simpa using hv)
    simp only [Except.map, bind, Except.bind, hd, Config.alphabet]
    refine ⟨fun h => if_pos h, fun h => ⟨_, if_neg h, ?_, ?_, ?_, hd⟩⟩
    · exact ⟨rfl, rfl, rfl, rfl, rfl, rfl, rfl, rfl, rfl, rfl, rfl⟩
    · rw [hbs]; exact hra.1
    · exact hra.2

theorem refReadEntries_length {k : Nat} {tab tab' : List (Byte × Nat)} {bs bs' : List Byte}
    (h : Ref.readEntries k tab bs = .ok (tab', bs')) : tab'.length = tab.length + k := by
  induction k generalizing tab bs with
  | zero => cases h; rfl
  | succ k ih =>
    rcases bs with _ | ⟨b, _ | ⟨b0, _ | ⟨b1, _ | ⟨b2, _ | ⟨b3, bs⟩⟩⟩⟩⟩ <;> simp only [Ref.readEntries] at h <;> try cases h
    split_ifs at h
    have := ih h
    rw [this, List.length_cons]
    omega

theorem tableIs_empty : TableIs (Vector.replicate 256 0) [] := by
  intro b
  simp [mapping]

theorem readTable_spec (s : State) (hr : Reads s) :
    match Ref.readEntries s.huff.dcnt.toNat [] (rest s) with
    | .error e => readTable s = .error e
    | .ok (tab, bs) => ∃ t, readTable s = .ok t ∧ Vis s t ∧ rest t = bs ∧ Reads t ∧ TableIs t.huff.freq tab := by
  have h := readEntries_spec s.huff.dcnt.toNat { s with huff.freq := Vector.replicate 256 0 } [] hr tableIs_empty
  have hrest : rest { s with huff.freq := Vector.replicate 256 0 } = rest s := rfl
  rw [hrest] at h
  unfold readTable
  cases he : Ref.readEntries s.huff.dcnt.toNat [] (rest s) with
  | error e => rw [he] at h; simp only at h; rw [h]; rfl
  | ok p =>
    obtain ⟨tab, bs⟩ := p
    rw [he] at h
    obtain ⟨t, ht, hv, hre, hrd, htab, -⟩ := h
    rw [ht]
    exact ⟨_, rfl, ⟨hv.cfg, hv.ie, hv.inLen, hv.inBuf, hv.outBuf, hv.wp, hv.n, hv.agenda, hv.reply, hv.epoch, hv.draws⟩,
      hre, hrd, htab⟩

theorem readBitlen_spec (s : State) (hr : Reads s) :
    match Ref.field 8 (rest s) with
    | .error e => readBitlen s = .error e
    | .ok (v, bs) => ∃ t, readBitlen s = .ok t ∧ Vis s t ∧ rest t = bs ∧ Reads t ∧ t.huff.len.toNat = v
        ∧ t.huff.freq = s.huff.freq := by
  unfold readBitlen
  rw [inBytes_field 8 hr]
  cases hf : Ref.field 8 (rest s) with
  | error e => rfl
  | ok p =>
    obtain ⟨v, bs⟩ := p
    obtain ⟨hl, hbs, -, hv⟩ := field_ok hf
    have hra := rest_advance (n := 8) (s := s) (by rw [rest_length] at hl; unfold Reads at hr; omega)
    have hd : (BitVec.ofNat 64 v).toNat = v := by
      rw [BitVec.toNat_ofNat]; exact Nat.mod_eq_of_lt (by simpa using hv)
    refine ⟨_, rfl, ⟨rfl, rfl, rfl, rfl, rfl, rfl, rfl, rfl, rfl, rfl, rfl⟩, ?_, ?_, hd, rfl⟩
    · rw [hbs]; exact hra.1
    · exact hra.2

/-! ## The walks -/

/-- Payload bits `k` to `k + n − 1` of the payload at index `pb`. -/
def stream (s : State) (pb k n : Nat) : Bits := (List.range n).map fun j => getBit s pb (k + j)

theorem stream_succ (s : State) (pb k n : Nat) : stream s pb k (n + 1) = getBit s pb k :: stream s pb (k + 1) n := by
  unfold stream
  rw [List.range_succ_eq_map, List.map_cons, List.map_map]
  congr 1
  refine List.map_congr_left fun j _ => ?_
  simp only [Function.comp, Nat.succ_eq_add_one]
  congr 1
  omega

theorem Vis.stream {s t : State} (h : Vis s t) (pb k n : Nat) : stream t pb k n = stream s pb k n := by
  unfold Machine.stream getBit
  simp only [h.inByte]

/-- The bits of the payload that the walk takes are the first bits of what follows the header (rules R64, R187). -/
theorem stream_eq_bitsOf (s : State) (n : Nat) (h : ceil8 n ≤ (rest s).length) (hr : Reads s) :
    stream s s.seq.rp.toNat 0 n = (Ref.bitsOf (rest s)).take n := by
  unfold Reads at hr
  rw [rest_length] at h
  refine List.ext_getElem? fun k => ?_
  unfold stream
  rw [List.getElem?_take]
  split_ifs with hk
  · have hc : k / 8 < ceil8 n := by unfold ceil8; omega
    rw [List.getElem?_map, List.getElem?_range hk, Ref.bitsOf_getElem?, rest, List.getElem?_drop, State.input,
      inSlice_getElem?, if_pos (by omega)]
    simp only [Option.map_some, Nat.zero_add, getBit, streamBit]
  · rw [List.getElem?_eq_none (by simpa using hk)]

theorem nodeAt_rep {s : State} {i : BitVec 9} {t : Tree} (h : Rep s.huff.node i.toNat t) :
    match t with
    | .leaf b => (nodeAt s i).body = .leaf b
    | .node l r => ∃ a b, (nodeAt s i).body = .internal a b ∧ a.toNat < i.toNat ∧ b.toNat < i.toNat
        ∧ Rep s.huff.node a.toNat l ∧ Rep s.huff.node b.toNat r := by
  cases t with
  | leaf b =>
    obtain ⟨n, hn, hb⟩ := h
    simp only [nodeAt, hn, Option.getD_some]
    exact hb
  | node l r =>
    obtain ⟨n, a, b, hn, hb, ha, hb', hl, hr⟩ := h
    simp only [nodeAt, hn, Option.getD_some]
    exact ⟨a, b, hb, ha, hb', hl, hr⟩

/-- What the walk through a tree of two or more leaves does (rules R187, R189). -/
theorem walkTree_spec (pb k : Nat) (s : State) {l r cl cr : Tree}
    (hroot : Rep s.huff.node s.huff.root.toNat (.node l r)) (hcur : Rep s.huff.node s.huff.curn.toNat (.node cl cr))
    (hle : s.huff.curn.toNat ≤ s.huff.root.toNat) (hbp : s.seq.bp.toNat + k < 2 ^ 64) (hs : Fits s) :
    Agrees s (walkTree pb k s)
      (Ref.walk (.node l r) (.node cl cr) (decide (s.huff.curn = s.huff.root))
        (s.cfg.outCap.toNat - s.seq.wp.toNat) (stream s pb s.seq.bp.toNat k)) := by
  induction k generalizing s cl cr with
  | zero =>
    have : stream s pb s.seq.bp.toNat 0 = [] := rfl
    rw [this]
    unfold walkTree Ref.walk
    by_cases hc : s.huff.curn = s.huff.root
    · rw [if_neg (fun h => h hc), if_pos (by simpa using hc)]
      exact Agrees.ok_nil hs
    · rw [if_pos hc, if_neg (by simpa using hc)]
      rfl
  | succ k ih =>
    rw [stream_succ]
    obtain ⟨a, b, hbody, ha, hb, hra, hrb⟩ := nodeAt_rep hcur
    generalize hx : getBit s pb s.seq.bp.toNat = x
    have hbp1 : (s.seq.bp + 1).toNat = s.seq.bp.toNat + 1 := by
      rw [BitVec.toNat_add]; exact Nat.mod_eq_of_lt (by simp; omega)
    obtain ⟨s', hs'⟩ : ∃ s' : State, s' = { s with seq.bp := s.seq.bp + 1, huff.curn := if x then b else a } := ⟨_, rfl⟩
    have hchild : childOf (nodeAt s s.huff.curn).body x = if x then b else a := by
      rw [hbody]; cases x <;> rfl
    have hstep : walkTree pb (k + 1) s = match (nodeAt s' s'.huff.curn).body with
        | .leaf b => outBytes 1 b.toNat s' >>= fun u => walkTree pb k { u with huff.curn := u.huff.root }
        | .internal _ _ => walkTree pb k s' := by
      subst hs'
      rw [← hchild, ← hx]
      rfl
    have hv : Vis s s' := by subst hs'; exact ⟨rfl, rfl, rfl, rfl, rfl, rfl, rfl, rfl, rfl, rfl, rfl⟩
    have hnode : s'.huff.node = s.huff.node := by subst hs'; rfl
    have hroot' : s'.huff.root = s.huff.root := by subst hs'; rfl
    have hcurn : s'.huff.curn = if x then b else a := by subst hs'; rfl
    have hbp' : s'.seq.bp.toNat = s.seq.bp.toNat + 1 := by subst hs'; exact hbp1
    have hfit : Fits s' := by unfold Fits; rw [hv.wp, hv.cfg]; exact hs
    have hlt : s'.huff.curn.toNat < s.huff.curn.toNat := by rw [hcurn]; cases x <;> simpa
    have hrep : Rep s'.huff.node s'.huff.curn.toNat (if x then cr else cl) := by
      rw [hnode, hcurn]; cases x <;> simpa
    rw [hstep]
    have hwalk : ∀ xs room at0, Ref.walk (.node l r) (.node cl cr) at0 room (x :: xs) =
        match (if x then cr else cl) with
        | .leaf b =>
          match room with
          | 0 => .error .ioOvf
          | room + 1 => (Ref.walk (.node l r) (.node l r) true room xs).map (b :: ·)
        | t => Ref.walk (.node l r) t false room xs := fun xs room at0 => by
      rw [Ref.walk]
      all_goals
        generalize (if x then cr else cl) = c
        cases c <;> rfl
    rw [hwalk]
    refine Agrees.congr hv ?_
    rw [← hv.wp, ← hv.cfg]
    generalize (if x then cr else cl) = child at hrep
    cases child with
    | leaf b₁ =>
      have hbody' := nodeAt_rep hrep
      simp only [hbody']
      refine agrees_byte (p := fun room => Ref.walk (.node l r) (.node l r) true room (stream s pb (s.seq.bp.toNat + 1) k))
        b₁ fun hroom => ?_
      obtain ⟨u, hu⟩ : ∃ u, u = appendOut [b₁] s' := ⟨_, rfl⟩
      rw [← hu]
      obtain ⟨w, hw⟩ : ∃ w : State, w = { u with huff.curn := u.huff.root } := ⟨_, rfl⟩
      rw [← hw]
      have hvw : Vis u w := by subst hw; exact ⟨rfl, rfl, rfl, rfl, rfl, rfl, rfl, rfl, rfl, rfl, rfl⟩
      have hwr : w.huff.root = s.huff.root := by subst hw hu; exact hroot'
      have hwc : w.huff.curn = w.huff.root := by subst hw; rfl
      have hwn : w.huff.node = s.huff.node := by subst hw hu; exact hnode
      have hwb : w.seq.bp.toNat = s.seq.bp.toNat + 1 := by subst hw hu; exact hbp'
      have huw : u.seq.wp.toNat = s'.seq.wp.toNat + 1 := by subst hu; exact wp_appendOut hroom
      have huc : u.cfg = s'.cfg := by subst hu; rfl
      have hst : stream w pb (s.seq.bp.toNat + 1) k = stream s pb (s.seq.bp.toNat + 1) k := by
        have h₁ : stream u pb (s.seq.bp.toNat + 1) k = stream s' pb (s.seq.bp.toNat + 1) k := by subst hu; rfl
        rw [hvw.stream, h₁, hv.stream]
      have := ih w (cl := l) (cr := r) (by rw [hwn, hwr]; exact hroot) (by rw [hwn, hwc, hwr]; exact hroot)
        (by rw [hwc]) (by omega) (by unfold Fits; rw [hvw.wp, hvw.cfg, huw, huc]; exact hroom)
      rw [decide_eq_true hwc, hwb, hst, hvw.wp, hvw.cfg, huw, huc] at this
      refine Agrees.congr hvw ?_
      simpa using this
    | node l₁ r₁ =>
      obtain ⟨a₁, b₁, hbody', -⟩ := nodeAt_rep hrep
      simp only [hbody']
      have := ih s' (cl := l₁) (cr := r₁) (by rw [hnode, hroot']; exact hroot) hrep (by rw [hroot']; omega)
        (by omega) hfit
      have hne : s'.huff.curn ≠ s'.huff.root := by
        intro h
        rw [h, hroot'] at hlt
        omega
      rw [decide_eq_false hne, hbp', hv.stream] at this
      exact this

theorem refWalkLeaf_nil (b : Byte) (room : Nat) : Ref.walkLeaf b room [] = .ok [] := by
  cases room <;> simp [Ref.walkLeaf]

theorem refWalkLeaf_cons (b : Byte) (room : Nat) (x : Bool) (xs : Bits) :
    Ref.walkLeaf b room (x :: xs) = if x then .error .fmtBadBit
      else match room with
        | 0 => .error .ioOvf
        | room + 1 => (Ref.walkLeaf b room xs).map (b :: ·) := by
  cases room <;> simp [Ref.walkLeaf]

/-- What the walk of a single leaf does (rule R188). -/
theorem walkLeaf_spec (pb : Nat) (b : Byte) (k : Nat) (s : State) (hbp : s.seq.bp.toNat + k < 2 ^ 64) (hs : Fits s) :
    Agrees s (walkLeaf pb b k s)
      (Ref.walkLeaf b (s.cfg.outCap.toNat - s.seq.wp.toNat) (stream s pb s.seq.bp.toNat k)) := by
  induction k generalizing s with
  | zero =>
    have : stream s pb s.seq.bp.toNat 0 = [] := rfl
    rw [this, refWalkLeaf_nil]
    exact Agrees.ok_nil hs
  | succ k ih =>
    rw [stream_succ]
    generalize hx : getBit s pb s.seq.bp.toNat = x
    have hbp1 : (s.seq.bp + 1).toNat = s.seq.bp.toNat + 1 := by
      rw [BitVec.toNat_add]; exact Nat.mod_eq_of_lt (by simp; omega)
    obtain ⟨s', hs'⟩ : ∃ s' : State, s' = { s with seq.bp := s.seq.bp + 1 } := ⟨_, rfl⟩
    have hstep : walkLeaf pb b (k + 1) s =
        if x then .error .fmtBadBit else outBytes 1 b.toNat s' >>= walkLeaf pb b k := by
      subst hs'
      rw [← hx]
      rfl
    have hv : Vis s s' := by subst hs'; exact ⟨rfl, rfl, rfl, rfl, rfl, rfl, rfl, rfl, rfl, rfl, rfl⟩
    have hbp' : s'.seq.bp.toNat = s.seq.bp.toNat + 1 := by subst hs'; exact hbp1
    rw [hstep, refWalkLeaf_cons]
    cases x with
    | true => rfl
    | false =>
      simp only [Bool.false_eq_true, if_false]
      refine Agrees.congr hv ?_
      rw [← hv.wp, ← hv.cfg]
      refine agrees_byte (p := fun room => Ref.walkLeaf b room (stream s pb (s.seq.bp.toNat + 1) k)) b fun hroom => ?_
      obtain ⟨u, hu⟩ : ∃ u, u = appendOut [b] s' := ⟨_, rfl⟩
      rw [← hu]
      have huw : u.seq.wp.toNat = s'.seq.wp.toNat + 1 := by subst hu; exact wp_appendOut hroom
      have huc : u.cfg = s'.cfg := by subst hu; rfl
      have hub : u.seq.bp.toNat = s.seq.bp.toNat + 1 := by subst hu; exact hbp'
      have hst : stream u pb (s.seq.bp.toNat + 1) k = stream s pb (s.seq.bp.toNat + 1) k := by
        have h₁ : stream u pb (s.seq.bp.toNat + 1) k = stream s' pb (s.seq.bp.toNat + 1) k := by subst hu; rfl
        rw [h₁, hv.stream]
      have := ih u (by omega) (by unfold Fits; rw [huw, huc]; exact hroom)
      rw [hub, hst, huw, huc] at this
      exact this

theorem outBytes_huff {n v : Nat} {s t : State} (h : outBytes n v s = .ok t) : t.huff = s.huff := by
  rw [outBytes_eq_emit] at h
  rw [(emit_ok h).2]
  rfl

theorem walkTree_len {pb k : Nat} {s t : State} (h : walkTree pb k s = .ok t) : t.huff.len = s.huff.len := by
  induction k generalizing s with
  | zero =>
    unfold walkTree at h
    split_ifs at h
    cases h
    rfl
  | succ k ih =>
    unfold walkTree at h
    simp only at h
    split at h
    · next b _ =>
      cases ho : outBytes 1 b.toNat { s with
          seq.bp := s.seq.bp + 1,
          huff.curn := childOf (nodeAt s s.huff.curn).body (getBit s pb s.seq.bp.toNat) } with
      | error e => rw [ho] at h; cases h
      | ok u =>
        rw [ho] at h
        have := outBytes_huff ho
        rw [ih h]
        show u.huff.len = _
        rw [this]
    · exact Eq.trans (ih h) rfl

theorem walkLeaf_len {pb k : Nat} {b : Byte} {s t : State} (h : walkLeaf pb b k s = .ok t) : t.huff.len = s.huff.len := by
  induction k generalizing s with
  | zero => cases h; rfl
  | succ k ih =>
    unfold walkLeaf at h
    simp only at h
    split_ifs at h
    cases ho : outBytes 1 b.toNat { s with seq.bp := s.seq.bp + 1 } with
    | error e => rw [ho] at h; cases h
    | ok u =>
      rw [ho] at h
      rw [ih h, outBytes_huff ho]

theorem walk_len {pb : Nat} {s t : State} (h : walk pb s = .ok t) : t.huff.len = s.huff.len := by
  unfold walk at h
  split at h
  · exact Eq.trans (walkLeaf_len h) rfl
  · exact Eq.trans (walkTree_len h) rfl

/-- The walk, as Reference.lean makes it. -/
def refWalk (t : Tree) (room : Nat) (bits : Bits) : Except Err (List Byte) :=
  match t with
  | .leaf b => Ref.walkLeaf b room bits
  | t => Ref.walk t t true room bits

/-- What `WALK` does (rules R187, R188). -/
theorem walk_spec (pb : Nat) (s : State) {t : Tree} (ht : Rep s.huff.node s.huff.root.toNat t)
    (hl : s.huff.len.toNat < 2 ^ 64) (hs : Fits s) :
    Agrees s (walk pb s)
      (refWalk t (s.cfg.outCap.toNat - s.seq.wp.toNat) (stream s pb 0 s.huff.len.toNat)) := by
  cases t with
  | leaf b =>
    have hb := nodeAt_rep ht
    simp only at hb
    unfold walk
    simp only [hb]
    obtain ⟨u, hu⟩ : ∃ u : State, u = { s with seq.bp := 0 } := ⟨_, rfl⟩
    rw [← hu]
    have hv : Vis s u := by subst hu; exact ⟨rfl, rfl, rfl, rfl, rfl, rfl, rfl, rfl, rfl, rfl, rfl⟩
    have hbp : u.seq.bp.toNat = 0 := by subst hu; rfl
    have := walkLeaf_spec pb b s.huff.len.toNat u (by omega) (by unfold Fits; rw [hv.wp, hv.cfg]; exact hs)
    rw [hbp, hv.stream, hv.wp, hv.cfg] at this
    exact Agrees.congr hv this
  | node l r =>
    obtain ⟨a, c, hb, -⟩ := nodeAt_rep ht
    unfold walk
    simp only [hb]
    obtain ⟨u, hu⟩ : ∃ u : State, u = { s with huff.curn := s.huff.root, seq.bp := 0 } := ⟨_, rfl⟩
    rw [← hu]
    have hv : Vis s u := by subst hu; exact ⟨rfl, rfl, rfl, rfl, rfl, rfl, rfl, rfl, rfl, rfl, rfl⟩
    have hc : u.huff.curn = u.huff.root := by subst hu; rfl
    have hr : u.huff.root = s.huff.root := by subst hu; rfl
    have hn : u.huff.node = s.huff.node := by subst hu; rfl
    have hbp : u.seq.bp.toNat = 0 := by subst hu; rfl
    have := walkTree_spec pb s.huff.len.toNat u (l := l) (r := r) (cl := l) (cr := r) (by rw [hn, hr]; exact ht)
      (by rw [hn, hc, hr]; exact ht) (by rw [hc]) (by omega) (by unfold Fits; rw [hv.wp, hv.cfg]; exact hs)
    rw [decide_eq_true hc, hbp, hv.stream, hv.wp, hv.cfg] at this
    exact Agrees.congr hv this

/-! ## The command -/

/-- What follows the header in Reference.lean. -/
theorem ref_hdec_eq (outCap : Nat) (input : List Byte) :
    Ref.hdec outCap input = (do
      let (count, bs) ← Ref.field 8 input
      if count = 0 ∨ count > 256 then .error .fmtCount
      else do
        let (tab, bs) ← Ref.readEntries count [] bs
        let (len, payload) ← Ref.field 8 bs
        if payload.length < ceil8 len then .error .fmtTrunc
        else do
          let out ← match Ref.treeOf fun b => (tab.lookup b).getD 0 with
            | none => .ok []
            | some t => refWalk t outCap ((Ref.bitsOf payload).take len)
          .ok (out, decide (payload.length > ceil8 len))) := by
  unfold Ref.hdec
  congr 1
  funext p
  obtain ⟨count, bs⟩ := p
  simp only
  split_ifs
  · rfl
  · congr 1
    funext p
    obtain ⟨tab, bs⟩ := p
    simp only
    congr 1
    funext p
    obtain ⟨len, payload⟩ := p
    simp only
    split_ifs
    · rfl
    · cases Ref.treeOf fun b => (tab.lookup b).getD 0 with
      | none => rfl
      | some t => cases t <;> rfl

/-- The run of an accepted `HDEC` gives what Reference.lean computes. -/
theorem runHdec_result (s : State) (hs : s.Accepted) : Result s (runHdec s) (Ref.run .hdec s.cfg s.seq.n.toNat s.input) := by
  unfold Ref.run
  by_cases hl : s.seq.n.toNat > s.cfg.inCap.toNat
  · rw [if_pos hl]
    simp only [runHdec, dispatchCheck_eq, if_pos hl]
    rfl
  rw [if_neg hl]
  simp only
  have hdis : dispatchCheck false s = .ok s := by
    rw [dispatchCheck_eq, if_neg hl, if_neg (by simp)]
  have hr₀ : Reads (s.enter .dHdr) := by
    show (s.enter .dHdr).seq.rp.toNat ≤ (s.enter .dHdr).seq.n.toNat
    rw [State.enter]
    simp [hs.rp]
  have hrest₀ : rest (s.enter .dHdr) = s.input := by
    show s.input.drop s.seq.rp.toNat = _
    simp [hs.rp]
  have hv₀ : Vis s (s.enter .dHdr) := ⟨rfl, rfl, rfl, rfl, rfl, rfl, rfl, rfl, rfl, rfl, rfl⟩
  have h₁ := readCount_spec (s.enter .dHdr) hr₀
  rw [hrest₀] at h₁
  rw [ref_hdec_eq]
  unfold runHdec
  rw [hdis]
  simp only [bind, Except.bind]
  cases hf₁ : Ref.field 8 s.input with
  | error e => rw [hf₁] at h₁; simp only at h₁; rw [h₁]; rfl
  | ok p =>
  obtain ⟨count, bs₁⟩ := p
  rw [hf₁] at h₁
  simp only at h₁ ⊢
  by_cases hcount : count = 0 ∨ count > 256
  · rw [h₁.1 hcount, if_pos hcount]; rfl
  obtain ⟨s₁, ho₁, hv₁, hre₁, hrd₁, hdc₁⟩ := h₁.2 hcount
  rw [ho₁, if_neg hcount]
  simp only
  have h₂ := readTable_spec s₁ hrd₁
  rw [hre₁, hdc₁] at h₂
  cases hf₂ : Ref.readEntries count [] bs₁ with
  | error e => rw [hf₂] at h₂; simp only at h₂; rw [h₂]; rfl
  | ok p =>
  obtain ⟨tab, bs₂⟩ := p
  rw [hf₂] at h₂
  obtain ⟨s₂, ho₂, hv₂, hre₂, hrd₂, htab⟩ := h₂
  rw [ho₂]
  simp only
  have h₃ := readBitlen_spec s₂ hrd₂
  rw [hre₂] at h₃
  cases hf₃ : Ref.field 8 bs₂ with
  | error e => rw [hf₃] at h₃; simp only at h₃; rw [h₃]; rfl
  | ok p =>
  obtain ⟨len, payload⟩ := p
  rw [hf₃] at h₃
  obtain ⟨s₃, ho₃, hv₃, hre₃, hrd₃, hlen₃, hfr₃⟩ := h₃
  rw [ho₃]
  simp only
  have hplen : payload.length = s₃.seq.n.toNat - s₃.seq.rp.toNat := by rw [← hre₃, rest_length]
  unfold checkPayload
  rw [← hplen, hlen₃]
  by_cases hpay : payload.length < ceil8 len
  · rw [if_pos hpay, if_pos hpay]; rfl
  rw [if_neg hpay, if_neg hpay]
  simp only
  -- the tree of the table read
  have hfun : mapping s₃.huff.freq = fun b => (tab.lookup b).getD 0 := by
    funext b; rw [hfr₃]; exact (htab b).1
  have hne : ∃ b, entryOf s₃.huff.freq b ≠ 0 := by
    have hlt := refReadEntries_length hf₂
    rcases tab with _ | ⟨⟨b, f⟩, tab⟩
    · simp at hlt; omega
    · refine ⟨b, ?_⟩
      rw [hfr₃]
      exact (htab b).2.1 (by simp [List.lookup])
  obtain ⟨t, w, htree, -, hrep, -, hnl, hll⟩ := buildArena_spec s₃.huff.freq hne
  rw [hfun] at htree
  rw [htree]
  simp only
  obtain ⟨s₄, hs₄⟩ : ∃ s₄, s₄ = (buildTree (s₃.enter .dTree)).enter .dWalk := ⟨_, rfl⟩
  rw [← hs₄]
  have hv₄ : Vis s₃ s₄ := by subst hs₄; constructor <;> simp
  have hnode : s₄.huff.node = buildArena s₃.huff.freq := by subst hs₄; rfl
  have hroot : s₄.huff.root.toNat = rootIndex (buildArena s₃.huff.freq) := by
    subst hs₄
    show (BitVec.ofNat 9 (rootIndex (buildArena s₃.huff.freq))).toNat = _
    rw [BitVec.toNat_ofNat]
    have := hrep.lt_length
    exact Nat.mod_eq_of_lt (by omega)
  have hlen₄ : s₄.huff.len = s₃.huff.len := by subst hs₄; rfl
  have hvs : Vis s s₄ := (((hv₀.trans hv₁).trans hv₂).trans hv₃).trans hv₄
  have hwp : s₄.seq.wp.toNat = 0 := by rw [hvs.wp, hs.wp]; rfl
  have hw := walk_spec s₃.seq.rp.toNat s₄ (t := t) (by rw [hnode, hroot]; exact hrep) s₄.huff.len.isLt
    (by unfold Fits; omega)
  rw [hwp, hvs.cfg, hlen₄, hlen₃, hv₄.stream, stream_eq_bitsOf s₃ len (by rw [hre₃]; omega) hrd₃, hre₃, Nat.sub_zero] at hw
  cases hres : refWalk t s.cfg.outCap.toNat ((Ref.bitsOf payload).take len) with
  | error e =>
    rw [hres] at hw
    rw [show walk s₃.seq.rp.toNat s₄ = .error e from hw]
    rfl
  | ok out =>
    rw [hres] at hw
    obtain ⟨hfit, u, hu, hvu⟩ := hw
    rw [hu]
    simp only
    have hn : u.seq.n = s₃.seq.n := by rw [hvu.n]; exact hv₄.n
    have hul : u.huff.len.toNat = len := by rw [walk_len hu, hlen₄, hlen₃]
    refine ⟨?_, u, ?_, (hvs.appendOut out).trans hvu⟩
    · rw [hwp, hvs.cfg] at hfit; omega
    · unfold huffTrail
      rw [hn, hul, hplen]

end Sys2Proof.Machine
end

