-- ==== Sys2Proof/Laws/HuffEncode.lean ====
section
/-! SUPPORT. What `HENC` does: the counts, the table, the bit-packer, and its run as a whole (`runHenc_spec`). -/

namespace Sys2Proof.Machine

open Sys2Proof.Ref (payloadByte packBits fullBytes leftover)

/-! ## Frequency analyzer -/

theorem countBytes_toNat (bs : List Byte) (b : Byte) (h : bs.length < 2 ^ 32) :
    (entryOf (countBytes bs) b).toNat = bs.count b := by
  have key : ∀ (bs : List Byte) (f : ByteTable (BitVec 32)), (entryOf f b).toNat + bs.length < 2 ^ 32 →
      (entryOf (bs.foldl (fun f b => setEntry f b (entryOf f b + 1)) f) b).toNat = (entryOf f b).toNat + bs.count b := by
    intro bs
    induction bs with
    | nil => intro f _; rfl
    | cons c cs ih =>
      intro f hf
      rw [List.length_cons] at hf
      rw [List.foldl_cons]
      by_cases hb : b = c
      · subst hb
        have hs : (entryOf (setEntry f b (entryOf f b + 1)) b).toNat = (entryOf f b).toNat + 1 := by
          rw [entryOf_setEntry_same, BitVec.toNat_add]
          exact Nat.mod_eq_of_lt (by simp; omega)
        rw [ih _ (by rw [hs]; omega), hs, List.count_cons_self]
        omega
      · have hs : entryOf (setEntry f c (entryOf f c + 1)) b = entryOf f b := by
          rw [entryOf_setEntry, if_neg hb]
        rw [ih _ (by rw [hs]; omega), hs, List.count_cons_of_ne (Ne.symm hb)]
  have := key bs (Vector.replicate 256 0) (by simpa using h)
  simpa [countBytes] using this

/-- The mapping `FREQ_COUNT` makes is how often each byte occurs (rule R131). -/
theorem mapping_countBytes (bs : List Byte) (h : bs.length < 2 ^ 32) : mapping (countBytes bs) = Ref.freqOf bs := by
  funext b
  exact countBytes_toNat bs b h

theorem entries_length (f : ByteTable (BitVec 32)) : (Ref.entries (mapping f)).length = distinctBytes f := by
  unfold Ref.entries distinctBytes
  induction allBytes with
  | nil => rfl
  | cons b bs ih =>
    by_cases h : entryOf f b = 0
    · rw [List.filterMap_cons_none (by simp [mapping_eq_zero.2 h]), List.countP_cons_of_neg (by simp [h]), ih]
    · rw [List.filterMap_cons_some (b := (b, mapping f b)) (by simp [mapping_eq_zero.not.2 h]),
        List.countP_cons_of_pos (by simpa using h), List.length_cons, ih]

theorem distinctBytes_le (f : ByteTable (BitVec 32)) : distinctBytes f ≤ 256 := by
  have := List.countP_le_length (p := fun b => entryOf f b != 0) (l := allBytes)
  simpa [distinctBytes] using this

/-! ## Header writer -/

/-- The bytes of one entry of the table (rule R162). -/
def entryField (f : Byte → Nat) (b : Byte) : List Byte := if f b = 0 then [] else Ref.entryBytes (b, f b)

theorem entries_flatMap (f : Byte → Nat) : (Ref.entries f).flatMap Ref.entryBytes = allBytes.flatMap (entryField f) := by
  unfold Ref.entries
  induction allBytes with
  | nil => rfl
  | cons b bs ih =>
    by_cases h : f b = 0
    · rw [List.filterMap_cons_none (by simp [h]), List.flatMap_cons, ih]; simp [entryField, h]
    · rw [List.filterMap_cons_some (b := (b, f b)) (by simp [h]), List.flatMap_cons, List.flatMap_cons, ih]
      simp [entryField, h]

theorem writeEntry_eq (s : State) (b : Byte) (h : Fits s) :
    writeEntry s b = emit (entryField (mapping s.huff.freq) b) s := by
  unfold writeEntry entryField
  by_cases hb : entryOf s.huff.freq b = 0
  · rw [if_pos hb, if_pos (mapping_eq_zero.2 hb), emit_nil h]
  · rw [if_neg hb, if_neg (mapping_eq_zero.not.2 hb)]
    have : Ref.entryBytes (b, mapping s.huff.freq b) = [b] ++ leBytes 4 (mapping s.huff.freq b) := rfl
    rw [this, ← emit_append, outBytes_eq_emit, leBytes_one]
    by_cases hc : s.seq.wp.toNat + [b].length > s.cfg.outCap.toNat
    · rw [emit, if_pos hc]; rfl
    · rw [emit, if_neg hc]
      exact outBytes_eq_emit _ _ _

/-- What `WRITE_TABLE` does (rule R162). -/
theorem writeTable_eq (s : State) :
    writeTable s = emit (leBytes 8 s.huff.nsym.toNat ++ (Ref.entries (mapping s.huff.freq)).flatMap Ref.entryBytes) s := by
  unfold writeTable
  rw [outBytes_eq_emit, entries_flatMap]
  have := emit_bind (as := leBytes 8 s.huff.nsym.toNat) (bs := allBytes.flatMap (entryField (mapping s.huff.freq)))
    (s := s) (f := fun t => allBytes.foldlM writeEntry t) (g := id) fun hf => by
      rw [foldlM_eq_emit (s := appendOut (leBytes 8 s.huff.nsym.toNat) s) (P := fun t => t.huff.freq = s.huff.freq)
        (g := entryField (mapping s.huff.freq)) (fun t bs ht => ht)
        (fun t b ht hft => by rw [writeEntry_eq t b hft, ht]) _ rfl hf]
      cases emit _ (appendOut (leBytes 8 s.huff.nsym.toNat) s) <;> rfl
  rw [this]
  cases emit _ s <;> rfl

/-- `L` set. -/
def withLen (l : BitVec 64) (s : State) : State := { s with huff.len := l }

theorem emit_withLen (bs : List Byte) (l : BitVec 64) (s : State) :
    emit bs (withLen l s) = (emit bs s).map (withLen l) := emit_map bs rfl rfl rfl

theorem emit_enter (bs : List Byte) (p : Phase) (s : State) :
    emit bs (s.enter p) = (emit bs s).map (·.enter p) := emit_map (g := (·.enter p)) bs rfl rfl rfl

/-- What `WRITE_BITLEN` does (rule R163). -/
theorem writeBitlen_eq (s : State) {l : Nat} (hl : codedLength s.huff.freq s.huff.code = l) (h : l < 2 ^ 64) :
    writeBitlen s = (emit (leBytes 8 l) s).map (withLen (BitVec.ofNat 64 l)) := by
  have : writeBitlen s = outBytes 8 (BitVec.ofNat 64 l).toNat (withLen (BitVec.ofNat 64 l) s) := by rw [← hl]; rfl
  rw [this, outBytes_eq_emit, emit_withLen, BitVec.toNat_ofNat, Nat.mod_eq_of_lt h]

/-! ## Bit-packer -/

/-- The accumulator after the bits `p`, fewer than 8, of a byte, with `bp` bits put in all. -/
def packed (p : Bits) (bp : BitVec 64) (s : State) : State :=
  { s with huff.acc := payloadByte p 0, huff.nb := BitVec.ofNat 3 p.length, seq.bp := bp }

theorem placeBit_payloadByte (p : Bits) (x : Bool) (h : p.length < 8) :
    placeBit (payloadByte p 0) (BitVec.ofNat 3 p.length) x = payloadByte (p ++ [x]) 0 := by
  refine BitVec.eq_of_getLsbD_eq fun k hk => ?_
  have hnb : (BitVec.ofNat 3 p.length).toNat = p.length := by simp; omega
  unfold placeBit
  rw [BitVec.getLsbD_or, Ref.payloadByte_bit _ _ _ hk, Ref.payloadByte_bit _ _ _ hk, BitVec.getLsbD_shiftLeft, hnb]
  simp only [Nat.mul_zero, Nat.zero_add, List.getD_eq_getElem?_getD]
  rcases Nat.lt_trichotomy (7 - k) p.length with hlt | heq | hgt
  · rw [List.getElem?_append_left hlt]
    have : k - (7 - p.length) ≠ 0 := by omega
    have : ((BitVec.ofBool x).setWidth 8).getLsbD (k - (7 - p.length)) = false := by
      rw [BitVec.getLsbD_setWidth, BitVec.getLsbD_of_ge _ _ (by omega), Bool.and_false]
    simp [this]
  · rw [← heq, List.getElem?_append_right (by omega), List.getElem?_eq_none (by omega)]
    have : k = 7 - p.length := by omega
    subst this
    cases x <;> simp [show 7 - p.length < 8 by omega, heq]
  · rw [List.getElem?_eq_none (by omega), List.getElem?_eq_none (by simp; omega)]
    have : k < 7 - p.length := by omega
    simp [this]

/-- What `PUTBIT` does (rule R165). -/
theorem putBit_packed (p : Bits) (bp : BitVec 64) (s : State) (x : Bool) (h : p.length < 8) :
    putBit (packed p bp s) x =
      if p.length = 7 then (emit [payloadByte (p ++ [x]) 0] s).map (packed [] (bp + 1))
      else .ok (packed (p ++ [x]) (bp + 1) s) := by
  have hpb := placeBit_payloadByte p x h
  unfold putBit
  have hacc : (packed p bp s).huff.acc = payloadByte p 0 := rfl
  have hnb : (packed p bp s).huff.nb = BitVec.ofNat 3 p.length := rfl
  have hbp : (packed p bp s).seq.bp = bp := rfl
  simp only [hacc, hnb, hbp, hpb]
  by_cases h7 : p.length = 7
  · rw [if_pos h7, if_pos (by rw [h7]; rfl), outBytes_eq_emit, leBytes_one]
    let g : State → State := fun t => { packed p bp t with huff.acc := payloadByte (p ++ [x]) 0, seq.bp := bp + 1 }
    have he := emit_map (s := s) (g := g) [payloadByte (p ++ [x]) 0] rfl rfl rfl
    change (emit [payloadByte (p ++ [x]) 0] (g s) >>= _) = _
    rw [he]
    cases emit [payloadByte (p ++ [x]) 0] s <;> rfl
  · have hne : BitVec.ofNat 3 p.length ≠ 7 := by
      intro hh
      have := congrArg BitVec.toNat hh
      simp at this
      omega
    rw [if_neg h7, if_neg hne]
    simp only [packed, List.length_append, List.length_cons, List.length_nil, BitVec.ofNat_add]
    rfl

/-- What a run of `PUTBIT`s does: the full bytes are written, the bits left over are in the accumulator. -/
theorem putBits_packed (bits p : Bits) (bp : BitVec 64) (s : State) (h : p.length < 8) (hs : Fits s) :
    bits.foldlM putBit (packed p bp s) = (emit (fullBytes (p ++ bits)) s).map
      (packed (leftover (p ++ bits)) (bp + BitVec.ofNat 64 bits.length)) := by
  induction bits generalizing p bp s with
  | nil =>
    rw [List.append_nil, Ref.fullBytes_short h, Ref.leftover_short h, emit_nil hs]
    simp [Except.map, List.foldlM, pure, Except.pure]
  | cons x xs ih =>
    have hbp : bp + 1 + BitVec.ofNat 64 xs.length = bp + BitVec.ofNat 64 (x :: xs).length := by
      rw [List.length_cons, BitVec.ofNat_add, BitVec.add_assoc, BitVec.add_comm 1]
      rfl
    rw [List.foldlM_cons, putBit_packed p bp s x h]
    by_cases h7 : p.length = 7
    · rw [if_pos h7]
      have h8 : (p ++ [x]).length = 8 := by simp [h7]
      have happ : p ++ x :: xs = (p ++ [x]) ++ xs := by simp
      rw [happ, Ref.fullBytes_append h8, Ref.leftover_append h8, ← hbp]
      by_cases hc : s.seq.wp.toNat + [payloadByte (p ++ [x]) 0].length > s.cfg.outCap.toNat
      · rw [emit, if_pos hc, emit, if_pos (by simp only [List.length_cons, List.length_nil] at hc ⊢; omega)]
        rfl
      · have he : emit [payloadByte (p ++ [x]) 0] s = .ok (appendOut [payloadByte (p ++ [x]) 0] s) := by
          rw [emit, if_neg hc]
        have := ih [] (bp + 1) (appendOut [payloadByte (p ++ [x]) 0] s) (by simp) (fits_emit he)
        rw [List.nil_append] at this
        rw [← List.singleton_append (l := fullBytes xs), ← emit_append, he]
        exact this
    · rw [if_neg h7]
      have := ih (p ++ [x]) (bp + 1) s (by simp; omega) hs
      rw [hbp, List.append_assoc] at this
      exact this

/-- What `FLUSH` does (rule R166). -/
theorem flush_packed (p : Bits) (bp : BitVec 64) (s : State) (h : p.length < 8) (hs : Fits s) :
    flush (packed p bp s) = (emit (if p = [] then [] else [payloadByte p 0]) s).map (packed [] bp) := by
  unfold flush
  have hnb : (packed p bp s).huff.nb = BitVec.ofNat 3 p.length := rfl
  have hacc : (packed p bp s).huff.acc = payloadByte p 0 := rfl
  rw [hnb, hacc]
  by_cases hp : p = []
  · subst hp
    rw [if_pos (by rfl), if_pos rfl, emit_nil hs]
    rfl
  · have hne : BitVec.ofNat 3 p.length ≠ 0 := by
      intro hh
      have := congrArg BitVec.toNat hh
      have := List.length_pos_of_ne_nil hp
      simp at *
      omega
    rw [if_neg hne, if_neg hp, outBytes_eq_emit, leBytes_one]
    rw [emit_map (s := s) (g := packed p bp) _ rfl rfl rfl]
    cases emit [payloadByte p 0] s <;> rfl

/-- What the packer does with a whole bit sequence (rules R64, R165, R166). -/
theorem putBits_flush (bits : Bits) (bp : BitVec 64) (s : State) (hs : Fits s) :
    (bits.foldlM putBit (packed [] bp s) >>= flush) =
      (emit (packBits bits) s).map (packed [] (bp + BitVec.ofNat 64 bits.length)) := by
  rw [putBits_packed bits [] bp s (by simp) hs, List.nil_append, Ref.packBits_eq, ← emit_append]
  by_cases hc : s.seq.wp.toNat + (fullBytes bits).length > s.cfg.outCap.toNat
  · simp only [emit, if_pos hc]; rfl
  · have he : emit (fullBytes bits) s = .ok (appendOut (fullBytes bits) s) := by rw [emit, if_neg hc]
    rw [he]
    exact flush_packed _ _ _ (by rw [Ref.leftover_length]; omega) (fits_emit he)

theorem putBit_code {s t : State} {x : Bool} (h : putBit s x = .ok t) : t.huff.code = s.huff.code := by
  unfold putBit at h
  simp only [outBytes_eq_emit] at h
  split_ifs at h
  · cases he : emit (leBytes 1 (placeBit s.huff.acc s.huff.nb x).toNat)
      { s with huff.acc := placeBit s.huff.acc s.huff.nb x, seq.bp := s.seq.bp + 1 } with
    | error e => rw [he] at h; cases h
    | ok u =>
      rw [he] at h
      cases h
      rw [(emit_ok he).2]
      rfl
  · cases h; rfl

theorem putBits_code {bits : Bits} {s t : State} (h : bits.foldlM putBit s = .ok t) : t.huff.code = s.huff.code := by
  induction bits generalizing s with
  | nil => cases h; rfl
  | cons x xs ih =>
    rw [List.foldlM_cons] at h
    cases hx : putBit s x with
    | error e => rw [hx] at h; cases h
    | ok u =>
      rw [hx] at h
      rw [ih h, putBit_code hx]

/-- `PACK` puts the bits of all codes one after another (rule R164). -/
theorem packBytes_eq (l : List Byte) (s : State) :
    l.foldlM packByte s = (l.flatMap (entryOf s.huff.code)).foldlM putBit s := by
  induction l generalizing s with
  | nil => rfl
  | cons b bs ih =>
    rw [List.foldlM_cons, List.flatMap_cons, List.foldlM_append, packByte]
    cases hx : (entryOf s.huff.code b).foldlM putBit s with
    | error e => rfl
    | ok t =>
      change bs.foldlM packByte t = _
      rw [ih, putBits_code hx]
      rfl

/-! ## The command -/

/-- The state of `HENC` before it writes (rules R131, R137, R139). -/
def prepare (s : State) : State := codegen ((buildTree ((freqCount (s.enter .hFreq)).enter .hTree)).enter .hCode)

theorem prepare_vis (s : State) : Vis s (prepare s) := by constructor <;> simp [prepare]

theorem prepare_freq (s : State) : (prepare s).huff.freq = countBytes s.input := rfl

theorem prepare_nsym (s : State) : (prepare s).huff.nsym = BitVec.ofNat 9 (distinctBytes (countBytes s.input)) := rfl

theorem prepare_code (s : State) (b : Byte) :
    entryOf (prepare s).huff.code b = Ref.codeOf (Ref.treeOf (mapping (countBytes s.input))) b := by
  have h := codeTable_spec (countBytes s.input) b
  have hroot : (BitVec.ofNat 9 (rootIndex (buildArena (countBytes s.input)))).toNat
      = rootIndex (buildArena (countBytes s.input)) := by
    rw [BitVec.toNat_ofNat]
    refine Nat.mod_eq_of_lt ?_
    by_cases he : ∃ b, entryOf (countBytes s.input) b ≠ 0
    · obtain ⟨t, w, -, -, hr, -, hl, hle⟩ := buildArena_spec _ he
      have := hr.lt_length
      omega
    · have hl : leaves (countBytes s.input) = [] := by
        rw [← List.length_eq_zero_iff, leaves_length, Ref.leafQueue_eq_nil.2 fun b => mapping_eq_zero.2 (by
          by_contra hb; exact he ⟨b, hb⟩)]
        rfl
      simp [buildArena, hl, combine, rootIndex]
  rw [← h, ← hroot]
  rfl

/-- Summing count times length over the byte values is counting the bits of all codes (rule R163). -/
theorem codedLength_eq (bs : List Byte) (c : ByteTable Bits) (h : bs.length < 2 ^ 32) :
    codedLength (countBytes bs) c = (bs.flatMap (entryOf c)).length := by
  have hc : ∀ b, (entryOf (countBytes bs) b).toNat = bs.count b := fun b => countBytes_toNat bs b h
  unfold codedLength
  simp only [hc]
  clear hc h
  induction bs with
  | nil =>
    refine List.sum_eq_zero fun x hx => ?_
    obtain ⟨b, -, rfl⟩ := List.mem_map.1 hx
    rw [List.count_nil, Nat.zero_mul]
  | cons b bs ih =>
    rw [List.flatMap_cons, List.length_append, ← ih]
    have key : ∀ l : List Byte, l.Nodup →
        (l.map fun a => (b :: bs).count a * (entryOf c a).length).sum =
          (if b ∈ l then (entryOf c b).length else 0) + (l.map fun a => bs.count a * (entryOf c a).length).sum := by
      intro l hl
      induction l with
      | nil => simp
      | cons a l ihl =>
        simp only [List.nodup_cons] at hl
        rw [List.map_cons, List.sum_cons, List.map_cons, List.sum_cons, ihl hl.2]
        by_cases hab : a = b
        · subst hab
          rw [List.count_cons_self, if_neg hl.1, if_pos (List.mem_cons_self ..), Nat.add_mul]
          omega
        · rw [List.count_cons_of_ne (Ne.symm hab)]
          simp only [List.mem_cons, Ne.symm hab, false_or]
          omega
    rw [key allBytes allBytes_nodup, if_pos (mem_allBytes b)]

theorem codedLength_lt (bs : List Byte) (c : ByteTable Bits) (h : bs.length < 2 ^ 32)
    (hc : ∀ b, (entryOf c b).length ≤ 255) : codedLength (countBytes bs) c ≤ 255 * bs.length := by
  rw [codedLength_eq bs c h]
  clear h
  induction bs with
  | nil => simp
  | cons b bs ih =>
    rw [List.flatMap_cons, List.length_append, List.length_cons]
    have := hc b
    omega

/-- A code has at most 255 bits (rule R141). -/
theorem codeOf_length_le (f : Byte → Nat) (b : Byte) : (Ref.codeOf (Ref.treeOf f) b).length ≤ 255 := by
  by_cases h : ∃ b, f b ≠ 0
  · obtain ⟨t, ht, hn, -⟩ := Ref.treeOf_spec h
    rw [ht]
    by_cases hb : b ∈ t.bytes
    · have hm := Ref.codeOf_mem hn hb
      have hle : t.bytes.length ≤ 256 := by
        have := (List.subperm_of_subset hn (fun b _ => mem_allBytes b)).length_le
        simpa using this
      cases t with
      | leaf c =>
        simp only [Ref.codes, List.mem_singleton, Prod.mk.injEq] at hm
        rw [hm.2]; simp
      | node l r =>
        have := Ref.paths_length_lt _ _ hm
        simp only at this
        omega
    · have : (Ref.codes t).lookup b = none := by
        cases hl : (Ref.codes t).lookup b with
        | none => rfl
        | some c =>
          refine absurd ?_ hb
          rw [← Ref.codes_bytes]
          exact List.mem_map.2 ⟨_, Ref.lookup_mem hl, rfl⟩
      simp [Ref.codeOf, this]
  · have h' : ∀ b, f b = 0 := fun b => by
      by_contra hb; exact h ⟨b, hb⟩
    rw [Ref.treeOf_eq_none h']
    simp [Ref.codeOf]

/-- `PACK` and `FLUSH` write the packed codes of the input (rules R164 to R166). -/
theorem pack_flush {s : State} (h : Fits s) {bits : Bits} (hb : s.input.flatMap (entryOf s.huff.code) = bits) :
    (pack s >>= flush) = (emit (packBits bits) s).map (packed [] (0 + BitVec.ofNat 64 bits.length)) := by
  rw [← putBits_flush bits 0 s h]
  have hp : pack s = s.input.foldlM packByte (packed [] 0 s) := rfl
  have hcp : (packed [] 0 s).huff.code = s.huff.code := rfl
  rw [hp, packBytes_eq, hcp, hb]

/-- The writing half of `HENC` (rules R162 to R166). -/
theorem writeHuf (p : State) {f : Byte → Nat} {bits : Bits} (hf : mapping p.huff.freq = f)
    (hn : p.huff.nsym.toNat = (Ref.entries f).length) (hl : codedLength p.huff.freq p.huff.code = bits.length)
    (hl' : bits.length < 2 ^ 64) (hb : p.input.flatMap (entryOf p.huff.code) = bits) :
    ∃ g : State → State, (∀ t, Vis t (g t)) ∧
      (writeTable (p.enter .hHdr) >>= fun t => (writeBitlen t >>= fun u => pack (u.enter .hPack) >>= flush)) =
        (emit (Ref.hufContainer (Ref.entries f) bits) p).map g := by
  obtain ⟨len, hlen⟩ : ∃ len, len = BitVec.ofNat 64 bits.length := ⟨_, rfl⟩
  obtain ⟨bp, hbp⟩ : ∃ bp, bp = 0 + BitVec.ofNat 64 bits.length := ⟨_, rfl⟩
  refine ⟨fun t => packed [] bp ((withLen len (t.enter .hHdr)).enter .hPack),
    fun t => ⟨rfl, rfl, rfl, rfl, rfl, rfl, rfl, rfl, rfl, rfl, rfl⟩, ?_⟩
  have htab : writeTable (p.enter .hHdr) = (emit (leBytes 8 (Ref.entries f).length
      ++ (Ref.entries f).flatMap Ref.entryBytes) p).map (·.enter .hHdr) := by
    rw [writeTable_eq, ← emit_enter]
    have h₁ : (p.enter .hHdr).huff.nsym = p.huff.nsym := rfl
    have h₂ : (p.enter .hHdr).huff.freq = p.huff.freq := rfl
    rw [h₁, h₂, hn, hf]
  rw [htab]
  have hcont : Ref.hufContainer (Ref.entries f) bits = (leBytes 8 (Ref.entries f).length
      ++ (Ref.entries f).flatMap Ref.entryBytes) ++ (leBytes 8 bits.length ++ packBits bits) := by
    simp only [Ref.hufContainer, List.append_assoc]
  rw [hcont]
  generalize leBytes 8 (Ref.entries f).length ++ (Ref.entries f).flatMap Ref.entryBytes = table
  have hpay : ∀ t : State, Fits t → t.huff = p.huff → t.input = p.input →
      (writeBitlen t >>= fun u => pack (u.enter .hPack) >>= flush) =
        (emit (leBytes 8 bits.length ++ packBits bits) t).map fun u => packed [] bp ((withLen len u).enter .hPack) := by
    intro t ht hh hi
    rw [writeBitlen_eq t (by rw [hh]; exact hl) hl', ← hlen]
    have := emit_bind (as := leBytes 8 bits.length) (bs := packBits bits) (s := t)
      (f := fun u => pack ((withLen len u).enter .hPack) >>= flush)
      (g := fun u => packed [] bp ((withLen len u).enter .hPack))
      (fun hfu => by
        have hb' : ((withLen len (appendOut (leBytes 8 bits.length) t)).enter .hPack).input.flatMap
            (entryOf ((withLen len (appendOut (leBytes 8 bits.length) t)).enter .hPack).huff.code) = bits := by
          have hc' : ((withLen len (appendOut (leBytes 8 bits.length) t)).enter .hPack).huff.code = p.huff.code := by
            show t.huff.code = _
            rw [hh]
          have hi' : ((withLen len (appendOut (leBytes 8 bits.length) t)).enter .hPack).input = p.input := hi
          rw [hc', hi', hb]
        have hfu' : Fits ((withLen len (appendOut (leBytes 8 bits.length) t)).enter .hPack) := hfu
        show (pack ((withLen len (appendOut (leBytes 8 bits.length) t)).enter .hPack) >>= flush) = _
        rw [pack_flush hfu' hb', emit_enter, emit_withLen, ← hbp]
        cases emit (packBits bits) (appendOut (leBytes 8 bits.length) t) <;> rfl)
    rw [← this]
    cases emit (leBytes 8 bits.length) t <;> rfl
  have := emit_bind (as := table) (bs := leBytes 8 bits.length ++ packBits bits) (s := p)
    (f := fun t => writeBitlen (t.enter .hHdr) >>= fun u => pack (u.enter .hPack) >>= flush)
    (g := fun t => packed [] bp ((withLen len (t.enter .hHdr)).enter .hPack))
    (fun hfu => by
      have hfu' : Fits ((appendOut table p).enter .hHdr) := hfu
      show (writeBitlen ((appendOut table p).enter .hHdr) >>= fun u => pack (u.enter .hPack) >>= flush) = _
      rw [hpay _ hfu' rfl rfl, emit_enter]
      cases emit (leBytes 8 bits.length ++ packBits bits) (appendOut table p) <;> rfl)
  rw [← this]
  cases emit table p <;> rfl

/-- The phases of `HENC` as one write (rule R161). -/
theorem runHenc_eq {s : State} (hdis : dispatchCheck true s = .ok s) :
    runHenc s = ((writeTable ((prepare s).enter .hHdr) >>= fun t =>
      (writeBitlen t >>= fun u => pack (u.enter .hPack) >>= flush)) >>= fun u => .ok (u, false)) := by
  unfold runHenc
  rw [hdis]
  change (writeTable ((prepare s).enter .hHdr) >>= _) = _
  cases writeTable ((prepare s).enter .hHdr) with
  | error e => rfl
  | ok t =>
    change (writeBitlen t >>= _) = ((writeBitlen t >>= _) >>= _)
    cases writeBitlen t with
    | error e => rfl
    | ok u =>
      change (pack (u.enter .hPack) >>= _) = ((pack (u.enter .hPack) >>= _) >>= _)
      cases pack (u.enter .hPack) <;> rfl

/-- The run of `HENC` writes the container that Reference.lean describes, or does not fit (rule R161). -/
theorem runHenc_spec (s : State) (hn : s.seq.n.toNat ≠ 0) (hl : s.seq.n.toNat ≤ s.cfg.inCap.toNat) :
    ∃ g : State → State, (∀ t, Vis t (g t)) ∧
      runHenc s = (emit (Ref.hencContainer s.input) (prepare s)).map fun t => (g t, false) := by
  have hlen : s.input.length < 2 ^ 32 := by rw [input_length]; have := s.cfg.inCap.isLt; omega
  have hmap : mapping (countBytes s.input) = Ref.freqOf s.input := mapping_countBytes _ hlen
  have hcode : ∀ b, entryOf (prepare s).huff.code b = Ref.codeOf (Ref.treeOf (Ref.freqOf s.input)) b := fun b => by
    rw [prepare_code, hmap]
  have hcode' : entryOf (prepare s).huff.code = Ref.codeOf (Ref.treeOf (Ref.freqOf s.input)) := funext hcode
  have hL : codedLength (prepare s).huff.freq (prepare s).huff.code
      = (s.input.flatMap (Ref.codeOf (Ref.treeOf (Ref.freqOf s.input)))).length := by
    rw [prepare_freq, codedLength_eq _ _ hlen, hcode']
  have hLlt : (s.input.flatMap (Ref.codeOf (Ref.treeOf (Ref.freqOf s.input)))).length < 2 ^ 64 := by
    have := codedLength_lt s.input (prepare s).huff.code hlen fun b => by rw [hcode]; exact codeOf_length_le _ _
    rw [← hL, prepare_freq]
    omega
  have hnsym : (prepare s).huff.nsym.toNat = (Ref.entries (Ref.freqOf s.input)).length := by
    rw [prepare_nsym, ← hmap, entries_length, BitVec.toNat_ofNat]
    have := distinctBytes_le (countBytes s.input)
    exact Nat.mod_eq_of_lt (by omega)
  have hin : (prepare s).input = s.input := (prepare_vis s).input
  obtain ⟨g, hg, hw⟩ := writeHuf (prepare s) (f := Ref.freqOf s.input) (by rw [prepare_freq, hmap]) hnsym hL hLlt
    (by rw [hin, hcode'])
  refine ⟨g, hg, ?_⟩
  have hrun := runHenc_eq (s := s) (by rw [dispatchCheck_eq, if_neg (by omega), if_neg fun h => hn h.2])
  rw [hrun, hw, Ref.hencContainer]
  cases emit (Ref.hufContainer (Ref.entries (Ref.freqOf s.input))
    (s.input.flatMap (Ref.codeOf (Ref.treeOf (Ref.freqOf s.input))))) (prepare s) <;> rfl

/-- The run of an accepted `HENC` gives what Reference.lean computes. -/
theorem runHenc_result (s : State) (hs : s.Accepted) : Result s (runHenc s) (Ref.run .henc s.cfg s.seq.n.toNat s.input) := by
  unfold Ref.run
  by_cases hl : s.seq.n.toNat > s.cfg.inCap.toNat
  · rw [if_pos hl]
    simp only [runHenc, dispatchCheck_eq, if_pos hl]
    rfl
  · rw [if_neg hl]
    by_cases hn : s.seq.n.toNat = 0
    · simp only [runHenc, dispatchCheck_eq, hn, if_true, and_self]
      rfl
    · simp only [if_neg hn]
      obtain ⟨g, hg, hr⟩ := runHenc_spec s hn (by omega)
      have hv := prepare_vis s
      have hwp : (prepare s).seq.wp.toNat = 0 := by rw [hv.wp, hs.wp]; rfl
      rw [hr, Ref.henc, Ref.fit]
      by_cases hc : (Ref.hencContainer s.input).length ≤ s.cfg.outCap.toNat
      · rw [if_pos hc, emit, if_neg (by rw [hwp, hv.cfg]; omega)]
        exact ⟨hc, _, rfl, (hv.appendOut _).trans (hg _)⟩
      · rw [if_neg hc, emit, if_pos (by rw [hwp, hv.cfg]; omega)]
        rfl

end Sys2Proof.Machine
end

