-- ==== Sys2Proof/Laws/LzwDict.lean ====
section
/-! SUPPORT. The table of (prefix code, byte) pairs and the list of strings of Reference.lean are the same dictionary
(rule R208). -/

namespace Sys2Proof.Machine

/-- Every prefix is a code smaller than its entry's own (rule R47). -/
def Linked (d : List DictEntry) : Prop := ∀ (j : Nat) (e : DictEntry), d[j]? = some e → e.pfx.toNat < 256 + j

/-- The string of a code (rule R47). -/
def strOf (d : List DictEntry) (c : Nat) : List Byte := codeString d c c

/-- All strings, in the order of their codes. -/
def strings (d : List DictEntry) : List (List Byte) := (List.range (256 + d.length)).map (strOf d)

theorem linked_nil : Linked [] := by intro j e h; simp at h

theorem Linked.append {d : List DictEntry} (h : Linked d) {e : DictEntry} (he : e.pfx.toNat < 256 + d.length) :
    Linked (d ++ [e]) := by
  intro j f hf
  by_cases hj : j < d.length
  · rw [List.getElem?_append_left hj] at hf
    exact h j f hf
  · rw [List.getElem?_append_right (by omega)] at hf
    by_cases hj' : j = d.length
    · subst hj'
      simp only [Nat.sub_self, List.getElem?_cons_zero, Option.some.injEq] at hf
      subst hf
      exact he
    · rw [List.getElem?_eq_none (by simp; omega)] at hf
      cases hf

theorem codeString_seed (d : List DictEntry) (k c : Nat) (h : c < 256) : codeString d k c = [BitVec.ofNat 8 c] := by
  cases k with
  | zero => rfl
  | succ k => rw [codeString, if_pos h]

/-- Enough links are enough. -/
theorem codeString_fuel {d : List DictEntry} (h : Linked d) (c : Nat) : ∀ k, c ≤ k → codeString d k c = strOf d c := by
  induction c using Nat.strongRecOn with
  | _ c ih =>
    intro k hk
    by_cases hc : c < 256
    · rw [codeString_seed d k c hc, strOf, codeString_seed d c c hc]
    · obtain ⟨k, rfl⟩ : ∃ k', k = k' + 1 := ⟨k - 1, by omega⟩
      obtain ⟨c, rfl⟩ : ∃ c', c = c' + 1 := ⟨c - 1, by omega⟩
      rw [strOf, codeString, codeString, if_neg hc, if_neg hc]
      cases he : d[c + 1 - Config.dictSeed]? with
      | none => rfl
      | some e =>
        have := h _ _ he
        simp only [Config.dictSeed] at this
        simp only
        rw [ih e.pfx.toNat (by omega) k (by omega), ih e.pfx.toNat (by omega) c (by omega)]

theorem strOf_seed (d : List DictEntry) {c : Nat} (h : c < 256) : strOf d c = [BitVec.ofNat 8 c] := codeString_seed d c c h

theorem strOf_entry {d : List DictEntry} (h : Linked d) {j : Nat} {e : DictEntry} (he : d[j]? = some e) :
    strOf d (256 + j) = strOf d e.pfx.toNat ++ [e.ch] := by
  have hp := h j e he
  rw [strOf, show 256 + j = (255 + j) + 1 by omega, codeString, if_neg (by simp only [Config.dictSeed]; omega),
    show 255 + j + 1 - Config.dictSeed = j by simp only [Config.dictSeed]; omega, he]
  simp only
  rw [codeString_fuel h _ _ (by omega)]

theorem strOf_length_pos {d : List DictEntry} (h : Linked d) {c : Nat} (hc : c < 256 + d.length) : strOf d c ≠ [] := by
  by_cases hs : c < 256
  · simp [strOf_seed d hs]
  · obtain ⟨j, rfl⟩ : ∃ j, c = 256 + j := ⟨c - 256, by omega⟩
    have hj : j < d.length := by omega
    rw [strOf_entry h (List.getElem?_eq_getElem hj)]
    simp

theorem strOf_append {d : List DictEntry} (h : Linked d) (e : DictEntry) (he : e.pfx.toNat < 256 + d.length) (c : Nat)
    (hc : c < 256 + d.length) : strOf (d ++ [e]) c = strOf d c := by
  induction c using Nat.strongRecOn with
  | _ c ih =>
    by_cases hs : c < 256
    · rw [strOf_seed _ hs, strOf_seed _ hs]
    · obtain ⟨j, rfl⟩ : ∃ j, c = 256 + j := ⟨c - 256, by omega⟩
      have hj : j < d.length := by omega
      have hf : d[j]? = some d[j] := List.getElem?_eq_getElem hj
      have hf' : (d ++ [e])[j]? = some d[j] := by rw [List.getElem?_append_left hj, hf]
      have hlt := h j _ hf
      rw [strOf_entry (h.append he) hf', strOf_entry h hf, ih _ (by omega) (by omega)]

@[simp] theorem strings_length (d : List DictEntry) : (strings d).length = 256 + d.length := by simp [strings]

theorem strings_getElem? (d : List DictEntry) {c : Nat} (h : c < 256 + d.length) : (strings d)[c]? = some (strOf d c) := by
  rw [strings, List.getElem?_map, List.getElem?_range h]; rfl

theorem strings_nil : strings [] = Ref.seed := by
  unfold strings Ref.seed allBytes
  rw [List.map_map]
  refine List.map_congr_left fun c hc => ?_
  exact strOf_seed [] (by simpa using hc)

theorem strings_append {d : List DictEntry} (h : Linked d) (e : DictEntry) (he : e.pfx.toNat < 256 + d.length) :
    strings (d ++ [e]) = strings d ++ [strOf d e.pfx.toNat ++ [e.ch]] := by
  unfold strings
  rw [List.length_append, List.length_cons, List.length_nil, ← Nat.add_assoc, List.range_succ, List.map_append,
    List.map_cons, List.map_nil]
  congr 1
  · refine List.map_congr_left fun c hc => strOf_append h e he c (by simpa using hc)
  · have hf : (d ++ [e])[d.length]? = some e := by simp
    rw [strOf_entry (h.append he) hf, strOf_append h e he _ he]

/-- `FIRST` is the first byte of the string (rule R205). -/
theorem chainFirst_spec {d : List DictEntry} (h : Linked d) (c : Nat) (hc : c < 256 + d.length) :
    ∀ k, c ≤ k → (strOf d c).head? = some (chainFirst d k c) := by
  induction c using Nat.strongRecOn with
  | _ c ih =>
    intro k hk
    by_cases hs : c < 256
    · rw [strOf_seed d hs]
      cases k with
      | zero => rfl
      | succ k => rw [chainFirst, if_pos hs]; rfl
    · obtain ⟨k, rfl⟩ : ∃ k', k = k' + 1 := ⟨k - 1, by omega⟩
      obtain ⟨j, rfl⟩ : ∃ j, c = 256 + j := ⟨c - 256, by omega⟩
      have hj : j < d.length := by omega
      have hf : d[j]? = some d[j] := List.getElem?_eq_getElem hj
      have hlt := h j _ hf
      rw [strOf_entry h hf, chainFirst, if_neg hs, show 256 + j - Config.dictSeed = j by simp only [Config.dictSeed]; omega, hf]
      simp only
      rw [List.head?_append, ih _ (by omega) (by omega) k (by omega)]
      rfl

/-! ## Search -/

theorem searchFrom_some {p : BitVec 12} {b : Byte} {k m : Nat} {es : List DictEntry} (h : searchFrom p b k es = some m) :
    k ≤ m ∧ es[m - k]? = some { pfx := p, ch := b } ∧ ∀ j, j < m - k → es[j]? ≠ some { pfx := p, ch := b } := by
  induction es generalizing k with
  | nil => simp [searchFrom] at h
  | cons e es ih =>
    unfold searchFrom at h
    split_ifs at h with hc
    · cases h
      obtain ⟨rfl, rfl⟩ := hc
      refine ⟨Nat.le_refl _, by simp, fun j hj => ?_⟩
      omega
    · obtain ⟨h₁, h₂, h₃⟩ := ih h
      refine ⟨by omega, ?_, fun j hj => ?_⟩
      · rw [show m - k = (m - (k + 1)) + 1 by omega, List.getElem?_cons_succ]; exact h₂
      · cases j with
        | zero =>
          simp only [List.getElem?_cons_zero, ne_eq, Option.some.injEq]
          intro he
          exact hc (by rw [he]; exact ⟨rfl, rfl⟩)
        | succ j => rw [List.getElem?_cons_succ]; exact h₃ j (by omega)

theorem searchFrom_none {p : BitVec 12} {b : Byte} {k : Nat} {es : List DictEntry} (h : searchFrom p b k es = none) (j : Nat) :
    es[j]? ≠ some { pfx := p, ch := b } := by
  induction es generalizing k j with
  | nil => simp
  | cons e es ih =>
    unfold searchFrom at h
    split_ifs at h with hc
    cases j with
    | zero =>
      simp only [List.getElem?_cons_zero, ne_eq, Option.some.injEq]
      intro he
      exact hc (by rw [he]; exact ⟨rfl, rfl⟩)
    | succ j => rw [List.getElem?_cons_succ]; exact ih h j

/-- In a dictionary without repeated strings, searching for a pair is searching for a string (rules R203, R209). -/
theorem searchFrom_strings {d : List DictEntry} (h : Linked d) (hn : (strings d).Nodup) {p : BitVec 12}
    (hp : p.toNat < 256 + d.length) (b : Byte) :
    match searchFrom p b 256 d with
    | some k => k < 256 + d.length ∧ strOf d k = strOf d p.toNat ++ [b]
    | none => strOf d p.toNat ++ [b] ∉ strings d := by
  cases hs : searchFrom p b 256 d with
  | some k =>
    obtain ⟨h₁, h₂, -⟩ := searchFrom_some hs
    have hk := (List.getElem?_eq_some_iff.1 h₂).1
    refine ⟨by omega, ?_⟩
    have := strOf_entry h h₂
    rw [show 256 + (k - 256) = k by omega] at this
    exact this
  | none =>
    intro hm
    obtain ⟨c, hc, heq⟩ := List.mem_map.1 hm
    rw [List.mem_range] at hc
    have hpos := strOf_length_pos h hp
    by_cases hc' : c < 256
    · rw [strOf_seed d hc'] at heq
      have := congrArg List.length heq
      simp only [List.length_cons, List.length_nil, List.length_append] at this
      exact hpos (List.length_eq_zero_iff.1 (by omega))
    · obtain ⟨j, rfl⟩ : ∃ j, c = 256 + j := ⟨c - 256, by omega⟩
      have hj : j < d.length := by omega
      have hf : d[j]? = some d[j] := List.getElem?_eq_getElem hj
      rw [strOf_entry h hf] at heq
      have hinj := List.append_inj' heq rfl
      have hlt := h j _ hf
      have h₁ : (strings d)[(d[j]).pfx.toNat]? = (strings d)[p.toNat]? := by
        rw [strings_getElem? d (by omega), strings_getElem? d hp, hinj.1]
      have h₂ := (List.nodup_iff_getElem?_ne_getElem?.1 hn)
      have hpe : (d[j]).pfx.toNat = p.toNat := by
        by_contra hne
        rcases Nat.lt_or_gt_of_ne hne with hlt' | hgt
        · exact h₂ _ _ hlt' (by rw [strings_length]; omega) h₁
        · exact h₂ _ _ hgt (by rw [strings_length]; omega) h₁.symm
      have hpe' : (d[j]).pfx = p := BitVec.eq_of_toNat_eq hpe
      have hce : (d[j]).ch = b := by simpa using hinj.2
      refine searchFrom_none hs j ?_
      rw [hf]
      congr 1
      cases hd : d[j] with
      | mk q c =>
        rw [hd] at hpe' hce
        simp only at hpe' hce
        rw [hpe', hce]

theorem idxOf_strings {d : List DictEntry} (hn : (strings d).Nodup) {c : Nat} (hc : c < 256 + d.length) :
    (strings d).idxOf (strOf d c) = c := by
  have hl : c < (strings d).length := by simpa using hc
  have h := strings_getElem? d hc
  rw [List.getElem?_eq_getElem hl, Option.some.injEq] at h
  rw [← h]
  exact hn.idxOf_getElem c hl

/-! ## Adding -/

/-- The dictionary registers are in step: as many entries as `NEXT` says, at most 4096, prefixes smaller (rules R202, R206). -/
structure DictOk (s : State) : Prop where
  next : s.lzw.next.toNat = 256 + s.lzw.dict.length
  cap : s.lzw.next.toNat ≤ 4096
  linked : Linked s.lzw.dict

theorem dictInit_ok (s : State) : DictOk (dictInit s) := ⟨rfl, by simp [dictInit], linked_nil⟩

/-- What `DICT_ADD` does to the strings (rule R206). -/
theorem dictAdd_spec {s : State} (h : DictOk s) {p : BitVec 12} (hp : p.toNat < s.lzw.next.toNat) (b : Byte) :
    DictOk (dictAdd p b s) ∧
    strings (dictAdd p b s).lzw.dict = Ref.add (strings s.lzw.dict) (strOf s.lzw.dict p.toNat ++ [b]) ∧
    (∀ c, c < s.lzw.next.toNat → strOf (dictAdd p b s).lzw.dict c = strOf s.lzw.dict c) ∧
    (dictAdd p b s).lzw.next.toNat = min 4096 (s.lzw.next.toNat + 1) := by
  have hn := h.next
  have hadd : Ref.add (strings s.lzw.dict) (strOf s.lzw.dict p.toNat ++ [b]) =
      if s.lzw.next.toNat < 4096 then strings s.lzw.dict ++ [strOf s.lzw.dict p.toNat ++ [b]]
      else strings s.lzw.dict := by
    unfold Ref.add
    rw [strings_length, ← hn]
  rw [hadd]
  unfold dictAdd
  by_cases hc : s.lzw.next.toNat < 4096
  · have htake : s.lzw.dict.take (s.lzw.next.toNat - Config.dictSeed) = s.lzw.dict := by
      rw [List.take_of_length_le]; simp only [Config.dictSeed]; omega
    have hnext : (s.lzw.next + 1).toNat = s.lzw.next.toNat + 1 := by
      rw [BitVec.toNat_add]; exact Nat.mod_eq_of_lt (by simp; omega)
    rw [if_pos (show s.lzw.next.toNat < Config.dictCap from hc), if_pos hc]
    simp only [htake]
    have he : (({ pfx := p, ch := b } : DictEntry)).pfx.toNat < 256 + s.lzw.dict.length := by simpa [hn] using hp
    refine ⟨⟨?_, ?_, h.linked.append he⟩, strings_append h.linked _ he, fun c hlt => ?_, ?_⟩
    · show (s.lzw.next + 1).toNat = 256 + (s.lzw.dict ++ [_]).length
      rw [hnext, List.length_append, List.length_cons, List.length_nil]; omega
    · show (s.lzw.next + 1).toNat ≤ 4096
      omega
    · exact strOf_append h.linked _ he c (by omega)
    · omega
  · rw [if_neg (show ¬ s.lzw.next.toNat < Config.dictCap from hc), if_neg hc]
    refine ⟨h, rfl, fun _ _ => rfl, ?_⟩
    have := h.cap
    omega

theorem dictAdd_vis (p : BitVec 12) (b : Byte) (s : State) : Vis s (dictAdd p b s) := by
  constructor <;> simp

theorem dictAdd_ccnt (p : BitVec 12) (b : Byte) (s : State) : (dictAdd p b s).lzw.ccnt = s.lzw.ccnt := by
  unfold dictAdd; split_ifs <;> rfl

end Sys2Proof.Machine
end

