-- ==== Sys2Proof/Laws/LzwDecode.lean ====
section
/-! SUPPORT. What `LDEC` does: one code, all codes, and its run as a whole (`runLdec_result`). -/

namespace Sys2Proof.Machine

/-- The decoder's dictionary and its string `previous` (rules R202, R243). -/
structure DecOk (s : State) : Prop where
  dict : DictOk s
  prev : s.lzw.prev.toNat < s.lzw.next.toNat

theorem DictOk.congr {s t : State} (h : DictOk s) (hl : t.lzw.dict = s.lzw.dict) (hn : t.lzw.next = s.lzw.next) : DictOk t :=
  ⟨by rw [hn, hl]; exact h.next, by rw [hn]; exact h.cap, by rw [hl]; exact h.linked⟩

/-- The code register set. -/
def setCode (v : Nat) (s : State) : State := { s with lzw.codev := BitVec.ofNat 32 v }

theorem setCode_vis (v : Nat) (s : State) : Vis s (setCode v s) := ⟨rfl, rfl, rfl, rfl, rfl, rfl, rfl, rfl, rfl, rfl, rfl⟩

/-- `previous` becomes the string of the code just read, and one more code is done. -/
def nextPrev (s : State) : State := { s with lzw.prev := s.lzw.codev.setWidth 12, lzw.cidx := s.lzw.cidx + 1 }

theorem nextPrev_vis (s : State) : Vis s (nextPrev s) := ⟨rfl, rfl, rfl, rfl, rfl, rfl, rfl, rfl, rfl, rfl, rfl⟩

/-- A 32-bit field read as two's complement (rule R63). -/
theorem toInt_ofNat {v : Nat} (h : v < 2 ^ 32) : (BitVec.ofNat 32 v).toInt = Ref.signed32 v := by
  rw [BitVec.toInt_eq_toNat_cond, BitVec.toNat_ofNat, Nat.mod_eq_of_lt h, Ref.signed32]
  split_ifs <;> omega

/-- What `READ_CODE` does (rule R239). -/
theorem readCode_eq {s : State} (h : Reads s) :
    readCode s = (Ref.field 4 (rest s)).map fun p => setCode p.1 (advance 4 s) := by
  unfold readCode
  rw [inBytes_field 4 h]
  cases Ref.field 4 (rest s) <;> rfl

/-- What `EMIT_STRING` does (rule R244). -/
theorem emitString_eq (bs : List Byte) (s : State) : emitString bs s = emit bs s := by
  unfold emitString emit
  split_ifs with h
  · rfl
  · have := foldlM_eq_emit (f := fun s (b : Byte) => outBytes 1 b.toNat s) (g := fun b => [b]) (P := fun _ => True)
      (fun _ _ _ => trivial) (fun s b _ _ => by rw [outBytes_eq_emit, leBytes_one]) bs s trivial (by unfold Fits; omega)
    rw [this, List.flatMap_singleton', emit, if_neg h]

theorem take_one_of_head? {α : Type} {l : List α} {a : α} (h : l.head? = some a) : l.take 1 = [a] := by
  cases l with
  | nil => cases h
  | cons b l => simp only [List.head?_cons, Option.some.injEq] at h; simp [h]

/-- Step 1 of `NEXT_CODE`, as Reference.lean classifies a code, and what adding then leaves (rules R241 to R243, R245). -/
theorem classifyCode_spec {s : State} (h : DecOk s) :
    match Ref.current (strings s.lzw.dict) (strOf s.lzw.dict s.lzw.prev.toNat) s.lzw.codev.toInt with
    | .error e => classifyCode s = .error e
    | .ok cur => classifyCode s = .ok cur ∧
      ∀ u : State, u.lzw = s.lzw → DictOk (dictAdd s.lzw.prev (cur.headD 0) u) ∧
        strings (dictAdd s.lzw.prev (cur.headD 0) u).lzw.dict =
          Ref.add (strings s.lzw.dict) (strOf s.lzw.dict s.lzw.prev.toNat ++ cur.take 1) ∧
        strOf (dictAdd s.lzw.prev (cur.headD 0) u).lzw.dict (s.lzw.codev.setWidth 12).toNat = cur ∧
        (s.lzw.codev.setWidth 12).toNat < (dictAdd s.lzw.prev (cur.headD 0) u).lzw.next.toNat ∧
        (dictAdd s.lzw.prev (cur.headD 0) u).lzw.next.toNat = min 4096 (s.lzw.next.toNat + 1) := by
  have hnx := h.dict.next
  have hcap := h.dict.cap
  have hprev := h.prev
  have hlen : ((strings s.lzw.dict).length : Int) = (s.lzw.next.toNat : Int) := by rw [strings_length, hnx]
  have hcode : ∀ c : Nat, s.lzw.codev.toInt = c → c < 4096 → (s.lzw.codev.setWidth 12).toNat = c := by
    intro c hc hlt
    have hb := s.lzw.codev.isLt
    rw [BitVec.toInt_eq_toNat_cond] at hc
    rw [BitVec.toNat_setWidth]
    split_ifs at hc <;> omega
  have hfirst := chainFirst_spec h.dict.linked s.lzw.prev.toNat (by omega) _ (Nat.le_refl _)
  have hadd : ∀ (b : Byte) (u : State), u.lzw = s.lzw → DictOk (dictAdd s.lzw.prev b u) ∧
      strings (dictAdd s.lzw.prev b u).lzw.dict = Ref.add (strings s.lzw.dict) (strOf s.lzw.dict s.lzw.prev.toNat ++ [b]) ∧
      (∀ c, c < s.lzw.next.toNat → strOf (dictAdd s.lzw.prev b u).lzw.dict c = strOf s.lzw.dict c) ∧
      (dictAdd s.lzw.prev b u).lzw.next.toNat = min 4096 (s.lzw.next.toNat + 1) := by
    intro b u hu
    have := dictAdd_spec (s := u) (h.dict.congr (by rw [hu]) (by rw [hu])) (p := s.lzw.prev) (by rw [hu]; exact hprev) b
    rw [hu] at this
    exact this
  have hrun : classifyCode s =
      if 0 ≤ s.lzw.codev.toInt ∧ s.lzw.codev.toInt < (s.lzw.next.toNat : Int) then
        .ok (strOf s.lzw.dict s.lzw.codev.toInt.toNat)
      else if s.lzw.codev.toInt = (s.lzw.next.toNat : Int) ∧ s.lzw.next.toNat < 4096 then
        .ok (strOf s.lzw.dict s.lzw.prev.toNat ++ [chainFirst s.lzw.dict s.lzw.prev.toNat s.lzw.prev.toNat])
      else .error .fmtCode := rfl
  unfold Ref.current
  rw [hrun, hlen]
  by_cases h₁ : 0 ≤ s.lzw.codev.toInt ∧ s.lzw.codev.toInt < (s.lzw.next.toNat : Int)
  · rw [if_pos h₁, if_pos h₁]
    obtain ⟨c, hc⟩ := Int.eq_ofNat_of_zero_le h₁.1
    have hlt : c < s.lzw.next.toNat := by omega
    have hget : (strings s.lzw.dict).getD c [] = strOf s.lzw.dict c := by
      rw [List.getD_eq_getElem?_getD, strings_getElem? _ (by omega)]; rfl
    rw [hc]
    simp only [Int.toNat_natCast, hget, true_and]
    intro u hu
    have hhead := chainFirst_spec h.dict.linked c (by omega) _ (Nat.le_refl _)
    obtain ⟨a₁, a₂, a₃, a₄⟩ := hadd ((strOf s.lzw.dict c).headD 0) u hu
    rw [hcode c hc (by omega)]
    refine ⟨a₁, ?_, a₃ c hlt, by omega, a₄⟩
    rw [a₂, take_one_of_head? hhead, List.headD_eq_head?_getD, hhead]
    rfl
  · rw [if_neg h₁, if_neg h₁]
    by_cases h₂ : s.lzw.codev.toInt = (s.lzw.next.toNat : Int) ∧ s.lzw.next.toNat < 4096
    · rw [if_pos h₂, if_pos ⟨h₂.1, by rw [strings_length]; omega⟩, take_one_of_head? hfirst]
      refine ⟨rfl, fun u hu => ?_⟩
      generalize chainFirst s.lzw.dict s.lzw.prev.toNat s.lzw.prev.toNat = b at *
      have hhd : (strOf s.lzw.dict s.lzw.prev.toNat ++ [b]).head? = some b := by
        rw [List.head?_append, hfirst]; rfl
      rw [List.headD_eq_head?_getD, take_one_of_head? hhd, hhd]
      obtain ⟨a₁, a₂, a₃, a₄⟩ := hadd b u hu
      rw [Option.getD_some, hcode _ h₂.1 h₂.2]
      refine ⟨a₁, a₂, ?_, by omega, a₄⟩
      have hn := a₁.next
      have hs := strings_getElem? (dictAdd s.lzw.prev b u).lzw.dict (c := s.lzw.next.toNat) (by omega)
      rw [a₂, Ref.add, if_pos (by rw [strings_length]; omega), List.getElem?_append_right (by rw [strings_length]; omega),
        strings_length, show s.lzw.next.toNat - (256 + s.lzw.dict.length) = 0 by omega] at hs
      simpa using hs.symm
    · rw [if_neg h₂, if_neg (by rw [strings_length, ← hnx]; exact h₂)]

/-- One round of the loop of `Z_CODES`, then the others (rule R236). -/
theorem decodeCodes_succ (k : Nat) (s : State) :
    decodeCodes (k + 1) s = (readCode s >>= fun t => ((if t.lzw.cidx = 0 then firstCode t else nextCode t) >>= fun t =>
      decodeCodes k { t with lzw.cidx := t.lzw.cidx + 1 })) := by
  conv_lhs => rw [decodeCodes, decodeOne]
  cases readCode s with
  | error e => rfl
  | ok t =>
    simp only [bind, Except.bind]
    split_ifs
    · cases firstCode t <;> rfl
    · cases nextCode t <;> rfl

/-- The codes after the first, as Reference.lean decodes them (rules R239, R241, R243). -/
theorem decodeRest_spec (k : Nat) (s : State) (h : DecOk s) (hr : Reads s) (hf : Fits s) (hi : s.lzw.cidx ≠ 0)
    (hk : s.lzw.cidx.toNat + k < 2 ^ 64) :
    match Ref.decodeRest k (strings s.lzw.dict) (strOf s.lzw.dict s.lzw.prev.toNat)
      (s.cfg.outCap.toNat - s.seq.wp.toNat) (rest s) with
    | .error e => decodeCodes k s = .error e
    | .ok (out, bs) => s.seq.wp.toNat + out.length ≤ s.cfg.outCap.toNat ∧
      ∃ t, decodeCodes k s = .ok t ∧ Vis (appendOut out s) t ∧ rest t = bs ∧ Reads t ∧ DictOk t ∧
        t.lzw.next.toNat = min 4096 (s.lzw.next.toNat + k) := by
  induction k generalizing s with
  | zero =>
    refine ⟨by simpa [Fits] using hf, s, rfl, ?_, rfl, hr, h.dict, by have := h.dict.cap; omega⟩
    rw [appendOut_nil]; exact Vis.refl s
  | succ k ih =>
    unfold Ref.decodeRest
    rw [decodeCodes_succ, readCode_eq hr]
    cases hfield : Ref.field 4 (rest s) with
    | error e => rfl
    | ok p =>
    obtain ⟨v, bs₁⟩ := p
    obtain ⟨hl, hbs, -, hv⟩ := field_ok hfield
    have hra := rest_advance (n := 4) (s := s) (by rw [rest_length] at hl; unfold Reads at hr; omega)
    obtain ⟨u, hu⟩ : ∃ u, u = setCode v (advance 4 s) := ⟨_, rfl⟩
    have hvu : Vis s u := by rw [hu]; exact (advance_vis 4 s).trans (setCode_vis _ _)
    have hru : rest u = bs₁ := by rw [hbs, ← hra.1, hu]; rfl
    have hrd : Reads u := by rw [hu]; exact hra.2
    have hlu : u.lzw = { s.lzw with codev := BitVec.ofNat 32 v } := by rw [hu]; rfl
    have hue : DecOk u := ⟨h.dict.congr (by rw [hlu]) (by rw [hlu]), by rw [hlu]; exact h.prev⟩
    have hint : u.lzw.codev.toInt = Ref.signed32 v := by rw [hlu]; exact toInt_ofNat hv
    have hud : u.lzw.dict = s.lzw.dict := by rw [hlu]
    have hup : u.lzw.prev = s.lzw.prev := by rw [hlu]
    have hui : u.lzw.cidx = s.lzw.cidx := by rw [hlu]
    have hbind : ((Except.ok (v, bs₁) : Except Err (Nat × List Byte)).map fun p => setCode p.1 (advance 4 s)) = .ok u := by
      rw [hu]; rfl
    rw [hbind]
    change match (Ref.current (strings s.lzw.dict) (strOf s.lzw.dict s.lzw.prev.toNat) (Ref.signed32 v) >>= _ :
        Except Err (List Byte × List Byte)) with
      | .error e => ((if u.lzw.cidx = 0 then firstCode u else nextCode u) >>= fun t =>
          decodeCodes k { t with lzw.cidx := t.lzw.cidx + 1 }) = .error e
      | .ok (out, bs) => _ ∧ ∃ t, ((if u.lzw.cidx = 0 then firstCode u else nextCode u) >>= fun t =>
          decodeCodes k { t with lzw.cidx := t.lzw.cidx + 1 }) = .ok t ∧ _
    rw [hui, if_neg hi, nextCode]
    have hc := classifyCode_spec hue
    rw [hud, hup, hint] at hc
    cases hcur : Ref.current (strings s.lzw.dict) (strOf s.lzw.dict s.lzw.prev.toNat) (Ref.signed32 v) with
    | error e => rw [hcur] at hc; simp only at hc; rw [hc]; rfl
    | ok cur =>
    rw [hcur] at hc
    obtain ⟨hclass, hafter⟩ := hc
    rw [hclass]
    simp only [bind, Except.bind, emitString_eq]
    have hwp : u.seq.wp = s.seq.wp := hvu.wp
    have hcfg : u.cfg = s.cfg := hvu.cfg
    unfold Fits at hf
    by_cases hroom : s.seq.wp.toNat + cur.length > s.cfg.outCap.toNat
    · rw [if_pos (by omega), emit, if_pos (by rw [hwp, hcfg]; exact hroom)]
    · rw [if_neg (by omega), emit, if_neg (by rw [hwp, hcfg]; exact hroom)]
      simp only
      obtain ⟨a₁, a₂, a₃, a₄, a₅⟩ := hafter (appendOut cur u) rfl
      obtain ⟨w, hw⟩ : ∃ w, w = dictAdd s.lzw.prev (cur.headD 0) (appendOut cur u) := ⟨_, rfl⟩
      obtain ⟨x, hx⟩ : ∃ x, x = nextPrev w := ⟨_, rfl⟩
      rw [← hw] at a₁ a₂ a₃ a₄ a₅
      have hun : u.lzw.next = s.lzw.next := by rw [hlu]
      rw [hun] at a₅
      have hwv : Vis (appendOut cur u) w := by rw [hw]; exact dictAdd_vis _ _ _
      have hwc : w.lzw.codev = u.lzw.codev ∧ w.lzw.cidx = u.lzw.cidx ∧ w.seq.rp = u.seq.rp := by
        rw [hw]; unfold dictAdd; split_ifs <;> exact ⟨rfl, rfl, rfl⟩
      have hxv : Vis (appendOut cur u) x := by rw [hx]; exact hwv.trans (nextPrev_vis _)
      have hxp : x.lzw.prev = u.lzw.codev.setWidth 12 := by rw [hx, ← hwc.1]; rfl
      have hxd : x.lzw.dict = w.lzw.dict := by rw [hx]; rfl
      have hxn : x.lzw.next = w.lzw.next := by rw [hx]; rfl
      have hxi : x.lzw.cidx = s.lzw.cidx + 1 := by rw [← hui, ← hwc.2.1, hx]; rfl
      have hxr : x.seq.rp = u.seq.rp := by rw [← hwc.2.2, hx]; rfl
      have hxin : x.input = u.input := hxv.input
      have hxrest : rest x = bs₁ := by rw [← hru]; unfold rest; rw [hxin, hxr]
      have hxrd : Reads x := by unfold Reads; rw [hxr, hxv.n]; exact hrd
      have hxw : x.seq.wp.toNat = s.seq.wp.toNat + cur.length := by
        rw [hxv.wp, wp_appendOut (by rw [hwp, hcfg]; omega), hwp]
      have hxcfg : x.cfg = s.cfg := by rw [hxv.cfg]; exact hcfg
      have hxi' : x.lzw.cidx.toNat = s.lzw.cidx.toNat + 1 := by
        rw [hxi, BitVec.toNat_add]; exact Nat.mod_eq_of_lt (by simp; omega)
      have := ih x ⟨a₁.congr hxd hxn, by rw [hxp, hxn]; exact a₄⟩ hxrd (by unfold Fits; rw [hxw, hxcfg]; omega)
        (by intro hz; rw [hz] at hxi'; simp at hxi') (by omega)
      rw [hxrest, hxcfg, hxw, hxd, hxp, a₂, a₃, ← Nat.sub_sub] at this
      have hgo : decodeCodes k { dictAdd u.lzw.prev (cur.headD 0) (appendOut cur u) with
          lzw.prev := (dictAdd u.lzw.prev (cur.headD 0) (appendOut cur u)).lzw.codev.setWidth 12,
          lzw.cidx := (dictAdd u.lzw.prev (cur.headD 0) (appendOut cur u)).lzw.cidx + 1 } = decodeCodes k x := by
        rw [hx, hw, hup]; rfl
      cases hrest : Ref.decodeRest k (Ref.add (strings s.lzw.dict) (strOf s.lzw.dict s.lzw.prev.toNat ++ cur.take 1)) cur
          (s.cfg.outCap.toNat - s.seq.wp.toNat - cur.length) bs₁ with
      | error e =>
        rw [hrest] at this
        exact hgo.trans this
      | ok q =>
        obtain ⟨out, bs⟩ := q
        rw [hrest] at this
        obtain ⟨b₁, t, b₂, b₃, b₄, b₅, b₆, b₇⟩ := this
        refine ⟨by dsimp only; rw [List.length_append]; omega, t, hgo.trans b₂, ?_, b₄, b₅, b₆, by
          rw [b₇, hxn, a₅]; omega⟩
        rw [← appendOut_appendOut (by omega)]
        exact ((hvu.appendOut cur).trans hxv |>.appendOut out).trans b₃

/-- The codes from the first (rule R240). -/
theorem decodeAll_spec (k : Nat) (s : State) (h : DictOk s) (hd : s.lzw.dict = []) (hr : Reads s) (hf : Fits s)
    (hi : s.lzw.cidx = 0) (hk : k < 2 ^ 64) :
    match Ref.decodeAll k (s.cfg.outCap.toNat - s.seq.wp.toNat) (rest s) with
    | .error e => decodeCodes k s = .error e
    | .ok (out, bs) => s.seq.wp.toNat + out.length ≤ s.cfg.outCap.toNat ∧
      ∃ t, decodeCodes k s = .ok t ∧ Vis (appendOut out s) t ∧ rest t = bs ∧ Reads t ∧ DictOk t ∧
        t.lzw.next.toNat = min 4096 (256 + (k - 1)) := by
  cases k with
  | zero =>
    refine ⟨by simpa [Fits] using hf, s, rfl, ?_, rfl, hr, h, by have := h.next; rw [hd] at this; simpa using this⟩
    rw [appendOut_nil]; exact Vis.refl s
  | succ k =>
    unfold Ref.decodeAll
    rw [decodeCodes_succ, readCode_eq hr]
    cases hfield : Ref.field 4 (rest s) with
    | error e => rfl
    | ok p =>
    obtain ⟨v, bs₁⟩ := p
    obtain ⟨hl, hbs, -, hv⟩ := field_ok hfield
    have hra := rest_advance (n := 4) (s := s) (by rw [rest_length] at hl; unfold Reads at hr; omega)
    obtain ⟨u, hu⟩ : ∃ u, u = setCode v (advance 4 s) := ⟨_, rfl⟩
    have hvu : Vis s u := by rw [hu]; exact (advance_vis 4 s).trans (setCode_vis _ _)
    have hru : rest u = bs₁ := by rw [hbs, ← hra.1, hu]; rfl
    have hrd : Reads u := by rw [hu]; exact hra.2
    have hlu : u.lzw = { s.lzw with codev := BitVec.ofNat 32 v } := by rw [hu]; rfl
    have hint : u.lzw.codev.toInt = Ref.signed32 v := by rw [hlu]; exact toInt_ofNat hv
    have hui : u.lzw.cidx = 0 := by rw [hlu]; exact hi
    have hbind : ((Except.ok (v, bs₁) : Except Err (Nat × List Byte)).map fun p => setCode p.1 (advance 4 s)) = .ok u := by
      rw [hu]; rfl
    rw [hbind]
    change match ((if Ref.signed32 v < 0 ∨ Ref.signed32 v ≥ 256 then _ else _) :
        Except Err (List Byte × List Byte)) with
      | .error e => ((if u.lzw.cidx = 0 then firstCode u else nextCode u) >>= fun t =>
          decodeCodes k { t with lzw.cidx := t.lzw.cidx + 1 }) = .error e
      | .ok (out, bs) => _ ∧ ∃ t, ((if u.lzw.cidx = 0 then firstCode u else nextCode u) >>= fun t =>
          decodeCodes k { t with lzw.cidx := t.lzw.cidx + 1 }) = .ok t ∧ _
    have hfc : firstCode u = if Ref.signed32 v < 0 ∨ Ref.signed32 v ≥ 256 then .error .fmtCode
        else outBytes 1 (Ref.signed32 v).toNat u >>= fun s => .ok { s with lzw.prev := s.lzw.codev.setWidth 12 } := by
      rw [← hint]; rfl
    rw [if_pos hui, hfc]
    by_cases hrange : Ref.signed32 v < 0 ∨ Ref.signed32 v ≥ 256
    · rw [if_pos hrange, if_pos hrange]; rfl
    rw [if_neg hrange, if_neg hrange]
    obtain ⟨c, hc⟩ := Int.eq_ofNat_of_zero_le (show 0 ≤ Ref.signed32 v by omega)
    have hc256 : c < 256 := by omega
    rw [hc, Int.toNat_natCast, outBytes_eq_emit]
    have hle : leBytes 1 c = [BitVec.ofNat 8 c] := rfl
    rw [hle]
    have hwp : u.seq.wp = s.seq.wp := hvu.wp
    have hcfg : u.cfg = s.cfg := hvu.cfg
    unfold Fits at hf
    by_cases hroom : s.seq.wp.toNat + 1 > s.cfg.outCap.toNat
    · rw [if_pos (by omega), emit, if_pos (by rw [hwp, hcfg]; exact hroom)]
      rfl
    · rw [if_neg (by omega), emit, if_neg (by rw [hwp, hcfg]; exact hroom)]
      obtain ⟨x, hx⟩ : ∃ x, x = nextPrev (appendOut [BitVec.ofNat 8 c] u) := ⟨_, rfl⟩
      have hxv : Vis (appendOut [BitVec.ofNat 8 c] u) x := by rw [hx]; exact nextPrev_vis _
      have hcv : u.lzw.codev.toInt = (c : Int) := by rw [hint, hc]
      have hxp : x.lzw.prev.toNat = c := by
        have h₁ : x.lzw.prev = u.lzw.codev.setWidth 12 := by rw [hx]; rfl
        have hb := u.lzw.codev.isLt
        rw [BitVec.toInt_eq_toNat_cond] at hcv
        rw [h₁, BitVec.toNat_setWidth]
        split_ifs at hcv <;> omega
      have hxd : x.lzw.dict = s.lzw.dict := by rw [hx]; show u.lzw.dict = _; rw [hlu]
      have hxn : x.lzw.next = s.lzw.next := by rw [hx]; show u.lzw.next = _; rw [hlu]
      have hxi : x.lzw.cidx.toNat = 1 := by rw [hx]; show (u.lzw.cidx + 1).toNat = 1; rw [hui]; rfl
      have hxr : x.seq.rp = u.seq.rp := by rw [hx]; rfl
      have hxrest : rest x = bs₁ := by rw [← hru]; unfold rest; rw [hxr]; rw [hxv.input]; rfl
      have hxrd : Reads x := by unfold Reads; rw [hxr, hxv.n]; exact hrd
      have hxw : x.seq.wp.toNat = s.seq.wp.toNat + 1 := by
        have := wp_appendOut (s := u) (bs := [BitVec.ofNat 8 c]) (by rw [hwp, hcfg, List.length_singleton]; omega)
        rw [hxv.wp, this, hwp, List.length_singleton]
      have hxcfg : x.cfg = s.cfg := by rw [hxv.cfg]; exact hcfg
      have hn := h.next
      have := decodeRest_spec k x ⟨h.congr hxd hxn, by rw [hxp, hxn]; omega⟩ hxrd
        (by unfold Fits; rw [hxw, hxcfg]; omega) (by intro hz; rw [hz] at hxi; simp at hxi) (by omega)
      rw [hxrest, hxcfg, hxw, hxd, hxp, hd, strings_nil, strOf_seed _ hc256, ← Nat.sub_sub] at this
      have hgo : (((Except.ok (appendOut [BitVec.ofNat 8 c] u) : Except Err State) >>= fun s =>
          (Except.ok { s with lzw.prev := s.lzw.codev.setWidth 12 } : Except Err State)) >>= fun t =>
          decodeCodes k { t with lzw.cidx := t.lzw.cidx + 1 }) = decodeCodes k x := by
        rw [hx]; rfl
      rw [hgo]
      simp only [bind, Except.bind]
      cases hrest : Ref.decodeRest k Ref.seed [BitVec.ofNat 8 c] (s.cfg.outCap.toNat - s.seq.wp.toNat - 1) bs₁ with
      | error e =>
        rw [hrest] at this
        exact this
      | ok q =>
        obtain ⟨out, bs⟩ := q
        rw [hrest] at this
        obtain ⟨b₁, t, b₂, b₃, b₄, b₅, b₆, b₇⟩ := this
        refine ⟨by dsimp only; rw [List.length_cons]; omega, t, b₂, ?_, b₄, b₅, b₆, by
          rw [b₇, hxn, hn, hd]; simp⟩
        have := appendOut_appendOut (as := [BitVec.ofNat 8 c]) (s := s) (by rw [List.length_singleton]; omega) out
        rw [List.singleton_append] at this
        rw [← this]
        exact ((hvu.appendOut _).trans hxv |>.appendOut out).trans b₃

/-- The run of an accepted `LDEC` gives what Reference.lean computes, and leaves the dictionary in step, with one entry added per
code after the first as long as there is room (rules R202, R243). -/
theorem runLdec_spec (s : State) (hs : s.Accepted) :
    Result s (runLdec s) (Ref.run .ldec s.cfg s.seq.n.toNat s.input) ∧
      ∀ t trail, runLdec s = .ok (t, trail) →
        DictOk t ∧ t.lzw.next.toNat = min 4096 (256 + (leValue (s.input.take 8) - 1)) := by
  unfold Ref.run
  by_cases hl : s.seq.n.toNat > s.cfg.inCap.toNat
  · rw [if_pos hl]
    simp only [runLdec, dispatchCheck_eq, if_pos hl]
    exact ⟨rfl, fun _ _ h => by cases h⟩
  rw [if_neg hl]
  simp only
  have hdis : dispatchCheck false s = .ok s := by
    rw [dispatchCheck_eq, if_neg hl, if_neg (by simp)]
  have hr₀ : Reads (s.enter .zHdr) := by
    show (s.enter .zHdr).seq.rp.toNat ≤ (s.enter .zHdr).seq.n.toNat
    rw [State.enter]
    simp [hs.rp]
  have hrest₀ : rest (s.enter .zHdr) = s.input := by
    show s.input.drop s.seq.rp.toNat = _
    simp [hs.rp]
  have hv₀ : Vis s (s.enter .zHdr) := ⟨rfl, rfl, rfl, rfl, rfl, rfl, rfl, rfl, rfl, rfl, rfl⟩
  unfold runLdec readCcount Ref.ldec
  rw [hdis]
  change Result s (((inBytes 8 (s.enter .zHdr) >>= _) : Except Err State) >>= _) _ ∧
    ∀ t trail, (((inBytes 8 (s.enter .zHdr) >>= _) : Except Err State) >>= _) = _ → _
  rw [inBytes_field 8 hr₀, hrest₀]
  cases hf : Ref.field 8 s.input with
  | error e => exact ⟨rfl, fun _ _ h => by cases h⟩
  | ok p =>
  obtain ⟨count, bs₁⟩ := p
  obtain ⟨hlen, hbs, hcount, hv⟩ := field_ok hf
  have hlen' : 8 ≤ s.seq.n.toNat := by simpa using hlen
  have hra := rest_advance (n := 8) (s := s.enter .zHdr) (by
    show s.seq.rp.toNat + 8 ≤ s.seq.n.toNat
    rw [hs.rp]; simpa using hlen')
  obtain ⟨u, hu⟩ : ∃ u : State, u = { (dictInit (({ advance 8 (s.enter .zHdr) with
      lzw.ccnt := BitVec.ofNat 64 count } : State).enter .zInit)).enter .zCodes with lzw.cidx := 0 } := ⟨_, rfl⟩
  have hvu : Vis s u := by
    rw [hu]; exact ((hv₀.trans (advance_vis 8 _)).trans ⟨rfl, rfl, rfl, rfl, rfl, rfl, rfl, rfl, rfl, rfl, rfl⟩)
  have hru : rest u = bs₁ := by rw [hbs, ← hrest₀, ← hra.1, hu]; rfl
  have hrd : Reads u := by rw [hu]; exact hra.2
  have hud : u.lzw.dict = [] := by rw [hu]; rfl
  have hun : u.lzw.next = 256 := by rw [hu]; rfl
  have hui : u.lzw.cidx = 0 := by rw [hu]
  have huc : u.lzw.ccnt.toNat = count := by
    rw [hu]
    show (BitVec.ofNat 64 count).toNat = _
    rw [BitVec.toNat_ofNat]; exact Nat.mod_eq_of_lt (by simpa using hv)
  have hwp : u.seq.wp.toNat = 0 := by rw [hvu.wp, hs.wp]; rfl
  have hok : DictOk u := ⟨by rw [hun, hud]; rfl, by rw [hun]; decide, by rw [hud]; exact linked_nil⟩
  have := decodeAll_spec count u hok hud hrd (by unfold Fits; omega) hui (by simpa using hv)
  rw [hru, hvu.cfg, hwp, Nat.sub_zero] at this
  have hgo : ∀ f : State → Except Err (State × Bool), (decodeCodes u.lzw.ccnt.toNat u >>= f) = (decodeCodes count u >>= f) :=
    fun f => by rw [huc]
  change Result s (decodeCodes _ _ >>= _) _ ∧ ∀ t trail, (decodeCodes _ _ >>= _) = _ → _
  rw [← hu] at *
  rw [hgo]
  simp only [bind, Except.bind]
  cases hall : Ref.decodeAll count s.cfg.outCap.toNat bs₁ with
  | error e =>
    rw [hall] at this
    simp only at this
    rw [this]
    exact ⟨rfl, fun _ _ h => by cases h⟩
  | ok q =>
    obtain ⟨out, bs⟩ := q
    rw [hall] at this
    obtain ⟨b₁, t, b₂, b₃, b₄, b₅, b₆, b₇⟩ := this
    rw [b₂]
    have htv : Vis t (t.enter .zFin) := by constructor <;> simp
    have htd : DictOk (t.enter .zFin) := b₆.congr (by simp) (by simp)
    have htrail : lzwTrail (t.enter .zFin) = decide (bs ≠ []) := by
      have hlt : rest t = bs := b₄
      have := rest_length t
      rw [hlt] at this
      show decide (t.seq.rp.toNat < t.seq.n.toNat) = _
      rw [decide_eq_decide]
      constructor
      · intro h hbs'
        rw [hbs'] at this
        simp only [List.length_nil] at this
        omega
      · intro h
        have := List.length_pos_iff.2 h
        omega
    refine ⟨⟨by dsimp only; omega, t.enter .zFin, ?_, ((hvu.appendOut out).trans b₃).trans htv⟩, fun t' trail h => ?_⟩
    · simp only [htrail]
    · simp only [Except.ok.injEq, Prod.mk.injEq] at h
      rw [← h.1]
      exact ⟨htd, by rw [← hcount]; exact b₇⟩

theorem runLdec_result (s : State) (hs : s.Accepted) : Result s (runLdec s) (Ref.run .ldec s.cfg s.seq.n.toNat s.input) :=
  (runLdec_spec s hs).1

end Sys2Proof.Machine
end

