-- ==== Sys2Proof/Laws/LzwEncode.lean ====
section
/-! SUPPORT. What `LENC` does: the scan over a dictionary of strings, and its run as a whole (`runLenc_result`). -/

namespace Sys2Proof.Machine

/-- The encoder's dictionary: no string twice, and `CUR` is a present code (rules R209, R228). -/
structure EncOk (s : State) : Prop where
  dict : DictOk s
  nodup : (strings s.lzw.dict).Nodup
  cur : s.lzw.cur.toNat < s.lzw.next.toNat

/-- One code counted. -/
def countCode (s : State) : State := { s with lzw.ccnt := s.lzw.ccnt + 1 }

theorem countCode_vis (s : State) : Vis s (countCode s) := ⟨rfl, rfl, rfl, rfl, rfl, rfl, rfl, rfl, rfl, rfl, rfl⟩

/-- `CUR` set. -/
def setCur (c : BitVec 12) (s : State) : State := { s with lzw.cur := c }

theorem setCur_vis (c : BitVec 12) (s : State) : Vis s (setCur c s) := ⟨rfl, rfl, rfl, rfl, rfl, rfl, rfl, rfl, rfl, rfl, rfl⟩

/-- What `EMIT` does (rule R223). -/
theorem emitCode_eq (c : BitVec 12) (s : State) :
    emitCode c s = if s.seq.wp.toNat + 4 > s.cfg.outCap.toNat then .error .ioOvf
      else .ok (countCode (appendOut (leBytes 4 c.toNat) s)) := by
  unfold emitCode
  rw [outBytes_eq_emit, emit, leBytes_length]
  split_ifs <;> rfl

theorem dictSearch_eq {s : State} (h : DictOk s) (p : BitVec 12) (b : Byte) :
    dictSearch s p b = searchFrom p b 256 s.lzw.dict := by
  have := h.next
  unfold dictSearch
  rw [List.take_of_length_le]
  simp only [Config.dictSeed]
  omega

/-- The new entry of the encoder: the string was not there, so no string is there twice (rule R209). -/
theorem EncOk.add {s : State} (h : EncOk s) {b : Byte}
    (hb : strOf s.lzw.dict s.lzw.cur.toNat ++ [b] ∉ strings s.lzw.dict) :
    EncOk (setCur (b.setWidth 12) (dictAdd s.lzw.cur b s)) := by
  obtain ⟨h₁, h₂, -, -⟩ := dictAdd_spec h.dict h.cur b
  refine ⟨⟨h₁.next, h₁.cap, h₁.linked⟩, ?_, ?_⟩
  · show (strings (dictAdd s.lzw.cur b s).lzw.dict).Nodup
    rw [h₂, Ref.add]
    split_ifs
    · rw [List.nodup_append]
      refine ⟨h.nodup, by simp, fun a ha c hc hac => ?_⟩
      simp only [List.mem_singleton] at hc
      exact hb (by rw [← hc, ← hac]; exact ha)
    · exact h.nodup
  · show (b.setWidth 12).toNat < (dictAdd s.lzw.cur b s).lzw.next.toNat
    have := h₁.next
    have := b.isLt
    rw [BitVec.toNat_setWidth]
    omega

/-- The loop and the last code (rules R220, R222). -/
def scanRun (bs : List Byte) (s : State) : Except Err State :=
  bs.foldlM scanByte s >>= fun t => emitCode (t.enter .lFin).lzw.cur (t.enter .lFin)

theorem leBytes_flatMap_length (cs : List Nat) : (cs.flatMap (leBytes 4)).length = 4 * cs.length := by
  induction cs with
  | nil => rfl
  | cons c cs ih => rw [List.flatMap_cons, List.length_append, ih, leBytes_length, List.length_cons]; omega

theorem scan_ne_nil (d : List (List Byte)) (cur bs : List Byte) : Ref.scan d cur bs ≠ [] := by
  induction bs generalizing d cur with
  | nil => simp [Ref.scan]
  | cons b bs ih =>
    unfold Ref.scan
    split_ifs
    · exact ih _ _
    · simp

/-- What the scan does: the codes of Reference.lean, one after the other, or they do not fit (rules R222, R223). -/
theorem scan_spec (bs : List Byte) (s : State) (h : EncOk s) :
    let cs := Ref.scan (strings s.lzw.dict) (strOf s.lzw.dict s.lzw.cur.toNat) bs
    if s.seq.wp.toNat + 4 * cs.length > s.cfg.outCap.toNat then scanRun bs s = .error .ioOvf
    else ∃ t, scanRun bs s = .ok t ∧ Vis (appendOut (cs.flatMap (leBytes 4)) s) t ∧
      t.lzw.ccnt = s.lzw.ccnt + BitVec.ofNat 64 cs.length ∧ EncOk t ∧
      t.lzw.next.toNat = min 4096 (s.lzw.next.toNat + (cs.length - 1)) := by
  induction bs generalizing s with
  | nil =>
    have hcur : s.lzw.cur.toNat < 256 + s.lzw.dict.length := by rw [← h.dict.next]; exact h.cur
    obtain ⟨u, hu⟩ : ∃ u, u = s.enter .lFin := ⟨_, rfl⟩
    have hv : Vis s u := by subst hu; constructor <;> simp
    have hl : u.lzw = s.lzw := by subst hu; simp
    have hrun : scanRun [] s = emitCode u.lzw.cur u := by subst hu; rfl
    simp only [Ref.scan, idxOf_strings h.nodup hcur, hrun, emitCode_eq, hv.wp, hv.cfg, hl, List.length_cons,
      List.length_nil, List.flatMap_cons, List.flatMap_nil, List.append_nil]
    by_cases hc : s.seq.wp.toNat + 4 > s.cfg.outCap.toNat
    · rw [if_pos (by omega), if_pos hc]
    · rw [if_neg (by omega), if_neg hc]
      refine ⟨_, rfl, (hv.appendOut _).trans (countCode_vis _), ?_, ?_, ?_⟩
      · subst hu; rfl
      · subst hu; exact ⟨⟨h.dict.next, h.dict.cap, h.dict.linked⟩, h.nodup, h.cur⟩
      · have : (countCode (appendOut (leBytes 4 s.lzw.cur.toNat) u)).lzw.next = s.lzw.next := by subst hu; rfl
        rw [this]
        have := h.dict.cap
        omega
  | cons b bs ih =>
    have hcur : s.lzw.cur.toNat < 256 + s.lzw.dict.length := by rw [← h.dict.next]; exact h.cur
    have hsearch := searchFrom_strings h.dict.linked h.nodup hcur b
    have hstep : scanRun (b :: bs) s = (scanByte s b >>= fun t => scanRun bs t) := by
      unfold scanRun
      rw [List.foldlM_cons]
      cases scanByte s b <;> rfl
    rw [hstep]
    unfold scanByte
    rw [dictSearch_eq h.dict]
    have hle := h.dict.cap
    have hnx := h.dict.next
    cases hs : searchFrom s.lzw.cur b 256 s.lzw.dict with
    | some k =>
      rw [hs] at hsearch
      obtain ⟨hk, hstr⟩ := hsearch
      have hmem : strOf s.lzw.dict s.lzw.cur.toNat ++ [b] ∈ strings s.lzw.dict := by
        rw [← hstr]
        exact List.mem_map.2 ⟨k, List.mem_range.2 hk, rfl⟩
      have hk12 : (BitVec.ofNat 12 k).toNat = k := by
        rw [BitVec.toNat_ofNat]; exact Nat.mod_eq_of_lt (by omega)
      obtain ⟨u, hu⟩ : ∃ u, u = setCur (BitVec.ofNat 12 k) s := ⟨_, rfl⟩
      have huc : u.lzw.cur.toNat = k := by subst hu; exact hk12
      have hud : u.lzw.dict = s.lzw.dict := by subst hu; rfl
      have hun : u.lzw.next = s.lzw.next := by subst hu; rfl
      have huk : u.lzw.ccnt = s.lzw.ccnt := by subst hu; rfl
      have hv : Vis s u := by subst hu; exact setCur_vis _ _
      have hue : EncOk u := ⟨⟨by rw [hun, hud]; exact hnx, by rw [hun]; exact hle, by rw [hud]; exact h.dict.linked⟩,
        by rw [hud]; exact h.nodup, by rw [hun, huc, hnx]; exact hk⟩
      have := ih u hue
      simp only [hud, huc, hstr, hv.wp, hv.cfg, hun, huk] at this
      simp only [Ref.scan, if_pos hmem]
      have hb : ((Except.ok (setCur (BitVec.ofNat 12 k) s) : Except Err State) >>= fun t => scanRun bs t) = scanRun bs u := by
        rw [hu]; rfl
      change if _ then ((Except.ok (setCur (BitVec.ofNat 12 k) s) : Except Err State) >>= fun t => scanRun bs t) = _ else
        ∃ t, ((Except.ok (setCur (BitVec.ofNat 12 k) s) : Except Err State) >>= fun t => scanRun bs t) = Except.ok t ∧ _
      rw [hb]
      split_ifs at this ⊢ with hc
      · exact this
      · obtain ⟨t, h₁, h₂, h₃⟩ := this
        exact ⟨t, h₁, (hv.appendOut _).trans h₂, h₃⟩
    | none =>
      rw [hs] at hsearch
      simp only at hsearch
      simp only [Ref.scan, if_neg hsearch, idxOf_strings h.nodup hcur, List.length_cons, List.flatMap_cons, emitCode_eq]
      by_cases hc : s.seq.wp.toNat + 4 > s.cfg.outCap.toNat
      · simp only [if_pos hc]
        rw [if_pos (by omega)]
        rfl
      · simp only [if_neg hc]
        obtain ⟨e, he⟩ : ∃ e, e = countCode (appendOut (leBytes 4 s.lzw.cur.toNat) s) := ⟨_, rfl⟩
        have hev : Vis (appendOut (leBytes 4 s.lzw.cur.toNat) s) e := by subst he; exact countCode_vis _
        have hed : e.lzw.dict = s.lzw.dict := by subst he; rfl
        have hen : e.lzw.next = s.lzw.next := by subst he; rfl
        have hec : e.lzw.cur = s.lzw.cur := by subst he; rfl
        have hek : e.lzw.ccnt = s.lzw.ccnt + 1 := by subst he; rfl
        have hee : EncOk e := ⟨⟨by rw [hen, hed]; exact hnx, by rw [hen]; exact hle, by rw [hed]; exact h.dict.linked⟩,
          by rw [hed]; exact h.nodup, by rw [hen, hec]; exact h.cur⟩
        have hnot : strOf e.lzw.dict e.lzw.cur.toNat ++ [b] ∉ strings e.lzw.dict := by rw [hed, hec]; exact hsearch
        obtain ⟨-, hadd, -, hnext⟩ := dictAdd_spec hee.dict hee.cur b
        obtain ⟨u, hu⟩ : ∃ u, u = setCur (b.setWidth 12) (dictAdd e.lzw.cur b e) := ⟨_, rfl⟩
        have hue : EncOk u := by rw [hu]; exact hee.add hnot
        have hv : Vis e u := by rw [hu]; exact (dictAdd_vis _ _ _).trans (setCur_vis _ _)
        have hud : strings u.lzw.dict = Ref.add (strings s.lzw.dict) (strOf s.lzw.dict s.lzw.cur.toNat ++ [b]) := by
          rw [← hed, ← hec, ← hadd, hu]; rfl
        have hun : u.lzw.next.toNat = min 4096 (s.lzw.next.toNat + 1) := by rw [← hen, ← hnext, hu]; rfl
        have huc : strOf u.lzw.dict u.lzw.cur.toNat = [b] := by
          have h₁ : u.lzw.cur.toNat = b.toNat := by
            rw [hu]
            show (b.setWidth 12).toNat = _
            have := b.isLt
            rw [BitVec.toNat_setWidth]; exact Nat.mod_eq_of_lt (by omega)
          rw [h₁, strOf_seed _ b.isLt]
          simp
        have huk : u.lzw.ccnt = s.lzw.ccnt + 1 := by
          rw [← hek, ← dictAdd_ccnt e.lzw.cur b e, hu]; rfl
        have hwp : u.seq.wp.toNat = s.seq.wp.toNat + 4 := by
          rw [hv.wp, hev.wp, wp_appendOut (by rw [leBytes_length]; omega), leBytes_length]
        have hcfg : u.cfg = s.cfg := by rw [hv.cfg, hev.cfg]; rfl
        have := ih u hue
        have hpos := List.length_pos_iff.2 (scan_ne_nil (strings u.lzw.dict) [b] bs)
        simp only [hud, huc, hwp, hcfg, hun, huk] at this hpos
        have hb : ((do
            let t ← (Except.ok e : Except Err State)
            Except.ok { dictAdd s.lzw.cur b t with lzw.cur := b.setWidth 12 }) >>= fun t => scanRun bs t) = scanRun bs u := by
          rw [hu, hec]; rfl
        rw [← he, hb]
        generalize Ref.scan (Ref.add (strings s.lzw.dict) (strOf s.lzw.dict s.lzw.cur.toNat ++ [b])) [b] bs = cs at this hpos
        by_cases hc' : s.seq.wp.toNat + 4 * (cs.length + 1) > s.cfg.outCap.toNat
        · rw [if_pos (by omega)] at this
          rw [if_pos hc']; exact this
        · rw [if_neg (by omega)] at this
          rw [if_neg hc']
          obtain ⟨t, h₁, h₂, h₃, h₄, h₅⟩ := this
          refine ⟨t, h₁, ?_, ?_, h₄, ?_⟩
          · rw [← appendOut_appendOut (by rw [leBytes_length]; omega)]
            exact ((hev.trans hv).appendOut _).trans h₂
          · rw [h₃, BitVec.add_assoc, Nat.add_comm cs.length 1, BitVec.ofNat_add]; rfl
          · omega

/-- The encoder at the start of its scan (rule R221). -/
def lzwPrepare (s : State) : State :=
  { dictInit (s.enter .lInit) with lzw.cur := (s.inByte 0).setWidth 12, lzw.ccnt := 0, seq.wp := 8 }

theorem lzwPrepare_lzw (s : State) :
    (lzwPrepare s).lzw.dict = [] ∧ (lzwPrepare s).lzw.next = 256 ∧ (lzwPrepare s).lzw.cur = (s.inByte 0).setWidth 12 ∧
      (lzwPrepare s).lzw.ccnt = 0 := ⟨rfl, rfl, rfl, rfl⟩

/-- The count goes into the space left for it (rule R224). -/
theorem writeCount_outBuf {s : State} {m : Nat} {bs : List Byte} (h : s.outBuf = Memory.writeBytes [] 8 bs)
    (hm : s.lzw.ccnt.toNat = m) : (writeCount s).outBuf = Memory.writeBytes [] 0 (leBytes 8 m ++ bs) := by
  show Memory.writeBytes s.outBuf 0 (leBytes 8 s.lzw.ccnt.toNat) = _
  rw [h, hm]
  refine Memory.ext_of_wf (Memory.wf_writeBytes _ _ (Memory.wf_writeBytes _ _ rfl)) (Memory.wf_writeBytes _ _ rfl) fun a => ?_
  have hl := leBytes_length 8 m
  rw [Memory.read_writeBytes, Memory.read_writeBytes, Memory.read_writeBytes_nil, Memory.read_nil]
  by_cases h₁ : a < 8
  · rw [if_pos (by omega), List.getElem?_append_left (by omega), Nat.sub_zero]
  · rw [if_neg (by omega), List.getElem?_append_right (by omega), hl]
    split_ifs with h₂
    · rfl
    · rw [List.getElem?_eq_none (by omega)]

/-- The run of `LENC` after the dispatch checks: too long for OUT, or the codes, the count and the registers of rule R228. -/
theorem runLenc_spec (s : State) (hs : s.Accepted) (hn : s.seq.n.toNat ≠ 0) (hl : s.seq.n.toNat ≤ s.cfg.inCap.toNat) :
    if (Ref.lzwContainer (Ref.lzwCodes s.input)).length > s.cfg.outCap.toNat then runLenc s = .error .ioOvf
    else ∃ t, runLenc s = .ok (t, false) ∧ Vis (appendOut (Ref.lzwContainer (Ref.lzwCodes s.input)) s) t ∧ DictOk t ∧
      t.lzw.cur.toNat < t.lzw.next.toNat ∧
      t.lzw.next.toNat = min 4096 (256 + (t.lzw.ccnt.toNat - 1)) := by
  obtain ⟨m, hm⟩ : ∃ m, s.seq.n.toNat = m + 1 := ⟨s.seq.n.toNat - 1, by omega⟩
  have hinput : s.input = s.inByte 0 :: s.input.drop 1 := by
    have h0 : s.input[0]? = some (s.inByte 0) := by rw [State.input, inSlice_getElem?, if_pos (by omega)]
    cases hi : s.input with
    | nil => rw [hi] at h0; simp at h0
    | cons b bs => rw [hi] at h0; simp only [List.getElem?_cons_zero, Option.some.injEq] at h0; rw [← h0]; rfl
  obtain ⟨p, hp⟩ : ∃ p, p = (lzwPrepare s).enter .lScan := ⟨_, rfl⟩
  obtain ⟨hpd, hpn, hpc, hpk⟩ : p.lzw.dict = [] ∧ p.lzw.next = 256 ∧ p.lzw.cur = (s.inByte 0).setWidth 12 ∧ p.lzw.ccnt = 0 := by
    subst hp; exact lzwPrepare_lzw s
  have hpw : p.seq.wp = 8 := by subst hp; rfl
  have hpo : p.outBuf = [] := by subst hp; exact hs.out
  have hpi : p.input = s.input := by subst hp; rfl
  have hcfg : p.cfg = s.cfg := by subst hp; rfl
  have hcurn : p.lzw.cur.toNat = (s.inByte 0).toNat := by
    rw [hpc, BitVec.toNat_setWidth]
    have := (s.inByte 0).isLt
    exact Nat.mod_eq_of_lt (by omega)
  have hlt := (s.inByte 0).isLt
  have henc : EncOk p := by
    refine ⟨⟨by rw [hpn, hpd]; rfl, by rw [hpn]; decide, by rw [hpd]; exact linked_nil⟩, ?_, ?_⟩
    · rw [hpd, strings_nil]
      unfold Ref.seed allBytes
      rw [List.map_map]
      refine List.Nodup.map_on (fun x hx y hy hxy => ?_) List.nodup_range
      simp only [List.mem_range] at hx hy
      simp only [Function.comp_apply, List.cons.injEq, and_true] at hxy
      have := congrArg BitVec.toNat hxy
      simp only [BitVec.toNat_ofNat] at this
      omega
    · rw [hcurn, hpn]; exact hlt
  have hcodes : Ref.lzwCodes s.input = Ref.scan (strings p.lzw.dict) (strOf p.lzw.dict p.lzw.cur.toNat) (s.input.drop 1) := by
    conv_lhs => rw [hinput]
    rw [hcurn, strOf_seed _ hlt, hpd, strings_nil]
    simp [Ref.lzwCodes]
  have hspec := scan_spec (s.input.drop 1) p henc
  simp only [← hcodes] at hspec
  have hpos := List.length_pos_iff.2 (scan_ne_nil (strings p.lzw.dict) (strOf p.lzw.dict p.lzw.cur.toNat) (s.input.drop 1))
  rw [← hcodes] at hpos
  have hcl : (Ref.lzwContainer (Ref.lzwCodes s.input)).length = 8 + 4 * (Ref.lzwCodes s.input).length := by
    rw [Ref.lzwContainer, List.length_append, leBytes_length, leBytes_flatMap_length]
  rw [hcl]
  have hdis : dispatchCheck true s = .ok s := by
    rw [dispatchCheck_eq, if_neg (by omega), if_neg fun h => hn h.2]
  have hrun : runLenc s = if s.cfg.outCap.toNat < 8 then .error .ioOvf
      else scanRun (s.input.drop 1) p >>= fun t => .ok (writeCount t, false) := by
    unfold runLenc
    rw [hdis]
    have hstart : lzwStart (dictInit (s.enter .lInit)) =
        if s.cfg.outCap.toNat < 8 then .error .ioOvf else .ok (lzwPrepare s) := rfl
    have hscan : ∀ t : State, lzwScan ((lzwPrepare s).enter .lScan) = (s.input.drop 1).foldlM scanByte p := fun _ => by
      rw [← hp, lzwScan, hpi]
    change (lzwStart (dictInit (s.enter .lInit)) >>= _) = _
    rw [hstart]
    split_ifs
    · rfl
    · change (lzwScan ((lzwPrepare s).enter .lScan) >>= _) = _
      rw [hscan s, scanRun]
      cases (s.input.drop 1).foldlM scanByte p with
      | error e => rfl
      | ok t =>
        change (emitCode _ _ >>= _) = (emitCode _ _ >>= _)
        rfl
  have hw8 : p.seq.wp.toNat = 8 := by rw [hpw]; rfl
  rw [hw8, hcfg] at hspec
  rw [hrun]
  generalize Ref.lzwCodes s.input = cs at hspec hpos ⊢
  by_cases hc : 8 + 4 * cs.length > s.cfg.outCap.toNat
  · rw [if_pos hc] at hspec ⊢
    rw [hspec]
    split_ifs <;> rfl
  · rw [if_neg hc] at hspec ⊢
    rw [if_neg (by omega)]
    obtain ⟨t, h₁, h₂, h₃, h₄, h₅⟩ := hspec
    rw [h₁]
    have hout := s.cfg.outCap.isLt
    have hk : t.lzw.ccnt.toNat = cs.length := by
      rw [h₃, hpk]
      show (0#64 + BitVec.ofNat 64 cs.length).toNat = _
      rw [BitVec.zero_add, BitVec.toNat_ofNat]
      exact Nat.mod_eq_of_lt (by omega)
    have hob : t.outBuf = Memory.writeBytes [] 8 (cs.flatMap (leBytes 4)) := by
      rw [h₂.outBuf]; show Memory.writeBytes p.outBuf p.seq.wp.toNat _ = _; rw [hpo, hw8]
    have hpv : p.ie = s.ie ∧ p.inLen = s.inLen ∧ p.inBuf = s.inBuf ∧ p.seq.n = s.seq.n ∧ p.agenda = s.agenda ∧
        p.reply = s.reply ∧ p.epoch = s.epoch ∧ p.draws = s.draws := by
      subst hp; exact ⟨rfl, rfl, rfl, rfl, rfl, rfl, rfl, rfl⟩
    obtain ⟨q₁, q₂, q₃, q₄, q₅, q₆, q₇, q₈⟩ := hpv
    refine ⟨writeCount t, rfl, ?_, ?_, ?_, ?_⟩
    · refine ⟨?_, ?_, ?_, ?_, ?_, ?_, ?_, ?_, ?_, ?_, ?_⟩
      · rw [writeCount_cfg, h₂.cfg]; exact hcfg
      · rw [writeCount_ie, h₂.ie]; exact q₁
      · rw [writeCount_inLen, h₂.inLen]; exact q₂
      · rw [writeCount_inBuf, h₂.inBuf]; exact q₃
      · rw [writeCount_outBuf hob hk]
        show _ = Memory.writeBytes s.outBuf s.seq.wp.toNat _
        rw [hs.out, hs.wp]; rfl
      · rw [writeCount_seq, h₂.wp]
        show p.seq.wp + _ = s.seq.wp + _
        rw [hpw, hs.wp, Ref.lzwContainer, List.length_append, leBytes_length, BitVec.ofNat_add]
        simp
      · rw [writeCount_seq, h₂.n]; exact q₄
      · rw [writeCount_agenda, h₂.agenda]; exact q₅
      · rw [writeCount_reply, h₂.reply]; exact q₆
      · rw [writeCount_epoch, h₂.epoch]; exact q₇
      · rw [writeCount_draws, h₂.draws]; exact q₈
    · exact ⟨h₄.dict.next, h₄.dict.cap, h₄.dict.linked⟩
    · exact h₄.cur
    · rw [writeCount_lzw, h₅, hk, hpn]; rfl

/-- The run of an accepted `LENC` gives what Reference.lean computes. -/
theorem runLenc_result (s : State) (hs : s.Accepted) : Result s (runLenc s) (Ref.run .lenc s.cfg s.seq.n.toNat s.input) := by
  unfold Ref.run
  by_cases hl : s.seq.n.toNat > s.cfg.inCap.toNat
  · rw [if_pos hl]
    simp only [runLenc, dispatchCheck_eq, if_pos hl]
    rfl
  · rw [if_neg hl]
    by_cases hn : s.seq.n.toNat = 0
    · simp only [runLenc, dispatchCheck_eq, hn, if_true, and_self]
      rfl
    · simp only [if_neg hn]
      have := runLenc_spec s hs hn (by omega)
      rw [Ref.lenc, Ref.fit]
      split_ifs at this with hc
      · rw [if_neg (by omega), this]; rfl
      · obtain ⟨t, h₁, h₂, -⟩ := this
        rw [if_pos (by omega)]
        exact ⟨by omega, t, h₁, h₂⟩

end Sys2Proof.Machine
end

