-- ==== Sys2Proof/Laws/PerInstr.lean ====
section
/-! SUPPORT. Statements made per instruction: one family, about the command words of the opcode table (rules R91, R92 in
30_encoding.md). -/

namespace Sys2Proof.Laws.TableWord

/-- The command's word is a legal one: `RSVD = 0`, `OP` in 1 to 4, and the 32 bits of its opcode-table row select it. -/
def Statement (i : Instr) : Prop :=
  i.wellFormed = true ∧ rsvdField (encode i) = 0 ∧ opField (encode i) = opcode i ∧
    legalCommandWord (encode i) = true ∧ decodeTableWord 32 (encode i).toNat = some i

theorem henc : Statement .henc := by unfold Statement; decide

theorem hdec : Statement .hdec := by unfold Statement; decide

theorem lenc : Statement .lenc := by unfold Statement; decide

theorem ldec : Statement .ldec := by unfold Statement; decide

end Sys2Proof.Laws.TableWord
end

