-- ==== Sys2Proof/Tests/Slice0.lean ====
section
/-! SUPPORT. Tests: expected values are those of 95_test_vectors.md and of the rules cited, none is the model's own answer; and a
witness for the hypotheses of every statement that has any, one per clause. -/

namespace Sys2Proof.Tests.Slice0

open Sys2Proof Sys2Proof.Machine

-- One theorem at a time: a test runs the machine in the kernel, and many at once need many stacks.
set_option Elab.async false

/-! ## Decoding: words written out bit by bit (rules R91 to R93) -/

theorem test_decode_henc : decode 0b00000000000000000000000000000001#32 = .ok .henc := by decide

theorem test_decode_hdec : decode 0b00000000000000000000000000000010#32 = .ok .hdec := by decide

theorem test_decode_lenc : decode 0b00000000000000000000000000000011#32 = .ok .lenc := by decide

theorem test_decode_ldec : decode 0b00000000000000000000000000000100#32 = .ok .ldec := by decide

/-- V-X2, V-X3, V-X7: the opcodes that select nothing. -/
theorem test_decode_illegal_opcodes :
    ∀ n : Fin 16, n.val = 0 ∨ 5 ≤ n.val → decode (BitVec.ofNat 32 n.val) = .error .illegalOpcode := by decide

/-- V-X4, V-X5: a bit of `RSVD` is set, the lowest and the highest one. -/
theorem test_decode_reserved :
    decode 0x11#32 = .error .reservedBits ∧ decode 0x80000001#32 = .error .reservedBits := by decide

/-! ## Well-formedness: what each check refuses -/

theorem smoke_instr : ∀ i ∈ [Instr.henc, .hdec, .lenc, .ldec], i.wellFormed = true := by decide

theorem smoke_word : legalCommandWord 0 = false ∧ legalCommandWord 5 = false ∧ legalCommandWord 0x11 = false ∧
    legalCommandWord 0x80000001 = false ∧ legalCommandWord 4 = true := by decide

theorem smoke_hostOp : (HostOp.readReg 4).wellFormed = false ∧ (HostOp.readReg 0x100).wellFormed = false ∧
    (HostOp.writeReg 0x0C 1).wellFormed = false ∧ (HostOp.readReg 0xF8).wellFormed = true := by decide

theorem smoke_turn : (Turn.host (.writeReg 1 0)).wellFormed = false ∧ Turn.reset.wellFormed = true := by decide

theorem smoke_caps : (Caps.mk 0 5).wellFormed = false ∧ (Caps.mk 1 0).wellFormed = true := by decide

/-! ## Helpers -/

/-- The bytes of a list of numbers. -/
def bytes (l : List Nat) : List Byte := l.map (BitVec.ofNat 8)

/-- The idle block with the given capacities, after `LOAD` of the bytes. -/
def loaded (inCap : BitVec 32) (outCap : BitVec 64) (bs : List Byte) : State :=
  { State.afterReset { inCap, outCap } [] 0 0 with
    inBuf := Memory.writeBytes [] 0 bs
    inLen := BitVec.ofNat 64 bs.length }

/-- The same block right after it accepted the command. -/
def start (i : Instr) (inCap : BitVec 32) (outCap : BitVec 64) (bs : List Byte) : State :=
  accept (encode i) (loaded inCap outCap bs)

theorem start_accepted (i : Instr) (inCap : BitVec 32) (outCap : BitVec 64) (bs : List Byte) :
    (start i inCap outCap bs).Accepted := ⟨rfl, rfl, rfl, rfl, rfl⟩

/-- The outcome is a next state of which `p` holds. -/
def gives (o : Host.Outcome State Fault Refusal) (p : State → Bool) : Bool :=
  match o with
  | .next t => p t
  | .fault _ => false
  | .refused _ => false

theorem gives_next {o : Host.Outcome State Fault Refusal} {p : State → Bool} (h : gives o p = true) :
    ∃ t, o = .next t ∧ p t = true := by
  unfold gives at h
  split at h
  · exact ⟨_, rfl, h⟩
  · cases h
  · cases h

/-- What the host reads afterwards: `STATUS`, `OUT_LEN`, and the bytes below `OUT_LEN`. -/
def reads (status outLen : Nat) (out : List Nat) (t : State) : Bool :=
  t.status.word.toNat == status && t.outLen.toNat == outLen &&
    ((List.range outLen).map fun a => (Memory.read t.outBuf a).map (·.toNat)) == out.map some

/-- The command runs on the bytes with the capacity of OUT and leaves what the host reads. -/
def vector (i : Instr) (outCap : BitVec 64) (input : List Nat) (status outLen : Nat) (out : List Nat) : Bool :=
  gives (step (start i 0x100000 outCap (bytes input))) (reads status outLen out)

/-! ## Commands (sections 3 to 7 of 95_test_vectors.md) -/

/-- V-H5: the lighter leaf goes left, so the more frequent byte gets the code 1; five pad bits. -/
theorem test_henc_aab : vector .henc 0x100000 [0x61, 0x61, 0x62] 0x0002 27
    [2, 0, 0, 0, 0, 0, 0, 0, 0x61, 2, 0, 0, 0, 0x62, 1, 0, 0, 0, 3, 0, 0, 0, 0, 0, 0, 0, 0xC0] = true := by
  decide +kernel

/-- V-H15: no input. -/
theorem test_henc_empty : vector .henc 0x100000 [] 0x1006 0 [] = true := by decide +kernel

/-- V-D14: two trailing bytes set `TRAIL` and the bytes are delivered. -/
theorem test_hdec_trailing : vector .hdec 0x100000
    [2, 0, 0, 0, 0, 0, 0, 0, 0x61, 1, 0, 0, 0, 0x62, 1, 0, 0, 0, 2, 0, 0, 0, 0, 0, 0, 0, 0x40, 0xAA, 0xBB]
    0x000A 2 [0x61, 0x62] = true := by decide +kernel

/-- V-D18.3: the bits end inside a code word. -/
theorem test_hdec_off_leaf : vector .hdec 0x100000
    [3, 0, 0, 0, 0, 0, 0, 0, 0x61, 1, 0, 0, 0, 0x62, 1, 0, 0, 0, 0x63, 1, 0, 0, 0, 3, 0, 0, 0, 0, 0, 0, 0, 0xB0]
    0x2406 0 [] = true := by decide +kernel

/-- V-L4: "ABABABA". -/
theorem test_lenc_ababa : vector .lenc 0x100000 [0x41, 0x42, 0x41, 0x42, 0x41, 0x42, 0x41] 0x0002 24
    [4, 0, 0, 0, 0, 0, 0, 0, 0x41, 0, 0, 0, 0x42, 0, 0, 0, 0, 1, 0, 0, 2, 1, 0, 0] = true := by decide +kernel

/-- V-L13: one byte of OUT too few. -/
theorem test_lenc_overflow : vector .lenc 23 [0x41, 0x42, 0x41, 0x42, 0x41, 0x42, 0x41] 0x3006 0 [] = true := by
  decide +kernel

/-- V-Z28: a looked-up code and the synthesizable code. -/
theorem test_ldec_synthesized : vector .ldec 0x100000
    [4, 0, 0, 0, 0, 0, 0, 0, 0x41, 0, 0, 0, 0x42, 0, 0, 0, 0, 1, 0, 0, 2, 1, 0, 0]
    0x0002 7 [0x41, 0x42, 0x41, 0x42, 0x41, 0x42, 0x41] = true := by decide +kernel

/-- V-Z12: the code after the synthesizable one. -/
theorem test_ldec_bad_code : vector .ldec 0x100000
    [2, 0, 0, 0, 0, 0, 0, 0, 0x41, 0, 0, 0, 1, 1, 0, 0] 0x2606 0 [] = true := by decide +kernel

/-! ## Tree, dictionary, host port (sections 2, 5 and 8) -/

/-- The leaf of a byte with its count, queued. -/
def leafOf (b : Byte) (w : BitVec 40) : Node := { body := .leaf b, w, inq := true }

/-- V-T8: ties go to the smaller index, and the first popped goes left. -/
theorem test_tree_aabbc :
    ((combine 3 [leafOf 0x61 2, leafOf 0x62 2, leafOf 0x63 1]).map fun n => (n.body, n.w)) =
      [(.leaf 0x61, 2), (.leaf 0x62, 2), (.leaf 0x63, 1), (.internal 2 0, 3), (.internal 1 3, 5)] := by decide +kernel

/-- V-T9: the codes. -/
theorem test_codes_aaaabbbccd :
    visit (combine 4 [leafOf 0x61 4, leafOf 0x62 3, leafOf 0x63 2, leafOf 0x64 1]) 7 6 [] =
      [(0x61, [false]), (0x62, [true, false]), (0x64, [true, true, false]), (0x63, [true, true, true])] := by
  decide +kernel

/-- V-K3 to V-K5. -/
theorem test_dictionary :
    let s := dictAdd 65 66 (dictInit (start .lenc 16 64 []))
    s.lzw.next = 257 ∧ dictSearch s 65 66 = some 256 ∧ dictSearch s 66 65 = none ∧ dictSearch s 256 66 = none ∧
      dictEntry s 256 = [0x41, 0x42] ∧ firstByte s 256 = 0x41 := by decide

/-- V-X8, V-X9: `E_CMD` is tested before `E_INPUT_LEN`. -/
theorem test_dispatch_order :
    gives (step (accept 1 { loaded 16 64 [] with inLen := 17 })) (reads 0x1106 0 []) = true ∧
      gives (step (accept 9 { loaded 16 64 [] with inLen := 17 })) (reads 0x4006 0 []) = true := by decide +kernel

/-- V-X17: an acknowledgement clears `DONE` alone. -/
theorem test_ack_keeps_error :
    gives (hostTurn (.writeReg 0x10 2) { loaded 16 64 [] with status := .failed .fmtCode }) (reads 0x2604 0 []) = true := by
  decide +kernel

/-- V-X24: reset while busy. -/
theorem test_reset_while_busy :
    gives (step { start .henc 16 64 (bytes [0x41]) with agenda := [.reset], ie := true })
      (fun t => reads 0 0 [] t && !t.ie && t.inLen == 0 && !t.irq && t.inBuf == []) = true := by decide +kernel

/-! ## Witnesses: states and operands that meet the hypotheses of the statements -/

theorem witness_IllegalWordIsAcceptedThenFails :
    State.reset.status.busy = false ∧ opField (commandWord 0) = 0 ∧ 5 ≤ (opField (commandWord 5)).toNat ∧
      5 ≤ (opField (commandWord 15)).toNat ∧ rsvdField (commandWord 0x11) ≠ 0 ∧ rsvdField (commandWord 0x80000001) ≠ 0 := by
  decide

theorem witness_StepRunsLatchedCommand :
    let s := start .ldec 16 64 []
    s.status.busy = true ∧ decode s.seq.cmdl = .ok .ldec ∧ s.agenda = [] ∧
      ({ s with agenda := [.block, .reset] } : State).agenda = .block :: [.reset] := by decide

theorem witness_FetchWordRunsNext : decodeTableWord 32 1 = some .henc ∧ decodeTableWord 32 4 = some .ldec := by decide

theorem witness_TurnsTakeEffectInOrder :
    State.reset.status.busy = false ∧ State.reset.agenda = [] ∧
      ({ State.reset with agenda := [.host (.readReg 0)] } : State).agenda = .host (.readReg 0) :: [] ∧
      ({ State.reset with agenda := [.reset] } : State).agenda = .reset :: [] ∧
      ({ State.reset with agenda := [.block] } : State).agenda = .block :: [] := by decide

theorem witness_ResetValues : ({ start .henc 16 64 [] with agenda := [.reset] } : State).agenda = .reset :: [] := rfl

theorem witness_ResetMeetsInvariant : (loaded 1 0 []).cfg.wellFormed = true := by decide

/-- A busy state meets the invariant. -/
theorem witness_invariant_busy : (start .henc 16 64 []).Inv := by
  constructor <;> simp [start, loaded, State.afterReset, accept, Caps.wellFormed, Status.running, Memory.writeBytes, Memory.wf]

theorem witness_StepKeepsInvariant :
    (start .henc 16 64 []).Inv ∧ ∃ t, step (start .henc 16 64 []) = .next t ∧ t.status = .failed .inputEmpty := by
  refine ⟨witness_invariant_busy, ?_⟩
  obtain ⟨t, h, ht⟩ := gives_next (o := step (start .henc 16 64 [])) (p := fun t => t.status == .failed .inputEmpty)
    (by decide +kernel)
  exact ⟨t, h, by simpa using ht⟩

theorem witness_BusyMeansAccepted : (start .henc 16 64 []).Inv ∧ (start .henc 16 64 []).status.busy = true :=
  ⟨witness_invariant_busy, rfl⟩

/-- Offsets at both ends of the port and one that is reserved. -/
theorem witness_RegisterRead : ∀ off ∈ [0x00, 0x08, 0x10, 0x18, 0x20, 0x28, 0x30, 0x38, 0xF8], off % 8 = 0 ∧ off < 0x100 := by
  decide

theorem witness_RegisterWrite : ∀ off ∈ [0x00, 0x08, 0x10, 0x18, 0x20, 0x38, 0xF8], off % 8 = 0 ∧ off < 0x100 := by decide

theorem witness_PortWidthAndReserved :
    4 % 8 ≠ 0 ∧ 0x100 ≤ 0x100 ∧ (∀ off ∈ [0x38, 0xF8], off % 8 = 0 ∧ 0x38 ≤ off ∧ off < 0x100) ∧ 1 ≤ 1 ∧
      (4 ≤ 4 ∧ 4 < 8) ∧ (4 ≤ 7 ∧ 7 < 8) ∧ 16 ≤ 16 ∧ 0 % 8 = 0 := by decide

theorem witness_Acceptance : (loaded 16 64 []).status.busy = false := rfl

theorem witness_HostCannotDisturbRunningCommand :
    (start .henc 16 64 []).status.busy = true ∧
      hostTurn (.writeIn 0 7) (start .henc 16 64 []) = .next { start .henc 16 64 [] with reply := .none } := ⟨rfl, rfl⟩

theorem witness_BusyAndDone :
    (start .henc 16 64 []).Inv ∧ (start .henc 16 64 []).status.busy = true ∧ BitVec.getLsbD 2#64 1 = true :=
  ⟨witness_invariant_busy, rfl, by decide⟩

theorem witness_OutcomeRegistersChangeOnly :
    ∃ t, step (start .henc 16 64 []) = .next t ∧ t.status.err ≠ (start .henc 16 64 []).status.err := by
  obtain ⟨t, h, ht⟩ := gives_next (o := step (start .henc 16 64 [])) (p := fun t => t.status.err) (by decide +kernel)
  exact ⟨t, h, by rw [ht]; decide⟩

theorem witness_InterruptPin :
    (start .henc 16 64 []).status.busy = true ∧ ∃ t, blockTurn (start .henc 16 64 []) = .next t := by
  obtain ⟨t, h, -⟩ := gives_next (o := blockTurn (start .henc 16 64 [])) (p := fun _ => true) (by decide +kernel)
  exact ⟨rfl, t, h⟩

/-- The rows of rule R71's table, at the last index inside and the first one outside. -/
theorem witness_BufferPort :
    let s : State := { loaded 16 64 [] with outBuf := [(0, 9)], outLen := 1 }
    let u := start .henc 16 64 []
    s.status.busy = false ∧ 15 < s.cfg.inCap.toNat ∧ s.cfg.inCap.toNat ≤ 16 ∧ u.status.busy = true ∧
      s.cfg.outCap.toNat ≤ 64 ∧ 63 < s.cfg.outCap.toNat ∧ Memory.read s.outBuf 0 = some 9 ∧
      Memory.read s.outBuf 63 = none := by decide

theorem witness_SpecifiedOutBytes :
    (∃ t, exec .ldec (start .ldec 16 64 (bytes [0, 0, 0, 0, 0, 0, 0, 0])) = .next t ∧ t.status.err = false) ∧
      ∃ t, exec .ldec (start .ldec 16 64 []) = .next t ∧ t.status.err = true := by
  constructor
  · obtain ⟨t, h, ht⟩ := gives_next (o := exec .ldec (start .ldec 16 64 (bytes [0, 0, 0, 0, 0, 0, 0, 0])))
      (p := fun t => !t.status.err) (by decide +kernel)
    exact ⟨t, h, by simpa using ht⟩
  · obtain ⟨t, h, ht⟩ := gives_next (o := exec .ldec (start .ldec 16 64 [])) (p := fun t => t.status.err)
      (by decide +kernel)
    exact ⟨t, h, ht⟩

theorem witness_InputBufferChangesOnly :
    ∃ t, step { loaded 16 64 (bytes [1]) with agenda := [.host (.writeIn 0 7)] } = .next t ∧
      t.inByte 0 ≠ (loaded 16 64 (bytes [1])).inByte 0 := by
  obtain ⟨t, h, ht⟩ := gives_next (o := step { loaded 16 64 (bytes [1]) with agenda := [.host (.writeIn 0 7)] })
    (p := fun t => t.inByte 0 == 7) (by decide +kernel)
  refine ⟨t, h, ?_⟩
  rw [show t.inByte 0 = 7 by simpa using ht]
  decide +kernel

/-- Nine bits need two bytes: the last bit and the last pad bit. -/
theorem witness_PayloadBitOrder :
    let s := start .henc 16 2 []
    let t : State := { s with huff.acc := 0, huff.nb := 0 }
    t.huff.acc = 0 ∧ t.huff.nb = 0 ∧ t.seq.wp.toNat + ceil8 9 ≤ t.cfg.outCap.toNat ∧ 8 < 8 * ceil8 9 ∧ 15 < 8 * ceil8 9 ∧
      t.seq.wp.toNat + ceil8 9 ≤ 2 := by decide

theorem witness_SequentialAccess :
    let s := start .hdec 16 8 (bytes [1, 2, 3, 4])
    s.seq.rp.toNat + 5 > s.seq.n.toNat ∧ s.seq.rp.toNat + 4 ≤ s.seq.n.toNat ∧ s.seq.wp.toNat + 9 > s.cfg.outCap.toNat ∧
      s.seq.wp.toNat + 8 ≤ s.cfg.outCap.toNat := by decide +kernel

theorem witness_FrequencyCount : (start .henc 16 64 (bytes [1, 1])).seq.n.toNat < 2 ^ 32 := by decide +kernel

theorem witness_PopMinTieBreak : 1 ≤ queueSize [{ body := .leaf 0, w := 1, inq := true }] := by decide

/-- A table in which one byte occurs. -/
def single (b : Byte) : ByteTable (BitVec 32) := setEntry (Vector.replicate 256 0) b 1

theorem entryOf_single (b c : Byte) : entryOf (single b) c ≠ 0 ↔ c = b := by
  unfold single
  rw [entryOf_setEntry]
  split_ifs with h
  · simp [h]
  · simp [entryOf, h]

/-- The smallest and the largest mapping. -/
theorem witness_TreeSize :
    1 ≤ (allBytes.filter fun b => entryOf (single 0x41) b ≠ 0).length ∧
      256 = (allBytes.filter fun b => entryOf (Vector.replicate 256 (1 : BitVec 32)) b ≠ 0).length := by
  refine ⟨List.length_pos_of_mem (a := 0x41) (List.mem_filter.2 ⟨by decide, ?_⟩), by simp [entryOf, allBytes]⟩
  simpa using (entryOf_single 0x41 0x41).2 rfl

theorem witness_TreeWeights : entryOf (single 0x41) 0x41 ≠ 0 := (entryOf_single _ _).2 rfl

theorem witness_CodeLeadsToItsLeaf :
    (0x41 : Byte) ≠ 0x42 ∧ entryOf (countBytes (bytes [0x41, 0x42])) 0x41 ≠ 0 ∧
      entryOf (countBytes (bytes [0x41, 0x42])) 0x42 ≠ 0 := by decide +kernel

theorem witness_CodesArePrefixFree :
    (0x00 : Byte) ≠ 0xFF ∧ entryOf (countBytes (bytes [0x00, 0xFF])) 0x00 ≠ 0 ∧
      entryOf (countBytes (bytes [0x00, 0xFF])) 0xFF ≠ 0 := by decide +kernel

theorem witness_CodeLengths :
    entryOf (single 0x41) 0x41 ≠ 0 ∧ entryOf (single 0x41) 0x42 = 0 ∧ ∀ c, entryOf (single 0x41) c ≠ 0 ↔ c = 0x41 :=
  ⟨(entryOf_single _ _).2 rfl, not_not.1 ((entryOf_single 0x41 0x42).not.2 (by decide)), entryOf_single 0x41⟩

theorem witness_HencIsReference : (start .henc 16 64 (bytes [0x41])).Accepted := start_accepted _ _ _ _

/-- V-H1: the container of "A" has 22 bytes; `OUT_CAP` is exactly that. -/
theorem witness_HencCompletes :
    let s := start .henc 1 22 (bytes [0x41])
    s.Accepted ∧ 1 ≤ s.seq.n.toNat ∧ s.seq.n.toNat ≤ s.cfg.inCap.toNat ∧
      (Ref.hencContainer s.input).length ≤ s.cfg.outCap.toNat := by
  refine ⟨start_accepted _ _ _ _, ?_⟩
  decide +kernel

/-- The size of the container, as rule R167 computes it. -/
def sizeOfResult (s : State) : Nat :=
  16 + 5 * (freqCount s).huff.nsym.toNat
    + ceil8 (codedLength (freqCount s).huff.freq (codegen (buildTree (freqCount s))).huff.code)

/-- It depends on the input alone. -/
theorem sizeOfResult_congr {s u : State} (h : s.input = u.input) : sizeOfResult s = sizeOfResult u := by
  simp only [sizeOfResult, codegen, buildTree, freqCount, h]

/-- V-H1, V-H17: the container fits exactly, and is one byte too long. -/
theorem witness_HencResultSize :
    let s := start .henc 1 22 (bytes [0x41])
    let u := start .henc 1 21 (bytes [0x41])
    s.Accepted ∧ u.Accepted ∧ (1 ≤ s.seq.n.toNat ∧ s.seq.n.toNat ≤ s.cfg.inCap.toNat) ∧
      (1 ≤ u.seq.n.toNat ∧ u.seq.n.toNat ≤ u.cfg.inCap.toNat) ∧ sizeOfResult s ≤ s.cfg.outCap.toNat ∧
      u.cfg.outCap.toNat < sizeOfResult u ∧ (∃ t, exec .henc s = .next t) ∧ ∃ t, exec .henc u = .next t := by
  have h : sizeOfResult (start .henc 1 22 (bytes [0x41])) = 22 := by decide +kernel
  have h' : sizeOfResult (start .henc 1 21 (bytes [0x41])) = sizeOfResult (start .henc 1 22 (bytes [0x41])) :=
    sizeOfResult_congr (by decide +kernel)
  refine ⟨start_accepted _ _ _ _, start_accepted _ _ _ _, by decide +kernel, by decide +kernel, ?_, ?_, exec_next _ _,
    exec_next _ _⟩
  · rw [h]; decide +kernel
  · rw [h', h]; decide +kernel

theorem witness_HdecIsReference : (start .hdec 16 64 (bytes [0x41])).Accepted := start_accepted _ _ _ _

/-- V-D15: a table in descending order; V-D14 gives the trailing bytes. -/
theorem witness_HdecCompletes :
    let table : List (Byte × Nat) := [(0x62, 1), (0x61, 1)]
    let msg : List Byte := [0x61, 0x62]
    let bits := msg.flatMap (Ref.codeOf (Ref.treeOf fun b => (table.lookup b).getD 0))
    let s := start .hdec 64 2 (bytes
      [2, 0, 0, 0, 0, 0, 0, 0, 0x62, 1, 0, 0, 0, 0x61, 1, 0, 0, 0, 2, 0, 0, 0, 0, 0, 0, 0, 0x7F, 0xAA])
    s.Accepted ∧ s.seq.n.toNat ≤ s.cfg.inCap.toNat ∧ table ≠ [] ∧ (table.map (·.1)).Nodup ∧
      (∀ e ∈ table, 1 ≤ e.2 ∧ e.2 < 2 ^ 32) ∧ (∀ b ∈ msg, b ∈ table.map (·.1)) ∧
      (bytes [0x7F]).length = ceil8 bits.length ∧ (Ref.bitsOf (bytes [0x7F])).take bits.length = bits ∧
      s.input = leBytes 8 table.length ++ table.flatMap Ref.entryBytes ++ leBytes 8 bits.length ++ bytes [0x7F] ++ bytes [0xAA] ∧
      msg.length ≤ s.cfg.outCap.toNat := by
  refine ⟨start_accepted _ _ _ _, ?_⟩
  decide +kernel

/-- Seven bytes, the count 0, and the count 257. -/
theorem witness_HdecCountField :
    let s := start .hdec 16 64 (bytes [1, 0, 0, 0, 0, 0, 0])
    let t := start .hdec 16 64 (bytes [0, 0, 0, 0, 0, 0, 0, 0])
    let u := start .hdec 16 64 (bytes [1, 1, 0, 0, 0, 0, 0, 0])
    s.Accepted ∧ t.Accepted ∧ u.Accepted ∧ s.seq.n.toNat < 8 ∧ (8 ≤ t.seq.n.toNat ∧ t.memRead 0 8 = 0) ∧
      (8 ≤ u.seq.n.toNat ∧ 256 < u.memRead 0 8) ∧ u.seq.n.toNat ≤ u.cfg.inCap.toNat := by
  refine ⟨start_accepted _ _ _ _, start_accepted _ _ _ _, start_accepted _ _ _ _, ?_⟩
  decide +kernel

/-- Four bytes; a zero frequency; a byte that is there already; a byte that is not. -/
theorem witness_TableEntryChecks :
    let s := start .hdec 16 64 (bytes [0x41, 1, 0, 0])
    let t := start .hdec 16 64 (bytes [0x41, 0, 0, 0, 0])
    let u : State := { start .hdec 16 64 (bytes [0x41, 1, 0, 0, 0]) with huff.freq := countBytes (bytes [0x41]) }
    let v : State := { u with huff.freq := countBytes (bytes [0x42]) }
    s.seq.n.toNat < s.seq.rp.toNat + 5 ∧
      (t.seq.rp.toNat + 5 ≤ t.seq.n.toNat ∧ t.memRead (t.seq.rp.toNat + 1) 4 = 0) ∧
      (u.seq.rp.toNat + 5 ≤ u.seq.n.toNat ∧ u.memRead (u.seq.rp.toNat + 1) 4 ≠ 0 ∧
        entryOf u.huff.freq (u.inByte u.seq.rp.toNat) ≠ 0) ∧
      (v.seq.rp.toNat + 5 ≤ v.seq.n.toNat ∧ v.memRead (v.seq.rp.toNat + 1) 4 ≠ 0 ∧
        entryOf v.huff.freq (v.inByte v.seq.rp.toNat) = 0) := by
  decide +kernel

/-- V-D20: the third bit is 1, after two bytes that fit exactly. -/
theorem witness_SingleLeafBadBit :
    let s := start .hdec 22 2 (bytes [1, 0, 0, 0, 0, 0, 0, 0, 0x41, 3, 0, 0, 0, 3, 0, 0, 0, 0, 0, 0, 0, 0x20])
    s.Accepted ∧ s.seq.n.toNat ≤ s.cfg.inCap.toNat ∧ (1 ≤ 3 ∧ 3 < 2 ^ 32) ∧ (bytes [0x20]).length = ceil8 3 ∧
      s.input = leBytes 8 1 ++ Ref.entryBytes (0x41, 3) ++ leBytes 8 3 ++ bytes [0x20] ++ [] ∧
      true ∈ (Ref.bitsOf (bytes [0x20])).take 3 ∧
      (((Ref.bitsOf (bytes [0x20])).take 3).takeWhile fun x => !x).length ≤ s.cfg.outCap.toNat := by
  refine ⟨start_accepted _ _ _ _, ?_⟩
  decide +kernel

/-- V-D18.3: one code word and the first bit of another. -/
theorem witness_EndOffLeaf :
    let table : List (Byte × Nat) := [(0x61, 1), (0x62, 1), (0x63, 1)]
    let code := Ref.codeOf (Ref.treeOf fun b => (table.lookup b).getD 0)
    let msg : List Byte := [0x61]
    let tail : Bits := [true]
    let bits := msg.flatMap code ++ tail
    let s := start .hdec 64 1 (bytes
      [3, 0, 0, 0, 0, 0, 0, 0, 0x61, 1, 0, 0, 0, 0x62, 1, 0, 0, 0, 0x63, 1, 0, 0, 0, 3, 0, 0, 0, 0, 0, 0, 0, 0xB0])
    s.Accepted ∧ s.seq.n.toNat ≤ s.cfg.inCap.toNat ∧ 2 ≤ table.length ∧ (table.map (·.1)).Nodup ∧
      (∀ e ∈ table, 1 ≤ e.2 ∧ e.2 < 2 ^ 32) ∧ (∀ c ∈ msg, c ∈ table.map (·.1)) ∧ 0x62 ∈ table.map (·.1) ∧ tail ≠ [] ∧
      tail <+: code 0x62 ∧ tail ≠ code 0x62 ∧ (bytes [0xB0]).length = ceil8 bits.length ∧
      (Ref.bitsOf (bytes [0xB0])).take bits.length = bits ∧
      s.input = leBytes 8 table.length ++ table.flatMap Ref.entryBytes ++ leBytes 8 bits.length ++ bytes [0xB0] ++ [] ∧
      msg.length ≤ s.cfg.outCap.toNat := by
  refine ⟨start_accepted _ _ _ _, ?_⟩
  decide +kernel

/-- The decoder's block holds what the encoder wrote. -/
def handOver (i : Instr) (outCap : BitVec 64) (t : State) : State :=
  accept (encode i) { loaded 64 outCap [] with inBuf := t.outBuf, inLen := t.outLen }

theorem handOver_accepted (i : Instr) (outCap : BitVec 64) (t : State) : (handOver i outCap t).Accepted :=
  ⟨rfl, rfl, rfl, rfl, rfl⟩

/-- What the two round trips ask of the state `t` that the encoder left and of the decoder's state. -/
def handsOver (i : Instr) (outCap : BitVec 64) (t : State) : Bool :=
  !t.status.err && decide ((handOver i outCap t).seq.n = t.outLen) &&
    decide ((handOver i outCap t).seq.n.toNat ≤ (handOver i outCap t).cfg.inCap.toNat) &&
    decide (∀ a, a < t.outLen.toNat → Memory.read t.outBuf a = some ((handOver i outCap t).inByte a))

theorem witness_HuffmanRoundTrip :
    let s := start .henc 64 64 (bytes [0x61, 0x62, 0x61])
    s.Accepted ∧ (1 ≤ s.seq.n.toNat ∧ s.seq.n.toNat ≤ s.cfg.inCap.toNat) ∧
      (∃ t, exec .henc s = .next t ∧ handsOver .hdec 3 t = true) ∧ s.seq.n.toNat ≤ 3 := by
  refine ⟨start_accepted _ _ _ _, by decide +kernel, ?_, by decide +kernel⟩
  have h := conclude_result (start_accepted .henc 64 64 (bytes [0x61, 0x62, 0x61]))
    (runHenc_result _ (start_accepted .henc 64 64 (bytes [0x61, 0x62, 0x61])))
  obtain ⟨u, hu⟩ : ∃ u, u = Ref.complete (start .henc 64 64 (bytes [0x61, 0x62, 0x61]))
    (Ref.run .henc (start .henc 64 64 (bytes [0x61, 0x62, 0x61])).cfg
      (start .henc 64 64 (bytes [0x61, 0x62, 0x61])).seq.n.toNat (start .henc 64 64 (bytes [0x61, 0x62, 0x61])).input) :=
    ⟨_, rfl⟩
  rw [← hu] at h
  exact ⟨u, h, by rw [hu]; decide +kernel⟩

theorem witness_LzwRoundTrip :
    let s := start .lenc 64 64 (bytes [0x61, 0x62, 0x61])
    s.Accepted ∧ (1 ≤ s.seq.n.toNat ∧ s.seq.n.toNat ≤ s.cfg.inCap.toNat) ∧
      (∃ t, exec .lenc s = .next t ∧ handsOver .ldec 3 t = true) ∧ s.seq.n.toNat ≤ 3 := by
  refine ⟨start_accepted _ _ _ _, by decide +kernel, ?_, by decide +kernel⟩
  exact gives_next (by decide +kernel)

/-- Both ends of the dictionary: the last free place, and a full dictionary (V-K6, V-K7). -/
theorem witness_DictionaryAdd :
    let e : DictEntry := { pfx := 65, ch := 66 }
    let s : State := { start .lenc 16 64 [] with lzw.dict := List.replicate 3839 e, lzw.next := 4095 }
    let t : State := { s with lzw.dict := List.replicate 3840 e, lzw.next := 4096 }
    (s.lzw.next.toNat = 256 + s.lzw.dict.length ∧ s.lzw.next.toNat < 4096) ∧
      (t.lzw.next.toNat = 256 + t.lzw.dict.length ∧ t.lzw.next.toNat = 4096) := by
  simp only [List.length_replicate]
  decide

/-- An entry whose prefix is the largest code it may have. -/
theorem witness_DictionaryStrings :
    let d : List DictEntry := [{ pfx := 255, ch := 66 }, { pfx := 256, ch := 67 }]
    ∀ j, j < d.length → ∀ e ∈ d[j]?, e.pfx.toNat < 256 + j := by decide

theorem witness_DictionaryBounds :
    (start .lenc 16 64 (bytes [0x41])).Accepted ∧ (start .ldec 16 64 (bytes [0, 0, 0, 0, 0, 0, 0, 0])).Accepted ∧
      (∃ r, runLenc (start .lenc 16 64 (bytes [0x41])) = .ok r) ∧
      ∃ r, runLdec (start .ldec 16 64 (bytes [0, 0, 0, 0, 0, 0, 0, 0])) = .ok r := by
  refine ⟨start_accepted _ _ _ _, start_accepted _ _ _ _, ?_, ?_⟩
  · have h : (runLenc (start .lenc 16 64 (bytes [0x41]))).isOk = true := by decide +kernel
    cases hr : runLenc (start .lenc 16 64 (bytes [0x41])) with
    | error e => rw [hr] at h; cases h
    | ok r => exact ⟨r, rfl⟩
  · have h : (runLdec (start .ldec 16 64 (bytes [0, 0, 0, 0, 0, 0, 0, 0]))).isOk = true := by decide +kernel
    cases hr : runLdec (start .ldec 16 64 (bytes [0, 0, 0, 0, 0, 0, 0, 0])) with
    | error e => rw [hr] at h; cases h
    | ok r => exact ⟨r, rfl⟩

theorem witness_LencIsReference : (start .lenc 16 64 (bytes [0x41])).Accepted := start_accepted _ _ _ _

/-- V-L1: the container of "A" has 12 bytes; `OUT_CAP` is exactly that. -/
theorem witness_LencCompletes :
    let s := start .lenc 1 12 (bytes [0x41])
    s.Accepted ∧ 1 ≤ s.seq.n.toNat ∧ s.seq.n.toNat ≤ s.cfg.inCap.toNat ∧
      8 + 4 * (Ref.lzwCodes s.input).length ≤ s.cfg.outCap.toNat := by
  refine ⟨start_accepted _ _ _ _, ?_⟩
  decide +kernel

theorem witness_LdecIsReference : (start .ldec 16 64 (bytes [0x41])).Accepted := start_accepted _ _ _ _

/-- V-Z10 with `OUT_CAP = 4` (V-Z24), and one trailing byte. -/
theorem witness_LdecCompletes :
    let s := start .ldec 64 4 (bytes [3, 0, 0, 0, 0, 0, 0, 0, 0x41, 0, 0, 0, 0, 1, 0, 0, 0x41, 0, 0, 0, 0x99])
    s.Accepted ∧ s.seq.n.toNat ≤ s.cfg.inCap.toNat ∧ s.input = Ref.lzwContainer [65, 256, 65] ++ bytes [0x99] ∧
      Ref.expand [65, 256, 65] = some (bytes [0x41, 0x41, 0x41, 0x41]) ∧
      (bytes [0x41, 0x41, 0x41, 0x41]).length ≤ s.cfg.outCap.toNat := by
  refine ⟨start_accepted _ _ _ _, ?_⟩
  decide +kernel

/-- Seven bytes; eleven bytes; the first codes −1 (V-Z9) and 256 (V-Z7). -/
theorem witness_LdecFirstCode :
    let s := start .ldec 16 64 (bytes [1, 0, 0, 0, 0, 0, 0])
    let t := start .ldec 16 64 (bytes [1, 0, 0, 0, 0, 0, 0, 0, 0x41, 0, 0])
    let u := start .ldec 16 64 (bytes [1, 0, 0, 0, 0, 0, 0, 0, 0xFF, 0xFF, 0xFF, 0xFF])
    let v := start .ldec 16 64 (bytes [1, 0, 0, 0, 0, 0, 0, 0, 0, 1, 0, 0])
    (s.Accepted ∧ t.Accepted ∧ u.Accepted ∧ v.Accepted) ∧ s.seq.n.toNat < 8 ∧
      (8 ≤ t.seq.n.toNat ∧ t.memRead 0 8 ≠ 0 ∧ t.seq.n.toNat < 12) ∧
      (12 ≤ u.seq.n.toNat ∧ u.memRead 0 8 ≠ 0 ∧ (BitVec.ofNat 32 (u.memRead 8 4)).toInt < 0) ∧
      (12 ≤ v.seq.n.toNat ∧ v.memRead 0 8 ≠ 0 ∧ 256 ≤ (BitVec.ofNat 32 (v.memRead 8 4)).toInt) ∧
      v.seq.n.toNat ≤ v.cfg.inCap.toNat := by
  refine ⟨⟨start_accepted _ _ _ _, start_accepted _ _ _ _, start_accepted _ _ _ _, start_accepted _ _ _ _⟩, ?_⟩
  decide +kernel

/-- The decoder with `NEXT` and the code just read. -/
def atCode (next : BitVec 13) (c : Int) : State :=
  { start .ldec 16 64 [] with lzw.next := next, lzw.codev := BitVec.ofInt 32 c }

/-- The codes `NEXT − 1`, `NEXT`, −1, `NEXT + 1` and, with a full dictionary, 4096. -/
theorem witness_LaterCodeClasses :
    (atCode 256 255).lzw.codev.toInt = ((255 : Nat) : Int) ∧ 255 < (atCode 256 255).lzw.next.toNat ∧
      (atCode 256 256).lzw.codev.toInt = ((atCode 256 256).lzw.next.toNat : Int) ∧ (atCode 256 256).lzw.next.toNat < 4096 ∧
      256 ≤ (atCode 256 256).lzw.next.toNat ∧
      (atCode 256 (-1)).lzw.codev.toInt < 0 ∧ ((atCode 256 257).lzw.next.toNat : Int) < (atCode 256 257).lzw.codev.toInt ∧
      4096 ≤ (atCode 4096 4096).lzw.codev.toInt ∧ (atCode 4096 4096).lzw.next.toNat ≤ 4096 := by
  decide +kernel

theorem witness_CommandFrame : ∃ t, exec .henc (start .henc 16 64 []) = .next t := by
  obtain ⟨t, h, -⟩ := gives_next (o := exec .henc (start .henc 16 64 [])) (p := fun _ => true) (by decide +kernel)
  exact ⟨t, h⟩

theorem witness_ErrorTermination : ∃ t, exec .henc (start .henc 16 64 []) = .next t ∧ t.status.err = true :=
  gives_next (p := fun t => t.status.err) (by decide +kernel)

/-- Two blocks with different history and different bytes beyond `N`. -/
theorem witness_ResultDependsOnInputsOnly :
    let s := start .lenc 16 64 (bytes [0x41])
    let u : State := { start .lenc 16 64 (bytes [0x41]) with ie := true, inBuf := [(0, 0x41), (5, 9)], lzw.next := 300 }
    s.Accepted ∧ u.Accepted ∧ s.cfg = u.cfg ∧ s.seq.n = u.seq.n ∧
      (∀ a, a < s.seq.n.toNat → s.inByte a = u.inByte a) ∧ gives (exec .lenc s) (fun _ => true) = true ∧
      gives (exec .lenc u) (fun _ => true) = true := by
  refine ⟨start_accepted _ _ _ _, ⟨rfl, rfl, rfl, rfl, rfl⟩, ?_⟩
  decide +kernel

/-- One byte more than the buffer. -/
theorem witness_InputTooLong :
    let s := accept 1 { loaded 16 64 [] with inLen := 17 }
    s.cfg.inCap.toNat < s.seq.n.toNat ∧ s.status.busy = true := by decide

theorem witness_EmptyInput : (start .henc 16 64 []).Accepted ∧ (start .henc 16 64 []).seq.n = 0 :=
  ⟨start_accepted _ _ _ _, rfl⟩

theorem witness_BusyBlockCompletes :
    let s : State := { start .henc 16 64 [] with agenda := [.host (.readReg 0x10), .host (.writeReg 0xF8 1)] }
    s.status.busy = true ∧ ∀ x ∈ s.agenda, x.wellFormed = true := by decide

theorem witness_OnlyCompletionOrResetEndsBusy :
    (start .henc 16 64 []).status.busy = true ∧ ∃ t, step (start .henc 16 64 []) = .next t ∧ t.status.busy = false := by
  refine ⟨rfl, ?_⟩
  obtain ⟨t, h, ht⟩ := gives_next (o := step (start .henc 16 64 [])) (p := fun t => !t.status.busy) (by decide +kernel)
  exact ⟨t, h, by simpa using ht⟩

end Sys2Proof.Tests.Slice0
end

/-! SUPPORT. What one step can do: the effect of a completion, of a host transaction and of a step, each said once as an
inversion lemma over every state. -/

namespace Sys2Proof.Machine

variable {s t : State}

/-! ## Completion -/

/-- What a completion from `s` can leave (rules R263, R292): an error termination, or the success of a run that kept the
shell. -/
inductive Completed (s : State) : State → Prop where
  | failed (e : Err) : Completed s (errorTerminate e s)
  | succeeded (u : State) (trail : Bool) (h : Kept s u) : Completed s (succeed trail u)

/-- A run that ends well keeps the shell: the form in which the run lemmas of the four commands state it. -/
theorem kept_of_runs {d : Except Err State} {E : List Err} {r : Except Err (State × Bool)} {a : State × Bool}
    (h : match d with
      | .error e => r = .error e
      | .ok _ => Runs E Prod.fst s r)
    (ha : r = .ok a) : Kept s a.1 := by
  cases d with
  | error e => exact nomatch h.symm.trans ha
  | ok _ => exact h.kept a ha

theorem conclude_completed {r : Except Err (State × Bool)} (hr : ∀ a, r = .ok a → Kept s a.1)
    (h : conclude s r = .next t) : Completed s t := by
  cases r with
  | error e => cases h; exact .failed e
  | ok a => cases h; exact .succeeded a.1 a.2 (hr a rfl)

/-- Every command completes, from any state. -/
theorem exec_completed {i : Instr} (h : exec i s = .next t) : Completed s t := by
  cases i with
  | henc => exact conclude_completed (fun _ => kept_of_runs (runs_runHenc s)) h
  | hdec => exact conclude_completed (fun _ => kept_of_runs (runs_runHdec s)) h
  | lenc => exact conclude_completed (fun _ => kept_of_runs (runs_runLenc s)) h
  | ldec => exact conclude_completed (fun _ => kept_of_runs (runs_runLdec s)) h

/-- The completion step runs a command, or the latched word is none and it ends with `E_CMD` (rules R262, R93). -/
theorem completion_cases (h : completion s = .next t) :
    (∃ i, exec i s = .next t) ∨ t = errorTerminate .cmd s := by
  unfold completion at h
  split at h
  · exact .inl ⟨_, h⟩
  · exact .inr (by cases h; rfl)

theorem completion_completed (h : completion s = .next t) : Completed s t := by
  rcases completion_cases h with ⟨i, hi⟩ | rfl
  · exact exec_completed hi
  · exact .failed .cmd

theorem completion_next (s : State) : ∃ t, completion s = .next t := by
  unfold completion
  split
  · exact exec_next _ s
  · exact ⟨_, rfl⟩

theorem blockTurn_busy (h : s.status.busy = true) : blockTurn s = completion s := by simp [blockTurn, h]

theorem blockTurn_idle (h : s.status.busy = false) : blockTurn s = .next s := by simp [blockTurn, h]

/-- The frame of a completion (rule R263). -/
theorem Completed.sameShell (h : Completed s t) : s.SameShell t := by
  cases h with
  | failed e => constructor <;> simp
  | succeeded u trail h => constructor <;> simp [h.cfg, h.ie, h.inLen, h.inBuf, h.epoch, h.agenda, h.reply]

theorem Completed.not_busy (h : Completed s t) : t.status.busy = false := by
  cases h <;> simp [Status.failed, Status.succeeded]

theorem Completed.done (h : Completed s t) : t.status.done = true := by
  cases h <;> simp [Status.failed, Status.succeeded]

/-! ## Completion of an accepted command -/

theorem conclude_accepted_result (hs : s.Accepted) {r : Except Err (State × Bool)} {p : Ref.Result} (hr : Result s r p) :
    conclude s r = .next (Ref.complete s p) ∧ ∀ bs trail, p = .ok (bs, trail) → bs.length ≤ s.cfg.outCap.toNat := by
  refine ⟨conclude_result hs hr, ?_⟩
  rintro bs trail rfl
  exact hr.1

/-- An accepted command completes as Reference.lean computes, and an output it gives fits OUT (rule R264). -/
theorem exec_accepted_result (i : Instr) (hs : s.Accepted) :
    exec i s = .next (Ref.complete s (Ref.run i s.cfg s.seq.n.toNat s.input)) ∧
      ∀ bs trail, Ref.run i s.cfg s.seq.n.toNat s.input = .ok (bs, trail) → bs.length ≤ s.cfg.outCap.toNat := by
  cases i with
  | henc => exact conclude_accepted_result hs (runHenc_result s hs)
  | hdec => exact conclude_accepted_result hs (runHdec_result s hs)
  | lenc => exact conclude_accepted_result hs (runLenc_result s hs)
  | ldec => exact conclude_accepted_result hs (runLdec_result s hs)

/-- What the completion of an accepted command can leave (rules R263, R264). -/
theorem exec_accepted_cases {i : Instr} (hs : s.Accepted) (h : exec i s = .next t) :
    (∃ e, t = errorTerminate e s) ∨
      ∃ bs trail, bs.length ≤ s.cfg.outCap.toNat ∧ t = Ref.complete s (.ok (bs, trail)) := by
  obtain ⟨he, hl⟩ := exec_accepted_result i hs
  obtain rfl : Ref.complete s _ = t := by simpa [he] using h
  match hr : Ref.run i s.cfg s.seq.n.toNat s.input with
  | .error e => exact .inl ⟨e, rfl⟩
  | .ok (bs, trail) => exact .inr ⟨bs, trail, hl bs trail hr, rfl⟩

section
variable (s : State) (bs : List Byte) (trail : Bool)

@[simp] theorem complete_ok_status : (Ref.complete s (.ok (bs, trail))).status = .succeeded trail := rfl
@[simp] theorem complete_ok_outLen : (Ref.complete s (.ok (bs, trail))).outLen = BitVec.ofNat 64 bs.length := rfl
@[simp] theorem complete_ok_outBuf :
    (Ref.complete s (.ok (bs, trail))).outBuf = Memory.writeBytes [] 0 bs := rfl
@[simp] theorem complete_ok_ph : (Ref.complete s (.ok (bs, trail))).ph = .idle := rfl

end

/-- An output that fits OUT is counted in `OUT_LEN` without loss (rule R7: `OUT_CAP < 2^64`). -/
theorem toNat_length_of_fits {c : BitVec 64} {bs : List Byte} (h : bs.length ≤ c.toNat) :
    (BitVec.ofNat 64 bs.length).toNat = bs.length := by
  have := c.isLt
  simp only [BitVec.toNat_ofNat]
  exact Nat.mod_eq_of_lt (by omega)

/-- OUT after a success: exactly the bytes below `OUT_LEN` are specified (rule R41). -/
theorem complete_ok_outKnown {bs : List Byte} (h : bs.length ≤ s.cfg.outCap.toNat) (trail : Bool) (a : Nat) :
    (Memory.read (Ref.complete s (.ok (bs, trail))).outBuf a).isSome ↔
      a < (Ref.complete s (.ok (bs, trail))).outLen.toNat := by
  rw [complete_ok_outBuf, complete_ok_outLen, toNat_length_of_fits h, Memory.read_writeBytes_nil, Option.isSome_iff_ne_none,
    ne_eq, List.getElem?_eq_none_iff, not_le]

/-! ## Host transactions -/

/-- What a host transaction can do to the state. Which value `reply` and whether a draw was counted is left open here:
only reads set them otherwise than to nothing. -/
inductive HostEffect (s : State) : HostOp → State → Prop where
  /-- A read, or a write that is dropped. -/
  | replied (op : HostOp) (reply : Reply) (draws : Nat) : HostEffect s op { s with reply, draws }
  | ctrlWritten (v : Word64) : HostEffect s (.writeReg 0x00 v) { s with ie := v.getLsbD 0, reply := .none }
  | accepted (v : Word64) (hb : s.status.busy = false) :
      HostEffect s (.writeReg 0x08 v) { accept (commandWord v) s with reply := .none }
  | acknowledged (v : Word64) (hv : v.getLsbD 1 = true) :
      HostEffect s (.writeReg 0x10 v) { ackDone s with reply := .none }
  | inLenWritten (v : Word64) (hb : s.status.busy = false) :
      HostEffect s (.writeReg 0x18 v) { s with inLen := v, reply := .none }
  | inWritten (a : Nat) (v : Byte) (hb : s.status.busy = false) (ha : a < s.cfg.inCap.toNat) :
      HostEffect s (.writeIn a v) { s with inBuf := Memory.write s.inBuf a v, reply := .none }

theorem writeReg_effect (s : State) (off : Nat) (v : Word64) :
    HostEffect s (.writeReg off v) { writeReg off v s with reply := .none } := by
  unfold writeReg
  split
  · exact .ctrlWritten v
  · split_ifs with hb
    · exact .replied _ _ _
    · exact .accepted v (by simpa using hb)
  · split_ifs with hv
    · exact .acknowledged v hv
    · exact .replied _ _ _
  · split_ifs with hb
    · exact .replied _ _ _
    · exact .inLenWritten v (by simpa using hb)
  · exact .replied _ _ _

theorem hostWriteIn_effect (s : State) (a : Nat) (v : Byte) :
    HostEffect s (.writeIn a v) { hostWriteIn a v s with reply := .none } := by
  unfold hostWriteIn
  split_ifs with h
  · exact .replied _ _ _
  · simp only [not_or, Bool.not_eq_true, not_not] at h
    exact .inWritten a v h.1 h.2

/-- A read of OUT draws a free value or changes nothing. -/
theorem hostReadOut_state (a : Nat) (s : State) : ∃ draws, (hostReadOut a s).2 = { s with draws } := by
  unfold hostReadOut
  split
  · exact ⟨s.draws, rfl⟩
  · split
    · exact ⟨s.draws, rfl⟩
    · exact ⟨s.draws + 1, rfl⟩

theorem hostTurn_effect {op : HostOp} (h : hostTurn op s = .next t) : HostEffect s op t := by
  cases op with
  | readReg off =>
    simp only [hostTurn] at h
    split_ifs at h
    cases h
    exact .replied _ _ _
  | writeReg off v =>
    simp only [hostTurn] at h
    split_ifs at h
    cases h
    exact writeReg_effect s off v
  | writeIn a v => cases h; exact hostWriteIn_effect s a v
  | readIn a => cases h; exact .replied _ _ _
  | readOut a =>
    obtain ⟨draws, hd⟩ := hostReadOut_state a s
    cases h
    rw [hd]
    exact .replied _ _ _
  | writeOut a v => cases h; exact .replied _ _ _

/-! ## The step -/

/-- The state once the first turn is taken off the agenda. -/
def State.popTurn (s : State) : State := { s with agenda := s.agenda.tail }

@[simp] theorem popTurn_cfg (s : State) : s.popTurn.cfg = s.cfg := rfl
@[simp] theorem popTurn_status (s : State) : s.popTurn.status = s.status := rfl
@[simp] theorem popTurn_outLen (s : State) : s.popTurn.outLen = s.outLen := rfl
@[simp] theorem popTurn_inBuf (s : State) : s.popTurn.inBuf = s.inBuf := rfl
@[simp] theorem popTurn_epoch (s : State) : s.popTurn.epoch = s.epoch := rfl

/-- What a step can be: the turn of the block, the host or reset that comes first (rule R73). -/
inductive Stepped (s : State) : State → Prop where
  /-- The block's turn came while no command was running. -/
  | idle (hb : s.status.busy = false) : Stepped s s.popTurn
  | completed (t : State) (ha : s.agenda = [] ∨ s.agenda.head? = some .block) (hb : s.status.busy = true)
      (hc : completion s.popTurn = .next t) : Stepped s t
  | host (op : HostOp) (t : State) (ha : s.agenda.head? = some (.host op)) (he : HostEffect s.popTurn op t) : Stepped s t
  | reset (ha : s.agenda.head? = some .reset) : Stepped s (resetEvent s.popTurn)

theorem blockTurn_stepped (ha : s.agenda = [] ∨ s.agenda.head? = some .block) (h : blockTurn s.popTurn = .next t) :
    Stepped s t := by
  cases hb : s.status.busy with
  | true => exact .completed t ha hb (by rwa [blockTurn_busy (by simpa using hb)] at h)
  | false =>
    rw [blockTurn_idle (by simpa using hb)] at h
    cases h
    exact .idle hb

theorem step_stepped (h : step s = .next t) : Stepped s t := by
  unfold step nextTurn at h
  split at h
  next ha =>
    have hp : s.popTurn = s := by rw [State.popTurn, ha, List.tail_nil, ← ha]
    exact blockTurn_stepped (.inl ha) (by rwa [hp])
  next rest ha => exact blockTurn_stepped (.inr (by simp [ha])) (by simpa [State.popTurn, ha] using h)
  next op rest ha =>
    exact .host op t (by simp [ha]) (hostTurn_effect (by simpa [State.popTurn, ha] using h))
  next rest ha =>
    cases h
    have := Stepped.reset (s := s) (by simp [ha])
    simpa [State.popTurn, ha] using this

theorem step_reset {rest : List Turn} (h : s.agenda = .reset :: rest) : step s = .next (resetEvent s.popTurn) := by
  simp only [step, nextTurn, h, State.popTurn, List.tail_cons]

/-! ## The invariant -/

/-- The invariant says nothing about `CTRL.IE`, the scratch state and the model's own fields. -/
theorem State.Inv.with_untracked (h : s.Inv) (ie : Bool) (huff : HuffRegs) (lzw : LzwRegs) (agenda : List Turn)
    (reply : Reply) (epoch draws : Nat) : State.Inv { s with ie, huff, lzw, agenda, reply, epoch, draws } :=
  ⟨h.caps, h.notBusyAndDone, h.errIffCode, h.busyClear, h.errClear, h.outLenLe, h.idleIff, h.inCanonical, h.inInRange,
    h.outCanonical, h.outKnown, h.busyLatched⟩

theorem State.Inv.popTurn (h : s.Inv) : s.popTurn.Inv := h.with_untracked _ _ _ _ _ _ _

/-- A busy block that meets the invariant has no known byte of OUT. -/
theorem State.Inv.accepted (h : s.Inv) (hb : s.status.busy = true) : s.Accepted := by
  obtain ⟨hrp, hwp, hbp, -, -⟩ := h.busyLatched hb
  obtain ⟨-, -, -, hlen⟩ := h.busyClear hb
  refine ⟨hb, hrp, hwp, hbp, Memory.ext_of_wf h.outCanonical rfl fun a => ?_⟩
  have := (h.outKnown a).not
  simpa [hlen] using this

theorem accept_accepted (w : Word32) (s : State) : (accept w s).Accepted := by
  constructor <;> simp [Status.running]

/-- Acceptance keeps the invariant: it sets all it speaks of but IN and the capacities. -/
theorem State.Inv.accept (h : s.Inv) (w : Word32) : (accept w s).Inv where
  caps := h.caps
  notBusyAndDone := by simp [Status.running]
  errIffCode := by simp [Status.running]
  busyClear := by simp [Status.running]
  errClear := by simp [Status.running]
  outLenLe := by simp
  idleIff := by simp [Status.running]
  inCanonical := h.inCanonical
  inInRange := h.inInRange
  outCanonical := rfl
  outKnown := by simp
  busyLatched := by simp

theorem State.Inv.ackDone (h : s.Inv) : (ackDone s).Inv where
  caps := h.caps
  notBusyAndDone := by simp [Status.acknowledged]
  errIffCode := h.errIffCode
  busyClear := h.busyClear
  errClear := h.errClear
  outLenLe := h.outLenLe
  idleIff := h.idleIff
  inCanonical := h.inCanonical
  inInRange := h.inInRange
  outCanonical := h.outCanonical
  outKnown := h.outKnown
  busyLatched := h.busyLatched

/-- `IN_LEN` is tied to the latched `N` only while busy. -/
theorem State.Inv.with_inLen (h : s.Inv) (hb : s.status.busy = false) (v : BitVec 64) : State.Inv { s with inLen := v } :=
  ⟨h.caps, h.notBusyAndDone, h.errIffCode, h.busyClear, h.errClear, h.outLenLe, h.idleIff, h.inCanonical, h.inInRange,
    h.outCanonical, h.outKnown, by simp [hb]⟩

/-- A byte written within `IN_CAP` keeps IN canonical and in range. -/
theorem State.Inv.with_inBuf_write (h : s.Inv) {a : Nat} (ha : a < s.cfg.inCap.toNat) (v : Byte) :
    State.Inv { s with inBuf := Memory.write s.inBuf a v } :=
  ⟨h.caps, h.notBusyAndDone, h.errIffCode, h.busyClear, h.errClear, h.outLenLe, h.idleIff,
    Memory.wf_write a v h.inCanonical,
    fun b hb => by
      have hba : b ≠ a := by rintro rfl; exact absurd ha (not_lt.2 hb)
      exact (Memory.read_write_other s.inBuf v hba).trans (h.inInRange b hb),
    h.outCanonical, h.outKnown, h.busyLatched⟩

theorem State.Inv.hostEffect {op : HostOp} (h : s.Inv) (he : HostEffect s op t) : t.Inv := by
  cases he with
  | replied op reply draws => exact h.with_untracked _ _ _ _ _ _ _
  | ctrlWritten v => exact h.with_untracked _ _ _ _ _ _ _
  | accepted v hb => exact (h.accept (commandWord v)).with_untracked _ _ _ _ _ _ _
  | acknowledged v hv => exact h.ackDone.with_untracked _ _ _ _ _ _ _
  | inLenWritten v hb => exact (h.with_inLen hb v).with_untracked _ _ _ _ _ _ _
  | inWritten a v hb ha => exact (h.with_inBuf_write ha v).with_untracked _ _ _ _ _ _ _

/-- No cause of an error has the code 0 (rule R281). -/
theorem Err.code_ne_zero (e : Err) : e.code ≠ 0 := by cases e <;> decide

theorem State.Inv.errorTerminate (h : s.Inv) (e : Err) : (errorTerminate e s).Inv where
  caps := h.caps
  notBusyAndDone := by simp [Status.failed]
  errIffCode := by simpa [Status.failed] using e.code_ne_zero
  busyClear := by simp [Status.failed]
  errClear := by simp [Status.failed]
  outLenLe := by simp
  idleIff := by simp [Status.failed]
  inCanonical := h.inCanonical
  inInRange := h.inInRange
  outCanonical := rfl
  outKnown := by simp
  busyLatched := by simp [Status.failed]

theorem State.Inv.complete_ok (h : s.Inv) {bs : List Byte} (hl : bs.length ≤ s.cfg.outCap.toNat) (trail : Bool) :
    (Ref.complete s (.ok (bs, trail))).Inv where
  caps := h.caps
  notBusyAndDone := by simp [Status.succeeded]
  errIffCode := by simp [Status.succeeded]
  busyClear := by simp [Status.succeeded]
  errClear := by simp [Status.succeeded]
  outLenLe := by rw [complete_ok_outLen, toNat_length_of_fits hl]; exact hl
  idleIff := by simp [Status.succeeded]
  inCanonical := h.inCanonical
  inInRange := h.inInRange
  outCanonical := Memory.wf_writeBytes bs 0 rfl
  outKnown := complete_ok_outKnown hl trail
  busyLatched := by simp [Status.succeeded]

theorem State.Inv.completion (h : s.Inv) (hb : s.status.busy = true) (hc : completion s = .next t) : t.Inv := by
  rcases completion_cases hc with ⟨i, hi⟩ | rfl
  · rcases exec_accepted_cases (h.accepted hb) hi with ⟨e, rfl⟩ | ⟨bs, trail, hl, rfl⟩
    · exact h.errorTerminate e
    · exact h.complete_ok hl trail
  · exact h.errorTerminate .cmd

/-- The state after reset meets the invariant whatever the block did before. -/
theorem afterReset_inv {cfg : Caps} (h : cfg.wellFormed = true) (agenda : List Turn) (epoch draws : Nat) :
    (State.afterReset cfg agenda epoch draws).Inv := by
  constructor <;> simp [State.afterReset, Status.idle, Memory.wf, h]

theorem State.Inv.step (h : s.Inv) (hs : step s = .next t) : t.Inv := by
  cases step_stepped hs with
  | idle hb => exact h.popTurn
  | completed t ha hb hc => exact h.popTurn.completion hb hc
  | host op t ha he => exact h.popTurn.hostEffect he
  | reset ha => exact afterReset_inv h.caps _ _ _

/-! ## Bytes of IN -/

/-- IN reads alike in states with the same written bytes since the same reset. -/
theorem inByte_congr (hb : t.inBuf = s.inBuf) (he : t.epoch = s.epoch) (a : Nat) : t.inByte a = s.inByte a := by
  simp only [State.inByte, hb, he]

theorem inByte_of_inBuf_nil (h : s.inBuf = []) (a : Nat) : s.inByte a = Config.freeInByte s.epoch a := by
  simp only [State.inByte, h, Memory.read_nil]

theorem inByte_inBuf_write (s : State) (reply : Reply) (a b : Nat) (v : Byte) :
    State.inByte { s with inBuf := Memory.write s.inBuf a v, reply } b = if b = a then v else s.inByte b := by
  simp only [State.inByte, Memory.read_write]
  split_ifs <;> rfl

/-- The one host transaction that changes a byte of IN is the write to that byte, not busy and in range (rules R40, R71). -/
theorem HostEffect.writeIn_of_inByte_ne {op : HostOp} {a : Nat} (he : HostEffect s op t) (hne : t.inByte a ≠ s.inByte a) :
    s.status.busy = false ∧ a < s.cfg.inCap.toNat ∧ op = .writeIn a (t.inByte a) := by
  cases he with
  | inWritten b v hb hr =>
    rw [inByte_inBuf_write] at hne ⊢
    split_ifs at hne ⊢ with hab
    · exact ⟨hb, hab ▸ hr, by rw [hab]⟩
    · exact absurd rfl hne
  | _ => exact absurd (inByte_congr rfl rfl a) hne

/-! ## The register port -/

theorem isRegOffset_iff (off : Nat) : isRegOffset off = true ↔ off % 8 = 0 ∧ off < 0x100 := by simp [isRegOffset]

theorem hostTurn_readReg {off : Nat} (h : isRegOffset off = true) :
    hostTurn (.readReg off) s = .next { s with reply := .word (readReg s off) } := by simp only [hostTurn, if_pos h]

theorem hostTurn_writeReg {off : Nat} (h : isRegOffset off = true) (v : Word64) :
    hostTurn (.writeReg off v) s = .next { writeReg off v s with reply := .none } := by simp only [hostTurn, if_pos h]

/-- A malformed access has no step (rule R28). -/
theorem hostTurn_malformed {off : Nat} (h : ¬ isRegOffset off = true) (v : Word64) :
    hostTurn (.readReg off) s = .refused (.notAPortTransaction off) ∧
      hostTurn (.writeReg off v) s = .refused (.notAPortTransaction off) := by
  simp only [hostTurn, if_neg h, and_self]

/-- Offsets from 0x38 up hold no register (rule R21). -/
theorem readReg_reserved {off : Nat} (h : 0x38 ≤ off) : readReg s off = 0 := by
  obtain ⟨k, rfl⟩ := Nat.exists_eq_add_of_le' h
  rfl

theorem writeReg_reserved {off : Nat} (h : 0x38 ≤ off) (v : Word64) : writeReg off v s = s := by
  obtain ⟨k, rfl⟩ := Nat.exists_eq_add_of_le' h
  rfl

theorem writeReg_ctrl (v : Word64) (s : State) : writeReg 0x00 v s = { s with ie := v.getLsbD 0 } := rfl

theorem writeReg_cmd (v : Word64) (h : s.status.busy = false) : writeReg 0x08 v s = accept (commandWord v) s := by
  simp [writeReg, h]

theorem writeReg_status (v : Word64) (s : State) :
    writeReg 0x10 v s = if v.getLsbD 1 then ackDone s else s := rfl

/-- The reserved bits of `STATUS`, 7:4 and 63:16, read 0 (rule R31). -/
theorem Status.word_reserved (x : Status) {k : Nat} (h : 4 ≤ k) (hk : k < 8 ∨ 16 ≤ k) : x.word.getLsbD k = false := by
  have hflags : x.busy.toNat + 2 * x.done.toNat + 4 * x.err.toNat + 8 * x.trail.toNat < 2 ^ 4 := by
    have := x.busy.toNat_lt; have := x.done.toNat_lt; have := x.err.toNat_lt; have := x.trail.toNat_lt
    omega
  have hcode := x.errcode.isLt
  unfold Status.word
  generalize x.busy.toNat + 2 * x.done.toNat + 4 * x.err.toNat + 8 * x.trail.toNat = f at hflags ⊢
  simp only [BitVec.getLsbD_ofNat, Bool.and_eq_false_imp]
  intro _
  rcases hk with hk | hk
  · rw [Nat.add_comm, show 256 = 2 ^ 8 from rfl, Nat.testBit_two_pow_mul_add _ (by omega), if_pos hk]
    exact Nat.testBit_lt_two_pow (hflags.trans_le (Nat.pow_le_pow_right (by decide) h))
  · exact Nat.testBit_lt_two_pow ((show _ < 2 ^ 16 by omega).trans_le (Nat.pow_le_pow_right (by decide) hk))

theorem Status.word_idle : Status.idle.word = 0 := by decide

/-- The reserved bits of `CTRL` read 0 (rule R29). -/
theorem ctrlWord_reserved (ie : Bool) {k : Nat} (h : 1 ≤ k) : (ctrlWord ie).getLsbD k = false := by
  have : k ≠ 0 := by omega
  simp [ctrlWord, this]

/-! ## The statements -/

/-- Settles O9, by the cases of a step: each leaves a state of which every clause is set anew or kept. -/
theorem stepKeepsInvariant : Obligations.StepKeepsInvariant := fun _ _ h hs => h.step hs

/-- Settles O17: of all that a step can be, only completion, acceptance and reset touch the outcome registers. -/
theorem outcomeRegistersChangeOnly : Obligations.OutcomeRegistersChangeOnly := by
  refine ⟨fun s t hs hne => ?_, fun s w => by simp [Status.running], fun s => by simp [Status.idle]⟩
  cases step_stepped hs with
  | idle hb => simp at hne
  | completed t ha hb hc => exact .inl ⟨hb, ha⟩
  | reset ha => exact .inr (.inl ha)
  | host op t ha he =>
    cases he with
    | accepted v hb => exact .inr (.inr ⟨hb, v, ha⟩)
    | _ => simp [Status.acknowledged] at hne

/-- Settles O20, from what the completion of an accepted command can leave. -/
theorem specifiedOutBytes : Obligations.SpecifiedOutBytes := by
  refine ⟨fun s t i hs h => ?_, fun s w a => by simp, fun s a => by simp⟩
  rcases exec_accepted_cases hs h with ⟨e, rfl⟩ | ⟨bs, trail, hl, rfl⟩
  · simp [Status.failed]
  · exact ⟨fun _ => complete_ok_outKnown hl trail, by simp [Status.succeeded]⟩

/-- Settles O21: a completion keeps IN, and of the host transactions only the write to a byte of IN touches one. -/
theorem inputBufferChangesOnly : Obligations.InputBufferChangesOnly := by
  intro s t a hs hne
  cases step_stepped hs with
  | idle hb => exact absurd (inByte_congr rfl rfl a) hne
  | completed t ha hb hc =>
    have hsh := (completion_completed hc).sameShell
    exact absurd (inByte_congr hsh.inBuf hsh.epoch a) hne
  | reset ha => exact .inl ha
  | host op t ha he =>
    obtain ⟨hb, hr, rfl⟩ := he.writeIn_of_inByte_ne hne
    exact .inr ⟨hb, hr, ha⟩

/-- Settles O7: the reset turn leads to the state of rule R53, read off field by field. -/
theorem resetValues : Obligations.ResetValues := by
  refine ⟨fun s rest ha => ⟨resetEvent s.popTurn, step_reset ha, ?_⟩, ?_⟩
  · have hword : (resetEvent s.popTurn).status.word = 0 := by rw [resetEvent_status, Status.word_idle]
    exact ⟨resetEvent_ie _, resetEvent_status _, hword, resetEvent_inLen _, resetEvent_outLen _, resetEvent_ph _, rfl,
      resetEvent_cfg _, inByte_of_inBuf_nil rfl, fun a => rfl⟩
  · exact ⟨rfl, Status.word_idle, rfl, rfl, rfl, rfl, inByte_of_inBuf_nil rfl, fun a => rfl⟩

/-- Settles O8: both are the state after a reset of a block with legal capacities. -/
theorem resetMeetsInvariant : Obligations.ResetMeetsInvariant :=
  ⟨afterReset_inv (by decide) _ _ _, fun _ h => afterReset_inv h _ _ _⟩

/-- Settles O10: while busy the invariant fixes the cursors and `OUT_LEN` at 0, and with it that OUT has no known byte. -/
theorem busyMeansAccepted : Obligations.BusyMeansAccepted :=
  ⟨fun s w => accept_accepted w s, fun _ h hb => h.accepted hb⟩

/-- Settles O13: a malformed offset is no register offset, and from 0x38 up there is no register. -/
theorem portWidthAndReserved : Obligations.PortWidthAndReserved := by
  intro s off v
  refine ⟨fun h => ?_, fun h₈ hlo hhi => ?_, fun k => ctrlWord_reserved s.ie, fun k => s.status.word_reserved, ?_, ?_,
    fun h₈ hhi => ?_⟩
  · exact hostTurn_malformed (by rw [isRegOffset_iff]; omega) v
  · have hreg := (isRegOffset_iff off).2 ⟨h₈, hhi⟩
    rw [hostTurn_readReg hreg, hostTurn_writeReg hreg, readReg_reserved hlo, writeReg_reserved hlo]
    exact ⟨rfl, rfl⟩
  · simp [writeReg_ctrl]
  · simp [writeReg_status]
  · exact ⟨_, hostTurn_readReg ((isRegOffset_iff off).2 ⟨h₈, hhi⟩), rfl⟩

/-- Settles O16: the first clause is a clause of the invariant, the third holds because every completion ends. -/
theorem busyAndDone : Obligations.BusyAndDone := by
  refine ⟨fun s h => h.notBusyAndDone, fun s w => by simp [Status.running], fun s hb => ?_, fun s v hv => ?_,
    fun s v hb => ?_⟩
  · obtain ⟨t, ht⟩ := completion_next s
    have hc := completion_completed ht
    exact ⟨t, by rw [blockTurn_busy hb, ht], hc.not_busy, hc.done⟩
  · rw [hostTurn_writeReg rfl, writeReg_status, if_pos hv]
    rfl
  · rw [hostTurn_writeReg rfl, hostTurn_writeReg rfl, writeReg_cmd v (by exact hb), writeReg_cmd v (by exact hb)]
    rfl

/-- Settles O18: a completion sets `DONE` and keeps `CTRL`; acceptance, acknowledgement and reset clear `DONE`. -/
theorem interruptPin : Obligations.InterruptPin := by
  refine ⟨fun s => rfl, fun s t hb h => ?_, fun s w => ?_, fun s => ⟨?_, ?_⟩, fun s v => rfl⟩
  · rw [blockTurn_busy hb] at h
    have hc := completion_completed h
    rw [State.irq, hc.done, hc.sameShell.ie, Bool.true_and]
  · simp [State.irq, Status.running]
  · simp [State.irq, Status.acknowledged]
  · simp [State.irq]

end Sys2Proof.Machine

/-! SUPPORT. The buffer port, the byte and bit order of the buffers and the sequential accesses (20_memory.md). -/

namespace Sys2Proof.Machine

variable {s t : State}

/-! ## Fields -/

/-- The value of a little-endian field, written as the sum of rule R62. -/
theorem leValue_map_range (f : Nat → Byte) (n : Nat) :
    leValue ((List.range n).map f) = ((List.range n).map fun i => 256 ^ i * (f i).toNat).sum := by
  induction n generalizing f with
  | zero => rfl
  | succ n ih =>
    calc leValue ((List.range (n + 1)).map f)
        = (f 0).toNat + 256 * leValue ((List.range n).map fun i => f (i + 1)) := by
          rw [List.range_succ_eq_map, List.map_cons, List.map_map]
          rfl
      _ = (f 0).toNat + 256 * ((List.range n).map fun i => 256 ^ i * (f (i + 1)).toNat).sum := by rw [ih]
      _ = ((List.range (n + 1)).map fun i => 256 ^ i * (f i).toNat).sum := by
          rw [List.range_succ_eq_map, ← List.sum_map_mul_left]
          simp [Function.comp_def, pow_succ', Nat.mul_assoc]

/-- Byte `k` of a little-endian field (rule R62). -/
theorem leBytes_getElem? {n k : Nat} (v : Nat) (h : k < n) :
    (leBytes n v)[k]? = some (BitVec.ofNat 8 (v / 256 ^ k % 256)) := by
  induction k generalizing n v with
  | zero =>
    obtain ⟨m, rfl⟩ := Nat.exists_eq_add_of_lt h
    simp [leBytes, ← BitVec.toNat_inj]
  | succ k ih =>
    obtain ⟨m, rfl⟩ := Nat.exists_eq_add_of_lt h
    rw [show k + 1 + m + 1 = (k + m + 1) + 1 by omega, leBytes, List.getElem?_cons_succ, ih _ (by omega),
      Nat.div_div_eq_div_mul, pow_succ']

theorem read_memWrite (a n v k : Nat) (s : State) :
    Memory.read (memWrite a n v s).outBuf k =
      if a ≤ k ∧ k < a + n then some (BitVec.ofNat 8 (v / 256 ^ (k - a) % 256)) else Memory.read s.outBuf k := by
  simp only [memWrite, Memory.read_writeBytes, leBytes_length]
  split_ifs with h
  · exact leBytes_getElem? v (by omega)
  · rfl

/-! ## The packer -/

/-- An empty accumulator is one that holds no bits of a payload byte. -/
theorem eq_packed_nil (hacc : s.huff.acc = 0) (hnb : s.huff.nb = 0) : s = packed [] s.seq.bp s := by
  have hbyte : Ref.payloadByte [] 0 = 0 := by decide
  rw [packed, hbyte, List.length_nil, ← hacc, ← hnb.trans BitVec.ofNat_eq_ofNat]

@[simp] theorem packed_outBuf (p : Bits) (bp : BitVec 64) (s : State) : (packed p bp s).outBuf = s.outBuf := rfl

@[simp] theorem packed_wp (p : Bits) (bp : BitVec 64) (s : State) : (packed p bp s).seq.wp = s.seq.wp := rfl

theorem emit_of_fits {bs : List Byte} (h : s.seq.wp.toNat + bs.length ≤ s.cfg.outCap.toNat) :
    emit bs s = .ok (appendOut bs s) := by rw [emit, if_neg (by omega)]

/-- From an empty accumulator the packer writes the packed payload, when it fits (rules R64, R165, R166). -/
theorem putBits_then_flush (bits : Bits) (hacc : s.huff.acc = 0) (hnb : s.huff.nb = 0)
    (h : s.seq.wp.toNat + ceil8 bits.length ≤ s.cfg.outCap.toNat) :
    ∃ t bp, bits.foldlM putBit s = .ok t ∧ flush t = .ok (packed [] bp (appendOut (Ref.packBits bits) s)) := by
  have hrun := putBits_flush bits s.seq.bp s (Nat.le_of_add_right_le h)
  rw [← eq_packed_nil hacc hnb, emit_of_fits (by rwa [Ref.packBits_length])] at hrun
  cases ht : bits.foldlM putBit s with
  | error e => rw [ht] at hrun; cases hrun
  | ok t => rw [ht] at hrun; exact ⟨t, _, rfl, hrun⟩

/-- Where a written byte string stands in OUT. -/
theorem read_appendOut (bs : List Byte) (s : State) (k : Nat) :
    Memory.read (appendOut bs s).outBuf k =
      if s.seq.wp.toNat ≤ k ∧ k < s.seq.wp.toNat + bs.length then bs[k - s.seq.wp.toNat]?
      else Memory.read s.outBuf k := Memory.read_writeBytes _ _ _ _

/-! ## The buffer port -/

theorem hostTurn_writeIn_written {a : Nat} (hb : s.status.busy = false) (ha : a < s.cfg.inCap.toNat) (v : Byte) :
    hostTurn (.writeIn a v) s = .next { s with inBuf := Memory.write s.inBuf a v, reply := .none } := by
  simp [hostTurn, hostWriteIn, hb, ha]

theorem hostWriteIn_dropped {a : Nat} (h : s.status.busy = true ∨ s.cfg.inCap.toNat ≤ a) (v : Byte) :
    hostWriteIn a v s = s := by rw [hostWriteIn, if_pos (h.imp_right Nat.not_lt.2)]

theorem hostReadIn_inRange {a : Nat} (h : a < s.cfg.inCap.toNat) : hostReadIn a s = s.inByte a := if_pos h

theorem hostReadIn_outOfRange {a : Nat} (h : s.cfg.inCap.toNat ≤ a) : hostReadIn a s = 0 := if_neg (Nat.not_lt.2 h)

theorem hostReadOut_outOfRange {a : Nat} (h : s.cfg.outCap.toNat ≤ a) : hostReadOut a s = (0, s) :=
  if_pos (Nat.not_lt.2 h)

theorem hostReadOut_specified {a : Nat} {b : Byte} (ha : a < s.cfg.outCap.toNat) (hb : s.status.busy = false)
    (hr : Memory.read s.outBuf a = some b) : hostReadOut a s = (b, s) := by simp [hostReadOut, ha, hb, hr]

theorem hostReadOut_unspecified {a : Nat} (ha : a < s.cfg.outCap.toNat)
    (h : s.status.busy = true ∨ Memory.read s.outBuf a = none) :
    hostReadOut a s = (Config.freeOutByte s.draws, { s with draws := s.draws + 1 }) := by
  have hnone : (if s.status.busy then none else Memory.read s.outBuf a) = none := by
    rcases h with hb | hr
    · rw [if_pos hb]
    · rw [hr, ite_self]
  simp [hostReadOut, ha, hnone]

/-! ## The turns of the agenda -/

theorem step_host {op : HostOp} {rest : List Turn} (ha : s.agenda = .host op :: rest) :
    step s = hostTurn op { s with agenda := rest } := by simp only [step, nextTurn, ha]

theorem step_block {rest : List Turn} (ha : s.agenda = .block :: rest) :
    step s = blockTurn { s with agenda := rest } := by simp only [step, nextTurn, ha]

theorem step_of_agenda_nil (ha : s.agenda = []) : step s = blockTurn s := by simp only [step, nextTurn, ha]

/-! ## Host transactions while a command runs -/

/-- While busy a host transaction reaches only `CTRL`, `STATUS.DONE` and the model's record of what the host got: writes to
`CMD`, `IN_LEN` and IN are dropped (rules R30, R34, R40). -/
theorem HostEffect.eq_of_busy {op : HostOp} (he : HostEffect s op t) (hb : s.status.busy = true) :
    ∃ ie done reply draws, t = { s with ie, status.done := done, reply, draws } := by
  have hnot : ¬ s.status.busy = false := by rw [hb]; decide
  cases he with
  | replied op reply draws => exact ⟨_, _, _, _, rfl⟩
  | ctrlWritten v => exact ⟨_, _, _, _, rfl⟩
  | acknowledged v hv => exact ⟨_, _, _, _, rfl⟩
  | accepted v hidle => exact absurd hidle hnot
  | inLenWritten v hidle => exact absurd hidle hnot
  | inWritten a v hidle ha => exact absurd hidle hnot

/-! ## The statements -/

/-- Settles O22, from the value of a field as a sum and the bytes of a field by index. -/
theorem fieldsAreLittleEndian : Obligations.FieldsAreLittleEndian :=
  ⟨fun s a n => leValue_map_range (fun i => s.inByte (a + i)) n, fun s a n v k => read_memWrite a n v k s⟩

/-- Settles O23: the packer appends the packed payload to OUT, and each bit of a payload byte is a stream bit or 0. -/
theorem payloadBitOrder : Obligations.PayloadBitOrder := by
  refine ⟨fun s bits hacc hnb hfit => ?_, fun s pb k => rfl⟩
  obtain ⟨t, bp, hput, hflush⟩ := putBits_then_flush bits hacc hnb hfit
  have hlen := Ref.packBits_length bits
  refine ⟨t, _, hput, hflush, ?_, fun k hk => ⟨Ref.payloadByte bits (k / 8), ?_, ?_⟩, fun a ha => ?_⟩
  · rw [packed_wp, wp_appendOut (by rwa [hlen]), hlen]
  · rw [packed_outBuf, read_appendOut, if_pos (by omega), Nat.add_sub_cancel_left]
    exact Ref.packBits_getElem? bits _ (by omega)
  · rw [Ref.payloadByte_bit _ _ _ (by omega), show 8 * (k / 8) + (7 - (7 - k % 8)) = k by omega]
  · rw [packed_outBuf, read_appendOut, if_neg (by omega)]

/-- Settles O6: the turn at the head of the agenda is the step; an idle block's turn changes nothing. -/
theorem turnsTakeEffectInOrder : Obligations.TurnsTakeEffectInOrder := by
  refine fun s => ⟨fun op rest ha => step_host ha, fun rest ha => ?_, fun rest ha hb => ?_, fun ha hb => ?_⟩
  · rw [step_reset ha, State.popTurn, ha, List.tail_cons]
  · exact (step_block ha).trans (blockTurn_idle hb)
  · exact (step_of_agenda_nil ha).trans (blockTurn_idle hb)

/-- Settles O15, from what a host transaction can reach while busy. -/
theorem hostCannotDisturbRunningCommand : Obligations.HostCannotDisturbRunningCommand := by
  intro s t op hb h
  obtain ⟨ie, done, reply, draws, rfl⟩ := (hostTurn_effect h).eq_of_busy hb
  exact ⟨rfl, rfl, rfl, rfl, rfl, rfl, rfl, rfl, rfl, rfl, hb, rfl, rfl, rfl, rfl⟩

/-- Settles O19, row by row. -/
theorem bufferPort : Obligations.BufferPort := by
  intro s a v
  refine ⟨fun hb ha => ⟨_, hostTurn_writeIn_written hb ha v, ?_, fun b hne => ?_, rfl⟩, fun h => ?_,
    fun ha => ?_, fun ha => ?_, fun ha => ?_, fun b ha hb hr => ?_, fun ha h => ?_, rfl⟩
  · rw [inByte_inBuf_write, if_pos rfl]
  · rw [inByte_inBuf_write, if_neg hne]
  · rw [hostTurn, hostWriteIn_dropped h]
  · rw [hostTurn, hostReadIn_inRange ha]
  · rw [hostTurn, hostReadIn_outOfRange ha]
  · rw [hostTurn, hostReadOut_outOfRange ha]
  · rw [hostTurn, hostReadOut_specified ha hb hr]
  · rw [hostTurn, hostReadOut_unspecified ha h]

/-- Settles O24: each access checks its bound first, and within it moves one cursor without wrapping. -/
theorem sequentialAccess : Obligations.SequentialAccess := by
  refine fun s n v => ⟨fun h => if_pos h, fun h => ⟨advance n s, if_neg (Nat.not_lt.2 h), advance_rp h, rfl⟩,
    fun h => if_pos h, fun h => ⟨appendOut (leBytes n v) s, ?_, rfl, ?_, rfl⟩⟩
  · rw [outBytes_eq_emit, emit_of_fits (by rwa [leBytes_length])]
  · rw [wp_appendOut (by rwa [leBytes_length]), leBytes_length]

end Sys2Proof.Machine

/-! SUPPORT. Command words: a word is its two fields, the decoder reads the opcode map off them, and an illegal word ends with
`E_CMD` (30_encoding.md). -/

namespace Sys2Proof

/-! ## The fields of a command word -/

/-- Format `C` has two fields and no bit outside them (rule R91). -/
theorem rsvdField_append_opField (w : Word32) : rsvdField w ++ opField w = w :=
  (BitVec.extractLsb'_append_extractLsb'_eq_extractLsb' (by rfl)).trans BitVec.extractLsb'_eq_self

theorem word_ext {w w' : Word32} (hrsvd : rsvdField w = rsvdField w') (hop : opField w = opField w') : w = w' := by
  rw [← rsvdField_append_opField w, hrsvd, hop, rsvdField_append_opField]

theorem tableWord_statement : ∀ i, Laws.TableWord.Statement i
  | .henc => Laws.TableWord.henc
  | .hdec => Laws.TableWord.hdec
  | .lenc => Laws.TableWord.lenc
  | .ldec => Laws.TableWord.ldec

theorem eq_encode_iff (w : Word32) (i : Instr) : w = encode i ↔ rsvdField w = 0 ∧ opField w = opcode i := by
  obtain ⟨-, hrsvd, hop, -⟩ := tableWord_statement i
  constructor
  · rintro rfl
    exact ⟨hrsvd, hop⟩
  · rintro ⟨hr, ho⟩
    exact word_ext (hr.trans hrsvd.symm) (ho.trans hop.symm)

/-! ## The decoder -/

/-- The opcode map read off the two fields (rules R92, R93). -/
theorem decode_eq_ok_iff (w : Word32) (i : Instr) : decode w = .ok i ↔ rsvdField w = 0 ∧ opField w = opcode i := by
  by_cases hr : rsvdField w = 0
  · simp only [decode, hr, ne_eq, not_true_eq_false, if_false, true_and]
    generalize opField w = op
    revert op
    cases i <;> decide
  · simp only [decode, hr, ne_eq, not_false_eq_true, if_true, reduceCtorEq, false_and]

theorem decode_eq_ok_iff_encode (w : Word32) (i : Instr) : decode w = .ok i ↔ w = encode i := by
  rw [decode_eq_ok_iff, eq_encode_iff]

@[simp] theorem decode_encode (i : Instr) : decode (encode i) = .ok i := (decode_eq_ok_iff_encode _ i).2 rfl

/-- The opcodes in use (rule R92). -/
theorem exists_opcode_eq_iff (op : BitVec 4) : (∃ i, op = opcode i) ↔ 1 ≤ op.toNat ∧ op.toNat ≤ 4 := by
  constructor
  · rintro ⟨i, rfl⟩
    cases i <;> decide
  · rintro ⟨hlo, hhi⟩
    obtain h | h | h | h : op.toNat = 1 ∨ op.toNat = 2 ∨ op.toNat = 3 ∨ op.toNat = 4 := by omega
    · exact ⟨.henc, BitVec.eq_of_toNat_eq h⟩
    · exact ⟨.hdec, BitVec.eq_of_toNat_eq h⟩
    · exact ⟨.lenc, BitVec.eq_of_toNat_eq h⟩
    · exact ⟨.ldec, BitVec.eq_of_toNat_eq h⟩

theorem legalCommandWord_iff (w : Word32) :
    legalCommandWord w = true ↔ rsvdField w = 0 ∧ 1 ≤ (opField w).toNat ∧ (opField w).toNat ≤ 4 := by
  simp [legalCommandWord, rsvdField, opField, and_assoc]

theorem legalCommandWord_iff_decode (w : Word32) : legalCommandWord w = true ↔ ∃ i, decode w = .ok i := by
  simp only [decode_eq_ok_iff, exists_and_left, exists_opcode_eq_iff, legalCommandWord_iff]

/-- The words of rule R93 are no command. -/
theorem decode_ne_ok_of_illegal {w : Word32} (h : opField w = 0 ∨ 5 ≤ (opField w).toNat ∨ rsvdField w ≠ 0) (i : Instr) :
    decode w ≠ .ok i := by
  intro hd
  obtain ⟨hrsvd, hlo, hhi⟩ := (legalCommandWord_iff w).1 ((legalCommandWord_iff_decode w).2 ⟨i, hd⟩)
  rcases h with h | h | h
  · rw [h] at hlo
    exact absurd hlo (by decide)
  · omega
  · exact h hrsvd

namespace Machine

/-! ## The completion of an illegal word -/

theorem completion_illegal {s : State} (h : ∀ i, decode s.seq.cmdl ≠ .ok i) :
    completion s = .next (errorTerminate .cmd s) := by
  unfold completion
  split
  next i hi => exact absurd hi (h i)
  next => rfl

end Machine

/-! ## The statements -/

open Machine

/-- Settles O2: word and command agree when the two fields do. -/
theorem decodeInvertsEncode : Obligations.DecodeInvertsEncode :=
  ⟨decode_encode, decode_eq_ok_iff_encode, legalCommandWord_iff_decode⟩

/-- Settles O1: each of the four is the word of its command. -/
theorem commandWordsDecode : Obligations.CommandWordsDecode :=
  ⟨decode_encode .henc, decode_encode .hdec, decode_encode .lenc, decode_encode .ldec⟩

/-- Settles O3: the host's write is an acceptance, and the latched word is no command. -/
theorem illegalWordIsAcceptedThenFails : Obligations.IllegalWordIsAcceptedThenFails := by
  intro s v hidle hillegal
  let t : State := { accept (commandWord v) s with reply := .none }
  have hhost : hostTurn (.writeReg 0x08 v) s = .next t := by rw [hostTurn_writeReg rfl, writeReg_cmd v hidle]
  have hblock : blockTurn t = .next (errorTerminate .cmd t) :=
    (blockTurn_busy rfl).trans (completion_illegal (decode_ne_ok_of_illegal hillegal))
  exact ⟨t, errorTerminate .cmd t, hhost, rfl, hblock, rfl, rfl, fun _ => rfl, (Completed.failed .cmd).sameShell⟩

end Sys2Proof

/-! SUPPORT. The frequency analyzer and `POPMIN` (40_huffman_tree_and_codes.md). -/

namespace Sys2Proof.Machine

/-! ## Frequency analyzer -/

/-- Every element of a byte string is counted under exactly one byte value. -/
theorem sum_count_allBytes (bs : List Byte) : (allBytes.map fun b => bs.count b).sum = bs.length := by
  have huniv : bs.toFinset ⊆ allBytes.toFinset := fun b _ => List.mem_toFinset.2 (mem_allBytes b)
  calc (allBytes.map fun b => bs.count b).sum
      = ∑ b ∈ allBytes.toFinset, bs.count b := (List.sum_toFinset _ allBytes_nodup).symm
    _ = ∑ b ∈ bs.toFinset, bs.count b :=
        (Finset.sum_subset huniv fun b _ hb => List.count_eq_zero.2 fun h => hb (List.mem_toFinset.2 h)).symm
    _ = bs.length := List.sum_toFinset_count_eq_length bs

theorem entryOf_countBytes_ne_zero {bs : List Byte} (h : bs.length < 2 ^ 32) (b : Byte) :
    entryOf (countBytes bs) b ≠ 0 ↔ b ∈ bs := by
  rw [Ne, ← mapping_eq_zero, mapping_countBytes bs h, Ref.freqOf, List.count_eq_zero, not_not]

theorem distinctBytes_countBytes {bs : List Byte} (h : bs.length < 2 ^ 32) :
    distinctBytes (countBytes bs) = (allBytes.filter fun b => b ∈ bs).length := by
  rw [distinctBytes, List.countP_eq_length_filter]
  congr 1
  refine List.filter_congr fun b _ => ?_
  rw [Bool.eq_iff_iff, bne_iff_ne, decide_eq_true_iff]
  exact entryOf_countBytes_ne_zero h b

theorem distinct_length_le (bs : List Byte) : (allBytes.filter fun b => b ∈ bs).length ≤ bs.length :=
  (List.subperm_of_subset (allBytes_nodup.filter _) fun b hb => by simpa using (List.mem_filter.1 hb).2).length_le

theorem distinct_length_pos {bs : List Byte} (h : bs ≠ []) : 0 < (allBytes.filter fun b => b ∈ bs).length := by
  obtain ⟨b, hb⟩ := List.exists_mem_of_ne_nil bs h
  exact List.length_pos_of_mem (List.mem_filter.2 ⟨mem_allBytes b, by simpa using hb⟩)

@[simp] theorem freqCount_freq (s : State) : (freqCount s).huff.freq = countBytes s.input := rfl

@[simp] theorem freqCount_nsym_toNat (s : State) : (freqCount s).huff.nsym.toNat = distinctBytes (countBytes s.input) :=
  Nat.mod_eq_of_lt (Nat.lt_of_le_of_lt (distinctBytes_le _) (by decide))

/-! ## `POPMIN` -/

theorem minQueued_isSome (i : Nat) {ns : List Node} (h : 1 ≤ queueSize ns) : ∃ p, minQueued i ns = some p := by
  rw [← Option.isSome_iff_exists, Option.isSome_iff_ne_none, minQueued_eq, Ne, Option.map_eq_none_iff, popBy_eq_none,
    ← List.length_eq_zero_iff, queued_length]
  omega

theorem inq_of_minQueued_eq_none {i : Nat} {ns : List Node} (h : minQueued i ns = none) : ∀ n ∈ ns, n.inq = false := by
  have hzero : ¬ 1 ≤ queueSize ns := fun hpos => by
    obtain ⟨p, hp⟩ := minQueued_isSome i hpos
    rw [h] at hp
    cases hp
  intro n hn
  by_contra hq
  exact hzero (List.countP_pos_iff.2 ⟨n, hn, by simpa using hq⟩)

/-- The node `n`, at position `k` of the list, is queued and has the smallest pair of weight and index (rule R135). -/
structure IsMinQueued (ns : List Node) (k : Nat) (n : Node) : Prop where
  node : ns[k]? = some n
  inq : n.inq = true
  least : ∀ (j : Nat) (m : Node), ns[j]? = some m → m.inq = true → n.w < m.w ∨ (n.w = m.w ∧ k ≤ j)

/-- A queued first node is smallest when no later one is lighter. -/
theorem IsMinQueued.head {n : Node} {ns : List Node} (hq : n.inq = true) (h : ∀ m ∈ ns, m.inq = true → n.w ≤ m.w) :
    IsMinQueued (n :: ns) 0 n := by
  refine ⟨rfl, hq, fun j m hm hmq => ?_⟩
  have hle : n.w ≤ m.w := by
    rcases List.mem_cons.1 (List.mem_of_getElem? hm) with rfl | hmem
    · exact BitVec.le_refl _
    · exact h m hmem hmq
  rcases Std.le_iff_lt_or_eq.1 hle with hlt | heq
  · exact Or.inl hlt
  · exact Or.inr ⟨heq, Nat.zero_le j⟩

/-- The smallest of the later nodes stays smallest when the first node is not queued or is heavier. -/
theorem IsMinQueued.cons {n n' : Node} {ns : List Node} {k : Nat} (h : IsMinQueued ns k n)
    (hn : n'.inq = true → n.w < n'.w) : IsMinQueued (n' :: ns) (k + 1) n := by
  refine ⟨h.node, h.inq, fun j m hm hmq => ?_⟩
  cases j with
  | zero =>
    obtain rfl : n' = m := Option.some.inj hm
    exact Or.inl (hn hmq)
  | succ j =>
    rcases h.least j m hm hmq with hlt | ⟨heq, hle⟩
    · exact Or.inl hlt
    · exact Or.inr ⟨heq, Nat.succ_le_succ hle⟩

theorem IsMinQueued.weight_le {n m : Node} {ns : List Node} {k : Nat} (h : IsMinQueued ns k n) (hm : m ∈ ns)
    (hq : m.inq = true) : n.w ≤ m.w := by
  obtain ⟨j, hj⟩ := List.mem_iff_getElem?.1 hm
  rcases h.least j m hj hq with hlt | ⟨heq, -⟩
  · exact BitVec.le_of_lt hlt
  · exact BitVec.le_of_eq heq

theorem minQueued_spec {i j : Nat} {w : BitVec 40} {ns : List Node} (h : minQueued i ns = some (j, w)) :
    ∃ k n, IsMinQueued ns k n ∧ j = i + k ∧ w = n.w := by
  induction ns generalizing i j w with
  | nil => cases h
  | cons n ns ih =>
    simp only [minQueued] at h
    cases hrest : minQueued (i + 1) ns with
    | none =>
      have hnone := inq_of_minQueued_eq_none hrest
      rw [hrest] at h
      obtain ⟨hq, heq⟩ := Option.ite_none_right_eq_some.1 h
      cases heq
      exact ⟨0, n, .head hq fun m hm hmq => absurd hmq (by simp [hnone m hm]), rfl, rfl⟩
    | some p =>
      obtain ⟨j', w'⟩ := p
      obtain ⟨k, m, hmin, rfl, rfl⟩ := ih hrest
      rw [hrest] at h
      by_cases hfirst : n.inq = true ∧ n.w ≤ m.w
      · obtain ⟨hq, hle⟩ := hfirst
        obtain ⟨rfl, rfl⟩ : i = j ∧ n.w = w := by simpa [hq, hle] using h
        exact ⟨0, n, .head hq fun m' hm' hq' => BitVec.le_trans hle (hmin.weight_le hm' hq'), rfl, rfl⟩
      · obtain ⟨rfl, rfl⟩ : i + 1 + k = j ∧ m.w = w := by simpa [hfirst] using h
        exact ⟨k + 1, m, hmin.cons fun hq => BitVec.not_le.1 fun hle => hfirst ⟨hq, hle⟩, by omega, rfl⟩

/-- What `POPMIN` answers on a queue that is not empty (rule R135). -/
theorem popMin_spec {ns : List Node} (h : 1 ≤ queueSize ns) :
    ∃ i n, IsMinQueued ns i n ∧ popMin ns = some (i, n.w, ns.modify i unqueue) := by
  obtain ⟨⟨j, w⟩, hp⟩ := minQueued_isSome 0 h
  obtain ⟨i, n, hmin, rfl, rfl⟩ := minQueued_spec hp
  rw [Nat.zero_add] at hp
  exact ⟨i, n, hmin, by rw [popMin, hp, Option.map_some]⟩

theorem modify_unqueue_eq_set {ns : List Node} {i : Nat} {n : Node} (h : ns[i]? = some n) :
    ns.modify i unqueue = ns.set i (unqueue n) := by
  rw [List.modify_eq_set_getElem?, h]
  rfl

/-! ## The statements -/

/-- Settles O25: the counting loop counts, and each byte of the input is counted under one byte value. -/
theorem frequencyCount : Obligations.FrequencyCount := by
  intro s hN
  have hlen : s.input.length < 2 ^ 32 := by rwa [input_length]
  have hcount : ∀ b, (entryOf (freqCount s).huff.freq b).toNat = s.input.count b :=
    fun b => countBytes_toNat s.input b hlen
  have hnsym : (freqCount s).huff.nsym.toNat = (allBytes.filter fun b => b ∈ s.input).length := by
    rw [freqCount_nsym_toNat, distinctBytes_countBytes hlen]
  refine ⟨hcount, hnsym, ?_, fun hpos => ⟨?_, Nat.le_min.2 ⟨?_, ?_⟩⟩, rfl⟩
  · simp only [hcount, sum_count_allBytes, input_length]
  · rw [hnsym]
    exact distinct_length_pos (List.ne_nil_of_length_pos (by rwa [input_length]))
  · rw [hnsym, ← input_length s]
    exact distinct_length_le s.input
  · rw [freqCount_nsym_toNat]
    exact distinctBytes_le _

/-- Settles O26: the scan of the arena keeps the smallest pair of the nodes it has seen. -/
theorem popMinTieBreak : Obligations.PopMinTieBreak := by
  intro ns h
  obtain ⟨i, n, hmin, hpop⟩ := popMin_spec h
  exact ⟨i, n, hmin.node, hmin.inq, by rw [hpop, modify_unqueue_eq_set hmin.node]; rfl, hmin.least⟩

end Sys2Proof.Machine

/-! SUPPORT. The tree builder: what a round of `COMBINE` does to the arena, and what every arena that rounds make of the leaves
has in common (rules R132, R133, R136, R138 in 40_huffman_tree_and_codes.md). -/

namespace Sys2Proof.Machine

/-! ## The queue when a node is popped -/

/-- The summed weight of the queued nodes. -/
def queuedWeight (ns : List Node) : Nat := ((ns.filter (·.inq)).map (·.w.toNat)).sum

theorem exists_split_unqueue {ns : List Node} {i : Nat} {n : Node} (h : ns[i]? = some n) :
    ∃ front back, ns = front ++ n :: back ∧ ns.modify i unqueue = front ++ unqueue n :: back := by
  obtain ⟨hi, rfl⟩ := List.getElem?_eq_some_iff.1 h
  exact ⟨_, _, by rw [List.getElem_cons_drop, List.take_append_drop], List.modify_eq_take_cons_drop hi⟩

theorem queueSize_unqueue {ns : List Node} {i : Nat} {n : Node} (h : ns[i]? = some n) (hq : n.inq = true) :
    queueSize (ns.modify i unqueue) + 1 = queueSize ns := by
  obtain ⟨front, back, hns, hms⟩ := exists_split_unqueue h
  rw [hms, hns]
  simp [queueSize, unqueue, hq, Nat.add_assoc]

theorem queuedWeight_unqueue {ns : List Node} {i : Nat} {n : Node} (h : ns[i]? = some n) (hq : n.inq = true) :
    queuedWeight (ns.modify i unqueue) + n.w.toNat = queuedWeight ns := by
  obtain ⟨front, back, hns, hms⟩ := exists_split_unqueue h
  rw [hms, hns]
  simp [queuedWeight, unqueue, hq, Nat.add_comm, Nat.add_left_comm]

@[simp] theorem queueSize_append_parent (ns : List Node) (i j : Nat) (w : BitVec 40) :
    queueSize (ns ++ [parentNode i j w]) = queueSize ns + 1 := by simp [queueSize, parentNode]

@[simp] theorem queuedWeight_append_parent (ns : List Node) (i j : Nat) (w : BitVec 40) :
    queuedWeight (ns ++ [parentNode i j w]) = queuedWeight ns + w.toNat := by simp [queuedWeight, parentNode]

/-! ## One round of `COMBINE` -/

/-- One round of `COMBINE`: two nodes are popped, smallest first, and their parent is appended (rule R136). -/
inductive Round (ns : List Node) : List Node → Prop
  | mk {i j : Nat} {a b : Node} (left : IsMinQueued ns i a) (right : IsMinQueued (ns.modify i unqueue) j b) :
      Round ns ((ns.modify i unqueue).modify j unqueue ++ [parentNode i j (a.w + b.w)])

theorem combine_of_queueSize_le_one {ns : List Node} (h : queueSize ns ≤ 1) (k : Nat) : combine k ns = ns := by
  cases k with
  | zero => rfl
  | succ k => rw [combine, if_pos h]

theorem combine_succ {ns : List Node} (h : 2 ≤ queueSize ns) (k : Nat) :
    ∃ ms, Round ns ms ∧ combine (k + 1) ns = combine k ms := by
  obtain ⟨i, a, ha, hpa⟩ := popMin_spec (ns := ns) (by omega)
  have hsize := queueSize_unqueue ha.node ha.inq
  obtain ⟨j, b, hb, hpb⟩ := popMin_spec (ns := ns.modify i unqueue) (by omega)
  exact ⟨_, .mk ha hb, by simp only [combine, if_neg (Nat.not_le.2 h), hpa, hpb]⟩

/-- What every round keeps, `COMBINE` keeps. -/
theorem combine_induction {P : List Node → Prop} (hround : ∀ ns ms, Round ns ms → P ns → P ms) (k : Nat) {ns : List Node}
    (h : P ns) : P (combine k ns) := by
  induction k generalizing ns with
  | zero => exact h
  | succ k ih =>
    by_cases hq : queueSize ns ≤ 1
    · rwa [combine_of_queueSize_le_one hq]
    · obtain ⟨ms, hr, heq⟩ := combine_succ (Nat.not_le.1 hq) k
      rw [heq]
      exact ih (hround ns ms hr h)

variable {ns ms : List Node}

/-- Two nodes leave the queue and one enters, as one node is created (rule R132). -/
theorem Round.length_add_queueSize (h : Round ns ms) : ms.length + queueSize ms = ns.length + queueSize ns := by
  obtain ⟨ha, hb⟩ := h
  have := queueSize_unqueue ha.node ha.inq
  have := queueSize_unqueue hb.node hb.inq
  simp only [List.length_append, List.length_modify, List.length_singleton, queueSize_append_parent]
  omega

/-- The weights the queue holds in all stay the same (rule R138 (c)). -/
theorem Round.queuedWeight_eq (h : Round ns ms) (hw : queuedWeight ns < 2 ^ 40) : queuedWeight ms = queuedWeight ns := by
  obtain ⟨ha, hb⟩ := h
  have := queuedWeight_unqueue ha.node ha.inq
  have := queuedWeight_unqueue hb.node hb.inq
  rw [queuedWeight_append_parent, BitVec.toNat_add, Nat.mod_eq_of_lt (by omega)]
  omega

/-! ## The arena without its queue -/

/-- What a node is, in the queue or not: its kind with the fields of that kind, and its weight (rule R44). -/
abbrev Shape := NodeBody × BitVec 40

/-- The shape of a node: everything but `INQ`. -/
def shape (n : Node) : Shape := (n.body, n.w)

@[simp] theorem map_shape_modify_unqueue (ns : List Node) (i : Nat) : (ns.modify i unqueue).map shape = ns.map shape := by
  refine List.ext_getElem? fun k => ?_
  rw [List.getElem?_map, List.getElem?_map, List.getElem?_modify]
  cases ns[k]? with
  | none => rfl
  | some n => by_cases h : i = k <;> simp [h, shape, unqueue]

theorem getElem?_map_shape {i : Nat} {n : Node} (h : ns[i]? = some n) : (ns.map shape)[i]? = some (shape n) := by
  rw [List.getElem?_map, h, Option.map_some]

theorem exists_getElem?_of_map_shape {i : Nat} {p : Shape} (h : (ns.map shape)[i]? = some p) :
    ∃ n, ns[i]? = some n ∧ shape n = p := by rwa [List.getElem?_map, Option.map_eq_some_iff] at h

/-- The arenas that combining makes of the leaves `ls`: each further node is the parent of two nodes before it, and weighs what
they weigh together (rule R136). -/
inductive Grown (ls : List Shape) : List Shape → Prop
  | leaves : Grown ls ls
  | parent {sh : List Shape} {i j : Nat} {p q : Shape} (h : Grown ls sh) (hp : sh[i]? = some p) (hq : sh[j]? = some q)
      (hi : i < 512) (hj : j < 512) (hw : p.2.toNat + q.2.toNat < 2 ^ 40) :
      Grown ls (sh ++ [(.internal (BitVec.ofNat 9 i) (BitVec.ofNat 9 j), p.2 + q.2)])

/-- Entry `i`, which is `p`, is an internal node with two children before it and the sum of their weights (rule R138). -/
def IsParent (sh : List Shape) (i : Nat) (p : Shape) : Prop :=
  ∃ l r pl pr, p.1 = .internal l r ∧ l.toNat < i ∧ r.toNat < i ∧ sh[l.toNat]? = some pl ∧ sh[r.toNat]? = some pr ∧
    p.2.toNat = pl.2.toNat + pr.2.toNat

theorem IsParent.append {sh : List Shape} {i : Nat} {p : Shape} (h : IsParent sh i p) (more : List Shape) :
    IsParent (sh ++ more) i p := by
  obtain ⟨l, r, pl, pr, hbody, hl, hr, hpl, hpr, hw⟩ := h
  exact ⟨l, r, pl, pr, hbody, hl, hr, List.getElem?_append_left (List.getElem?_eq_some_iff.1 hpl).1 ▸ hpl,
    List.getElem?_append_left (List.getElem?_eq_some_iff.1 hpr).1 ▸ hpr, hw⟩

theorem isParent_append_parent {sh : List Shape} {i j : Nat} {p q : Shape} (hp : sh[i]? = some p) (hq : sh[j]? = some q)
    (hi : i < 512) (hj : j < 512) (hw : p.2.toNat + q.2.toNat < 2 ^ 40) :
    IsParent sh sh.length (.internal (BitVec.ofNat 9 i) (BitVec.ofNat 9 j), p.2 + q.2) := by
  have hi9 : (BitVec.ofNat 9 i).toNat = i := Nat.mod_eq_of_lt hi
  have hj9 : (BitVec.ofNat 9 j).toNat = j := Nat.mod_eq_of_lt hj
  refine ⟨_, _, p, q, rfl, ?_, ?_, by rwa [hi9], by rwa [hj9], ?_⟩
  · rw [hi9]
    exact (List.getElem?_eq_some_iff.1 hp).1
  · rw [hj9]
    exact (List.getElem?_eq_some_iff.1 hq).1
  · rw [BitVec.toNat_add, Nat.mod_eq_of_lt hw]

section
variable {ls sh : List Shape}

theorem Grown.leaves_isPrefix (h : Grown ls sh) : ls <+: sh := by
  induction h with
  | leaves => exact List.prefix_refl _
  | parent _ _ _ _ _ _ ih => exact ih.trans (List.prefix_append _ _)

theorem Grown.isParent (h : Grown ls sh) {i : Nat} {p : Shape} (hi : ls.length ≤ i) (hp : sh[i]? = some p) :
    IsParent sh i p := by
  induction h with
  | leaves => exact absurd (List.getElem?_eq_some_iff.1 hp).1 (Nat.not_lt.2 hi)
  | @parent sh _ _ _ _ _ hl hr hil hjl hw ih =>
    refine IsParent.append ?_ _
    by_cases hlast : i < sh.length
    · exact ih (by rwa [List.getElem?_append_left hlast] at hp)
    · have hlt := (List.getElem?_eq_some_iff.1 hp).1
      rw [List.length_append, List.length_singleton] at hlt
      obtain rfl : i = sh.length := by omega
      rw [List.getElem?_concat_length, Option.some.injEq] at hp
      subst hp
      exact isParent_append_parent hl hr hil hjl hw

/-- The byte and the count of a leaf. -/
def leafEntry (p : Shape) : Option (Byte × Nat) :=
  match p.1 with
  | .leaf b => some (b, p.2.toNat)
  | .internal _ _ => none

/-- Combining makes no leaf. -/
theorem Grown.filterMap_leafEntry (h : Grown ls sh) : sh.filterMap leafEntry = ls.filterMap leafEntry := by
  induction h with
  | leaves => rfl
  | parent _ _ _ _ _ _ ih => rw [List.filterMap_append, ih]; exact List.append_nil _

end

/-! ## What `COMBINE` keeps -/

/-- An arena grown from `ls` whose nodes still to come fit NODE, and whose weights still to come fit `W` (rules R70, R132). -/
structure Growing (ls : List Shape) (ns : List Node) : Prop where
  grown : Grown ls (ns.map shape)
  size : ns.length + queueSize ns ≤ 512
  weight : queuedWeight ns < 2 ^ 40

theorem Round.grown (h : Round ns ms) (hsize : ns.length ≤ 512) (hw : queuedWeight ns < 2 ^ 40) {ls : List Shape}
    (hg : Grown ls (ns.map shape)) : Grown ls (ms.map shape) := by
  obtain @⟨i, j, a, b, ha, hb⟩ := h
  have hi := (List.getElem?_eq_some_iff.1 ha.node).1
  have hj := (List.getElem?_eq_some_iff.1 hb.node).1
  have := queuedWeight_unqueue ha.node ha.inq
  have := queuedWeight_unqueue hb.node hb.inq
  have hpb := getElem?_map_shape hb.node
  rw [List.length_modify] at hj
  rw [map_shape_modify_unqueue] at hpb
  rw [List.map_append, map_shape_modify_unqueue, map_shape_modify_unqueue]
  exact .parent hg (getElem?_map_shape ha.node) hpb (by omega) (by omega) (show a.w.toNat + b.w.toNat < 2 ^ 40 by omega)

theorem Growing.round {ls : List Shape} (h : Growing ls ns) (hr : Round ns ms) : Growing ls ms := by
  obtain ⟨hgrown, hsize, hweight⟩ := h
  exact ⟨hr.grown (by omega) hweight hgrown, by rwa [hr.length_add_queueSize], by rwa [hr.queuedWeight_eq hweight]⟩

/-- The last node of the arena is queued. -/
def LastQueued (ns : List Node) : Prop := ∃ front n, ns = front ++ [n] ∧ n.inq = true

theorem Round.lastQueued (h : Round ns ms) : LastQueued ms := by
  obtain ⟨ha, hb⟩ := h
  exact ⟨_, _, rfl, rfl⟩

/-! ## From a mapping -/

/-- The leaves are one queued leaf per byte of the mapping, in ascending byte order (rule R133). -/
theorem leaves_eq_map (f : ByteTable (BitVec 32)) :
    leaves f = (allBytes.filter fun b => entryOf f b ≠ 0).map fun b =>
      { body := .leaf b, w := (entryOf f b).setWidth 40, inq := true } := by
  unfold leaves
  induction allBytes with
  | nil => rfl
  | cons b bs ih =>
    by_cases h : entryOf f b = 0
    · rw [List.filterMap_cons_none (leafNode_absent h).1, List.filter_cons_of_neg (by simpa using h), ih]
    · rw [List.filterMap_cons_some (leafNode_present h).1, List.filter_cons_of_pos (by simpa using h), List.map_cons, ih]

theorem leaves_length_eq_distinct (f : ByteTable (BitVec 32)) :
    (leaves f).length = (allBytes.filter fun b => entryOf f b ≠ 0).length := by rw [leaves_eq_map, List.length_map]

theorem leaf_of_mem_leaves {f : ByteTable (BitVec 32)} {n : Node} (h : n ∈ leaves f) :
    (∃ b, n.body = .leaf b) ∧ n.inq = true := by
  rw [leaves_eq_map] at h
  obtain ⟨b, -, rfl⟩ := List.mem_map.1 h
  exact ⟨⟨b, rfl⟩, rfl⟩

theorem queueSize_leaves (f : ByteTable (BitVec 32)) : queueSize (leaves f) = (leaves f).length :=
  List.countP_eq_length.2 fun _ hn => (leaf_of_mem_leaves hn).2

theorem toNat_setWidth_count (w : BitVec 32) : (w.setWidth 40).toNat = w.toNat := by
  rw [BitVec.toNat_setWidth]
  exact Nat.mod_eq_of_lt (Nat.lt_trans w.isLt (by decide))

theorem filterMap_leafEntry_leaves (f : ByteTable (BitVec 32)) :
    ((leaves f).map shape).filterMap leafEntry =
      (allBytes.filter fun b => entryOf f b ≠ 0).map fun b => (b, (entryOf f b).toNat) := by
  rw [leaves_eq_map, List.map_map, List.filterMap_map]
  refine (List.filterMap_congr fun b _ => ?_).trans (congrFun List.filterMap_eq_map' _)
  exact congrArg (fun w => some (b, w)) (toNat_setWidth_count (entryOf f b))

theorem queueWeight_leafQueue (g : Byte → Nat) : Ref.queueWeight (Ref.leafQueue g) = (allBytes.map g).sum := by
  unfold Ref.queueWeight Ref.leafQueue
  induction allBytes with
  | nil => rfl
  | cons b bs ih =>
    by_cases h : g b = 0
    · rw [List.filterMap_cons_none (by rw [Ref.leafItem, if_pos h]), List.map_cons, List.sum_cons, h, Nat.zero_add, ih]
    · rw [List.filterMap_cons_some (by rw [Ref.leafItem, if_neg h]), List.map_cons, List.map_cons, List.sum_cons,
        List.sum_cons, ih]

theorem queuedWeight_leaves (f : ByteTable (BitVec 32)) :
    queuedWeight (leaves f) = Ref.queueWeight (Ref.leafQueue (mapping f)) := by
  unfold queuedWeight Ref.queueWeight leaves Ref.leafQueue
  induction allBytes with
  | nil => rfl
  | cons b bs ih =>
    by_cases h : entryOf f b = 0
    · rw [List.filterMap_cons_none (leafNode_absent h).1, List.filterMap_cons_none (leafNode_absent h).2, ih]
    · rw [List.filterMap_cons_some (leafNode_present h).1, List.filterMap_cons_some (leafNode_present h).2,
        List.filter_cons_of_pos rfl, List.map_cons, List.map_cons, List.sum_cons, List.sum_cons, ih,
        toNat_setWidth_count, mapping]

theorem lastQueued_leaves {f : ByteTable (BitVec 32)} (h : leaves f ≠ []) : LastQueued (leaves f) :=
  ⟨_, _, (List.dropLast_concat_getLast h).symm, (leaf_of_mem_leaves (List.getLast_mem h)).2⟩

theorem leaves_ne_nil {f : ByteTable (BitVec 32)} (h : ∃ b, entryOf f b ≠ 0) : leaves f ≠ [] := by
  obtain ⟨b, hb⟩ := h
  rw [leaves_eq_map, Ne, List.map_eq_nil_iff]
  exact List.ne_nil_of_mem (List.mem_filter.2 ⟨mem_allBytes b, by simpa using hb⟩)

theorem buildArena_grown (f : ByteTable (BitVec 32)) : Grown ((leaves f).map shape) ((buildArena f).map shape) := by
  have hle : (leaves f).length ≤ 256 := by
    rw [leaves_length]
    exact Ref.leafQueue_length_le _
  have hstart : Growing ((leaves f).map shape) (leaves f) :=
    ⟨.leaves, by rw [queueSize_leaves]; omega, by rw [queuedWeight_leaves]; exact queueWeight_leafQueue_lt f⟩
  exact (combine_induction (fun _ _ hr h => h.round hr) (leaves f).length hstart).grown

/-- The root is the last node created, and weighs what all counts sum to (rules R132, R138 (c)). -/
theorem buildArena_root {f : ByteTable (BitVec 32)} (h : ∃ b, entryOf f b ≠ 0) :
    ∃ front n, buildArena f = front ++ [n] ∧ rootIndex (buildArena f) = front.length ∧
      n.w.toNat = (allBytes.map (mapping f)).sum := by
  obtain ⟨-, w, -, hqueued, -, hw, -⟩ := buildArena_spec f h
  obtain ⟨front, n, hns, hq⟩ : LastQueued (buildArena f) :=
    combine_induction (fun _ _ hr _ => hr.lastQueued) _ (lastQueued_leaves (leaves_ne_nil h))
  have hlast : queued 0 (buildArena f) = queued 0 front ++ [(front.length, n.w)] := by
    rw [hns, queued_append, Nat.zero_add]
    simp only [queued, hq, if_true]
  rw [hqueued] at hlast
  obtain ⟨hroot, hweight⟩ : rootIndex (buildArena f) = front.length ∧ w = n.w := by
    simpa using congrArg List.getLast? hlast
  exact ⟨front, n, hns, hroot, by rw [← hweight, hw, queueWeight_leafQueue]⟩

theorem buildArena_leaf {f : ByteTable (BitVec 32)} {i : Nat} (hi : i < (leaves f).length) :
    ∃ n b, (buildArena f)[i]? = some n ∧ n.body = .leaf b := by
  obtain ⟨⟨b, hb⟩, -⟩ := leaf_of_mem_leaves (List.getElem_mem hi)
  have hshape := getElem?_map_shape (List.getElem?_eq_getElem hi)
  obtain ⟨more, hmore⟩ := (buildArena_grown f).leaves_isPrefix
  rw [← List.getElem?_append_left (l₂ := more) (by rwa [List.length_map]), hmore] at hshape
  obtain ⟨n, hn, hs⟩ := exists_getElem?_of_map_shape hshape
  exact ⟨n, b, hn, (congrArg Prod.fst hs).trans hb⟩

theorem buildArena_internal {f : ByteTable (BitVec 32)} {i : Nat} {n : Node} (hi : (leaves f).length ≤ i)
    (hn : (buildArena f)[i]? = some n) :
    ∃ l r a b, n.body = .internal l r ∧ l.toNat < i ∧ r.toNat < i ∧ (buildArena f)[l.toNat]? = some a ∧
      (buildArena f)[r.toNat]? = some b ∧ n.w.toNat = a.w.toNat + b.w.toNat := by
  obtain ⟨l, r, pl, pr, hbody, hl, hr, hpl, hpr, hw⟩ :=
    (buildArena_grown f).isParent (by rwa [List.length_map]) (getElem?_map_shape hn)
  obtain ⟨a, ha, rfl⟩ := exists_getElem?_of_map_shape hpl
  obtain ⟨b, hb, rfl⟩ := exists_getElem?_of_map_shape hpr
  exact ⟨l, r, a, b, hbody, hl, hr, ha, hb, hw⟩

/-! ## `BUILD_TREE` -/

@[simp] theorem buildTree_freq (s : State) : (buildTree s).huff.freq = s.huff.freq := rfl

@[simp] theorem buildTree_node (s : State) : (buildTree s).huff.node = buildArena s.huff.freq := rfl

theorem rootIndex_lt (f : ByteTable (BitVec 32)) : rootIndex (buildArena f) < 512 := by
  by_cases h : ∃ b, entryOf f b ≠ 0
  · obtain ⟨t, w, -, -, hrep, -, hlen, hle⟩ := buildArena_spec f h
    have := hrep.lt_length
    omega
  · have hnil : leaves f = [] := by
      rw [leaves_eq_map, List.map_eq_nil_iff, List.filter_eq_nil_iff]
      exact fun b _ => by simpa using not_exists_not.1 h b
    simp [buildArena, hnil, combine, rootIndex]

@[simp] theorem buildTree_root_toNat (s : State) : (buildTree s).huff.root.toNat = rootIndex (buildArena s.huff.freq) :=
  Nat.mod_eq_of_lt (rootIndex_lt _)

/-! ## The statements -/

/-- Settles O27: each round creates one node and shortens the queue by one, and the last node created stays queued. -/
theorem treeSize : Obligations.TreeSize := by
  intro s k hk hpos t
  have hk' : (leaves s.huff.freq).length = k := by rw [hk, leaves_length_eq_distinct]
  have hex : ∃ b, entryOf s.huff.freq b ≠ 0 := by
    obtain ⟨b, hb⟩ := List.exists_mem_of_length_pos (hk ▸ hpos)
    exact ⟨b, by simpa using (List.mem_filter.1 hb).2⟩
  obtain ⟨-, -, -, -, -, -, hlen, hle⟩ := buildArena_spec s.huff.freq hex
  obtain ⟨front, n, hns, hroot, -⟩ := buildArena_root hex
  have hfront : (buildArena s.huff.freq).length = front.length + 1 := by rw [hns, List.length_append, List.length_singleton]
  have hnode : (buildArena s.huff.freq).length = 2 * k - 1 := by omega
  refine ⟨hnode, ?_, by omega, by rw [buildTree_root_toNat]; omega, fun i hi => ?_, fun i hlo hhi => ?_⟩
  · exact (Nat.mod_eq_of_lt (by omega)).trans hnode
  · exact buildArena_leaf (by omega)
  · have hi := List.getElem?_eq_getElem (hnode ▸ hhi)
    obtain ⟨l, r, -, -, hbody, -⟩ := buildArena_internal (hk' ▸ hlo) hi
    exact ⟨_, l, r, hi, hbody⟩

/-- Settles O28: a round makes no leaf, its new node is the parent of two nodes before it, and no weight is lost. -/
theorem treeWeights : Obligations.TreeWeights := by
  intro s hex ns
  refine ⟨?_, fun i n l r hn hbody => ?_, ?_⟩
  · have hleaves := (buildArena_grown s.huff.freq).filterMap_leafEntry.trans (filterMap_leafEntry_leaves _)
    rw [List.filterMap_map] at hleaves
    exact hleaves
  · have hi : (leaves s.huff.freq).length ≤ i := by
      by_contra hlt
      obtain ⟨n', b, hn', hb⟩ := buildArena_leaf (Nat.not_le.1 hlt)
      obtain rfl : n = n' := Option.some.inj (hn.symm.trans hn')
      rw [hbody] at hb
      cases hb
    obtain ⟨l', r', a, b, hbody', hl, hr, ha, hb, hw⟩ := buildArena_internal hi hn
    obtain ⟨rfl, rfl⟩ : l = l' ∧ r = r' := by simpa using hbody.symm.trans hbody'
    exact ⟨hl, hr, a, b, ha, hb, hw⟩
  · obtain ⟨front, n, hns, hroot, hw⟩ := buildArena_root hex
    refine ⟨n, ?_, hw⟩
    rw [buildTree_root_toNat, hroot, show ns = front ++ [n] from hns, List.getElem?_concat_length]

end Sys2Proof.Machine

/-! SUPPORT. The codes `CODEGEN` makes: they are the paths of the tree the arena holds (rules R139 to R141 in
40_huffman_tree_and_codes.md). -/

namespace Sys2Proof

namespace Ref

theorem paths_node_ne_nil {l r : Tree} {p : Byte × Bits} (h : p ∈ paths (.node l r)) : p.2 ≠ [] := by
  simp only [paths, List.mem_append, List.mem_map] at h
  obtain ⟨q, -, rfl⟩ | ⟨q, -, rfl⟩ := h <;> exact List.cons_ne_nil _ _

theorem not_prefix_of_mem_paths {t : Tree} {p q : Byte × Bits} (hp : p ∈ paths t) (hq : q ∈ paths t) (hne : p ≠ q) :
    ¬ p.2 <+: q.2 := by
  have hsymm : Std.Symm fun p q : Byte × Bits => ¬ p.2 <+: q.2 ∧ ¬ q.2 <+: p.2 := ⟨fun _ _ => And.symm⟩
  exact ((paths_prefix_free t).forall hp hq hne).1

/-- A tree with two different bytes is no leaf. -/
theorem Tree.eq_node {t : Tree} {b c : Byte} (hne : b ≠ c) (hb : b ∈ t.bytes) (hc : c ∈ t.bytes) : ∃ l r, t = .node l r := by
  cases t with
  | leaf d => exact absurd ((List.mem_singleton.1 hb).trans (List.mem_singleton.1 hc).symm) hne
  | node l r => exact ⟨l, r, rfl⟩

/-- A tree with one byte, once, is a leaf. -/
theorem Tree.eq_leaf {t : Tree} {b : Byte} (hn : t.bytes.Nodup) (h : ∀ c, c ∈ t.bytes ↔ c = b) : t = .leaf b := by
  have hbytes : t.bytes = [b] := List.perm_singleton.1 ((List.perm_ext_iff_of_nodup hn (List.nodup_singleton b)).2 fun c => by
    rw [h, List.mem_singleton])
  cases t with
  | leaf c => rw [List.singleton_inj.1 hbytes]
  | node l r =>
    have hl := l.bytes_length_pos
    have hr := r.bytes_length_pos
    have hlen := congrArg List.length hbytes
    rw [Tree.bytes, List.length_append, List.length_singleton] at hlen
    omega

/-- A byte that does not occur has no code. -/
theorem codeOf_treeOf_absent {f : Byte → Nat} {b : Byte} (hb : f b = 0) : codeOf (treeOf f) b = [] := by
  by_cases h : ∃ c, f c ≠ 0
  · obtain ⟨t, ht, -, hmem⟩ := treeOf_spec h
    have hnone : (codes t).lookup b = none := by
      refine Option.eq_none_iff_forall_ne_some.2 fun c hc => (hmem b).1 ?_ hb
      rw [← codes_bytes]
      exact List.mem_map_of_mem (lookup_mem hc)
    rw [ht, codeOf, hnone, Option.getD_none]
  · rw [treeOf_eq_none fun c => not_not.1 (not_exists.1 h c), codeOf]

end Ref

namespace Machine

open Ref (Tree)

/-! ## The tree a mapping has in NODE -/

@[simp] theorem codegen_node (s : State) : (codegen s).huff.node = s.huff.node := rfl

@[simp] theorem codegen_root (s : State) : (codegen s).huff.root = s.huff.root := rfl

/-- The code of byte `b` after `BUILD_TREE` and `CODEGEN`. -/
theorem codegen_buildTree_code (s : State) (b : Byte) :
    entryOf (codegen (buildTree s)).huff.code b = Ref.codeOf (Ref.treeOf (mapping s.huff.freq)) b := by
  rw [← codeTable_spec, ← buildTree_root_toNat]
  rfl

/-- `t` is the tree that NODE holds below `ROOT` in `s`, its leaves are the bytes of the mapping, each once, and its codes are
those of CODE. -/
structure Coded (s : State) (t : Tree) : Prop where
  rep : Rep s.huff.node s.huff.root.toNat t
  nodup : t.bytes.Nodup
  mem_bytes : ∀ b, b ∈ t.bytes ↔ entryOf s.huff.freq b ≠ 0
  code : ∀ b, entryOf s.huff.code b = Ref.codeOf (some t) b

theorem exists_coded {s : State} (h : ∃ b, entryOf s.huff.freq b ≠ 0) : ∃ t, Coded (codegen (buildTree s)) t := by
  obtain ⟨t, -, ht, -, hrep, -⟩ := buildArena_spec s.huff.freq h
  have hex : ∃ b, mapping s.huff.freq b ≠ 0 := h.imp fun b => mapping_eq_zero.not.2
  obtain ⟨t', ht', hnodup, hmem⟩ := Ref.treeOf_spec hex
  obtain rfl : t = t' := Option.some.inj (ht.symm.trans ht')
  exact ⟨t, by rwa [codegen_root, buildTree_root_toNat], hnodup, fun b => (hmem b).trans mapping_eq_zero.not,
    fun b => by rw [codegen_buildTree_code, ht]⟩

section
variable {s : State} {t : Tree} {b c : Byte}

theorem Coded.mem_codes (h : Coded s t) (hb : entryOf s.huff.freq b ≠ 0) : (b, entryOf s.huff.code b) ∈ Ref.codes t := by
  rw [h.code]
  exact Ref.codeOf_mem h.nodup ((h.mem_bytes b).2 hb)

/-- With two bytes in the mapping, the tree is no leaf and the codes are its paths. -/
theorem Coded.mem_paths (h : Coded s t) (hne : b ≠ c) (hb : entryOf s.huff.freq b ≠ 0) (hc : entryOf s.huff.freq c ≠ 0) :
    (b, entryOf s.huff.code b) ∈ Ref.paths t := by
  obtain ⟨l, r, rfl⟩ := Tree.eq_node hne ((h.mem_bytes b).2 hb) ((h.mem_bytes c).2 hc)
  exact h.mem_codes hb

theorem Coded.code_ne_nil (h : Coded s t) (hb : entryOf s.huff.freq b ≠ 0) : entryOf s.huff.code b ≠ [] := by
  have hmem := h.mem_codes hb
  cases t with
  | leaf d =>
    rw [(Prod.mk.inj (List.mem_singleton.1 hmem)).2]
    exact List.cons_ne_nil _ _
  | node l r => exact Ref.paths_node_ne_nil hmem

/-- A path of the tree leads the walk from the tree's root to the leaf of its byte (rule R187). -/
theorem foldl_childOf_of_mem_paths {i : BitVec 9} {p : Bits} (h : Rep s.huff.node i.toNat t) (hp : (b, p) ∈ Ref.paths t) :
    (nodeAt s (p.foldl (fun i x => childOf (nodeAt s i).body x) i)).body = .leaf b := by
  induction t generalizing i p with
  | leaf d =>
    obtain ⟨rfl, rfl⟩ := Prod.mk.inj (List.mem_singleton.1 hp)
    exact nodeAt_rep h
  | node l r ihl ihr =>
    obtain ⟨il, ir, hbody, -, -, hl, hr⟩ := nodeAt_rep h
    obtain ⟨_, hmem, heq⟩ | ⟨_, hmem, heq⟩ := (List.mem_append.1 hp).imp List.mem_map.1 List.mem_map.1
    · cases heq
      rw [List.foldl_cons, hbody]
      exact ihl hl hmem
    · cases heq
      rw [List.foldl_cons, hbody]
      exact ihr hr hmem

end

/-! ## The statements -/

/-- Settles O29: the code is the byte's path in the tree, and a path leads to its leaf. -/
theorem codeLeadsToItsLeaf : Obligations.CodeLeadsToItsLeaf := by
  intro s b c hne hb hc
  obtain ⟨t, ht⟩ := exists_coded ⟨b, hb⟩
  exact foldl_childOf_of_mem_paths ht.rep (ht.mem_paths hne hb hc)

/-- Settles O30: the codes are paths of one tree, and no path runs through the leaf of another. -/
theorem codesArePrefixFree : Obligations.CodesArePrefixFree := by
  intro s b c hne hb hc
  obtain ⟨t, ht⟩ := exists_coded ⟨b, hb⟩
  have hprefix := Ref.not_prefix_of_mem_paths (ht.mem_paths hne hb hc) (ht.mem_paths hne.symm hc hb)
    fun heq => hne (Prod.mk.inj heq).1
  exact ⟨fun heq => hprefix (heq ▸ List.prefix_refl _), hprefix⟩

/-- Settles O31: a present byte has the path of its leaf or `"0"`, an absent byte is in no tree, and the tree of one byte is a
leaf. -/
theorem codeLengths : Obligations.CodeLengths := by
  intro s b
  refine ⟨fun hb => ⟨?_, ?_⟩, fun hb => ?_, fun honly => ?_⟩
  · obtain ⟨t, ht⟩ := exists_coded ⟨b, hb⟩
    exact List.length_pos_of_ne_nil (ht.code_ne_nil hb)
  · rw [codegen_buildTree_code]
    exact codeOf_length_le _ b
  · rw [codegen_buildTree_code]
    exact Ref.codeOf_treeOf_absent (mapping_eq_zero.2 hb)
  · obtain ⟨t, ht⟩ := exists_coded ⟨b, (honly b).2 rfl⟩
    obtain rfl := Tree.eq_leaf ht.nodup fun c => (ht.mem_bytes c).trans (honly c)
    rw [ht.code, Ref.codeOf, Ref.codes, List.lookup_cons_self]
    rfl

end Machine

end Sys2Proof

/-! SUPPORT. `HENC` as a whole: its completion is that of Reference.lean, and the size of its container is that of rule R167
(41_huffman_encode.md). -/

namespace Sys2Proof

namespace Ref

@[simp] theorem entryBytes_length (e : Byte × Nat) : (entryBytes e).length = 5 := rfl

/-- The fields of a `.huf` container add up (rule R95). -/
theorem hufContainer_length (table : List (Byte × Nat)) (bits : Bits) :
    (hufContainer table bits).length = 16 + 5 * table.length + Machine.ceil8 bits.length := by
  have htable : (table.flatMap entryBytes).length = table.length * 5 := by simp [List.length_flatMap]
  simp only [hufContainer, List.length_append, Machine.leBytes_length, packBits_length, htable]
  omega

/-- `HENC` on an input that passes the checks of dispatch (rules R161, R262). -/
theorem run_henc {caps : Caps} {n : Nat} (input : List Byte) (hpos : 1 ≤ n) (hcap : n ≤ caps.inCap.toNat) :
    run .henc caps n input = fit caps.outCap.toNat (hencContainer input) := by
  rw [run, if_neg (Nat.not_lt.2 hcap)]
  exact if_neg (Nat.pos_iff_ne_zero.1 hpos)

end Ref

namespace Machine

variable {s : State}

/-! ## Completion of a command that computes bytes -/

/-- OUT after a success holds exactly the bytes computed (rules R41, R264). -/
theorem complete_ok_output {bs : List Byte} (h : bs.length ≤ s.cfg.outCap.toNat) (trail : Bool) :
    (Ref.complete s (.ok (bs, trail))).Output bs :=
  ⟨toNat_length_of_fits h, Memory.read_writeBytes_nil bs⟩

/-- An accepted command for which Reference.lean computes bytes completes with them and the frame (rules R263, R264). -/
theorem exec_completes {i : Instr} {bs : List Byte} {trail : Bool} (hs : s.Accepted)
    (hrun : Ref.run i s.cfg s.seq.n.toNat s.input = .ok (bs, trail)) :
    ∃ t, exec i s = .next t ∧ t.status = .succeeded trail ∧ t.ph = .idle ∧ t.Output bs ∧ s.SameShell t := by
  obtain ⟨hexec, hfits⟩ := exec_accepted_result i hs
  rw [hrun] at hexec
  exact ⟨_, hexec, complete_ok_status s bs trail, complete_ok_ph s bs trail, complete_ok_output (hfits bs trail hrun) trail,
    (exec_completed hexec).sameShell⟩

/-- An accepted command for which Reference.lean computes an error ends with it (rule R292). -/
theorem exec_fails {i : Instr} {e : Err} (hs : s.Accepted) (hrun : Ref.run i s.cfg s.seq.n.toNat s.input = .error e) :
    exec i s = .next (errorTerminate e s) := by
  rw [(exec_accepted_result i hs).1, hrun]
  rfl

/-! ## The size of the container -/

/-- The codes of `HENC` are those of Reference.lean (rule R164). -/
theorem codegen_freqCount_code (hlen : s.input.length < 2 ^ 32) :
    entryOf (codegen (buildTree (freqCount s))).huff.code = Ref.codeOf (Ref.treeOf (Ref.freqOf s.input)) := by
  funext b
  rw [codegen_buildTree_code, freqCount_freq, mapping_countBytes _ hlen]

/-- The size of the result (rule R167). -/
theorem hencContainer_length (hlen : s.input.length < 2 ^ 32) :
    (Ref.hencContainer s.input).length = 16 + 5 * (freqCount s).huff.nsym.toNat +
      ceil8 (codedLength (freqCount s).huff.freq (codegen (buildTree (freqCount s))).huff.code) := by
  rw [Ref.hencContainer, Ref.hufContainer_length, freqCount_nsym_toNat, freqCount_freq, codedLength_eq _ _ hlen,
    codegen_freqCount_code hlen, ← mapping_countBytes _ hlen, entries_length]

/-- Every byte of the input has a code of 1 to 255 bits, so `N ≤ L ≤ 255·N` (rules R141, R167). -/
theorem codedLength_bounds (hlen : s.input.length < 2 ^ 32) :
    s.input.length ≤ codedLength (freqCount s).huff.freq (codegen (buildTree (freqCount s))).huff.code ∧
      codedLength (freqCount s).huff.freq (codegen (buildTree (freqCount s))).huff.code ≤ 255 * s.input.length := by
  rw [freqCount_freq]
  constructor
  · rw [codedLength_eq _ _ hlen, List.length_flatMap]
    refine (List.length_map _).symm.trans_le (List.length_le_sum_of_one_le _ fun k hk => ?_)
    obtain ⟨b, hb, rfl⟩ := List.mem_map.1 hk
    exact ((codeLengths (freqCount s) b).1 ((entryOf_countBytes_ne_zero hlen b).2 hb)).1
  · refine codedLength_lt _ _ hlen fun b => ?_
    rw [codegen_freqCount_code hlen]
    exact codeOf_length_le _ b

/-! ## The statements -/

/-- Settles O32, from the run of `HENC` as one write of the container. -/
theorem hencIsReference : Obligations.HencIsReference := fun _ hs => (exec_accepted_result .henc hs).1

/-- Settles O33: a container that fits is what Reference.lean computes. -/
theorem hencCompletes : Obligations.HencCompletes := by
  intro s hs hpos hcap hfit
  exact exec_completes hs (by rw [Ref.run_henc _ hpos hcap, Ref.fit, if_pos hfit])

/-- Settles O34: the container has the size of rule R167, whose bounds follow from those of `NSYM` and `L`, and whether it fits
is what Reference.lean asks. -/
theorem hencResultSize : Obligations.HencResultSize := by
  intro s t nsym l hs hpos hcap hnsym hl hexec
  have hn : s.seq.n.toNat < 2 ^ 32 := Nat.lt_of_le_of_lt hcap s.cfg.inCap.isLt
  have hlen : s.input.length < 2 ^ 32 := by rwa [input_length]
  have hsize := hencContainer_length hlen
  obtain ⟨hlo, hhi⟩ := codedLength_bounds hlen
  obtain ⟨-, -, -, hbounds, -⟩ := frequencyCount s hn
  obtain ⟨hnlo, hnhi⟩ := hbounds hpos
  rw [← hl, input_length] at hlo hhi
  rw [← hnsym] at hnlo hnhi
  rw [← hnsym, ← hl] at hsize
  refine ⟨hlo, hhi, by unfold ceil8; omega, by unfold ceil8; omega, fun hfit => ?_, fun hbig => ?_⟩
  · rw [← hsize] at hfit ⊢
    obtain ⟨u, hu, hstatus, -, hout, -⟩ := hencCompletes s hs hpos hcap hfit
    obtain rfl : u = t := by simpa [hexec] using hu.symm
    exact ⟨hstatus, hout.1⟩
  · rw [← hsize] at hbig
    have hrun := (Ref.run_henc s.input hpos hcap).trans (if_neg (Nat.not_le.2 hbig))
    obtain rfl : errorTerminate .ioOvf s = t := by simpa [hexec] using (exec_fails hs hrun).symm
    exact errorTerminate_status .ioOvf s

end Machine

end Sys2Proof

/-! SUPPORT. The reference decoder on a container: the table it reads back, its walk along code words, and the completions of
`HDEC` that follow (42_huffman_decode.md). -/

namespace Sys2Proof

namespace Ref

open Machine (ceil8 leBytes leValue allBytes mem_allBytes allBytes_nodup refWalk)

/-! ## Fields and payload bits -/

theorem field_leBytes {n v : Nat} (h : v < 256 ^ n) (bs : List Byte) : field n (leBytes n v ++ bs) = .ok (v, bs) := by
  have hlen : (leBytes n v).length = n := Machine.leBytes_length n v
  rw [field, if_neg (by rw [List.length_append, hlen]; omega), List.take_left' hlen, List.drop_left' hlen,
    Machine.leValue_leBytes n v h]

theorem bitsOf_append (as bs : List Byte) : bitsOf (as ++ bs) = bitsOf as ++ bitsOf bs := List.flatMap_append

/-- The payload bits do not depend on what follows the payload (rules R64, R193). -/
theorem take_bitsOf_append {payload : List Byte} {l : Nat} (h : payload.length = ceil8 l) (extra : List Byte) :
    (bitsOf (payload ++ extra)).take l = (bitsOf payload).take l := by
  rw [bitsOf_append, List.take_append_of_le_length]
  rw [bitsOf_length]
  exact (Machine.ceil8_le_iff l _).1 h.ge

/-! ## The table of a container -/

/-- The mapping that a table stands for. -/
abbrev tableFreq (table : List (Byte × Nat)) : Byte → Nat := fun b => (table.lookup b).getD 0

/-- What rule R183 accepts as a table: no byte twice, and counts that are not 0 and fit their field. -/
structure IsTable (table : List (Byte × Nat)) : Prop where
  nodup : (table.map (·.1)).Nodup
  counts : ∀ e ∈ table, 1 ≤ e.2 ∧ e.2 < 2 ^ 32

section
variable {table : List (Byte × Nat)}

theorem lookup_eq_none_of_notMem {b : Byte} (h : b ∉ table.map (·.1)) : table.lookup b = none := by
  refine List.lookup_eq_none_iff.2 fun e he => bne_iff_ne.2 ?_
  rintro rfl
  exact h (List.mem_map_of_mem he)

/-- The order of the entries does not matter to a table without repeated bytes. -/
theorem lookup_reverse (h : (table.map (·.1)).Nodup) (b : Byte) : table.reverse.lookup b = table.lookup b := by
  induction table with
  | nil => rfl
  | cons e table ih =>
    obtain ⟨c, n⟩ := e
    obtain ⟨hc, htable⟩ := List.nodup_cons.1 h
    rw [List.reverse_cons, List.lookup_append, ih htable]
    by_cases hb : b = c
    · subst hb
      rw [lookup_eq_none_of_notMem hc, List.lookup_cons_self, List.lookup_cons_self, Option.none_or]
    · have hne : (b == c) = false := beq_false_of_ne hb
      rw [List.lookup_cons, List.lookup_cons, hne]
      exact Option.or_none

theorem IsTable.length_le (h : IsTable table) : table.length ≤ 256 := by
  simpa using (List.subperm_of_subset h.nodup fun b _ => mem_allBytes b).length_le

/-- The bytes of the mapping are those of the table. -/
theorem IsTable.tableFreq_ne_zero (h : IsTable table) (b : Byte) : tableFreq table b ≠ 0 ↔ b ∈ table.map (·.1) := by
  cases hb : table.lookup b with
  | none =>
    simp only [tableFreq, hb, Option.getD_none, ne_eq, not_true_eq_false, false_iff]
    intro hmem
    obtain ⟨e, he, rfl⟩ := List.mem_map.1 hmem
    exact bne_iff_ne.1 (List.lookup_eq_none_iff.1 hb e he) rfl
  | some n =>
    obtain ⟨front, back, rfl, -⟩ := List.lookup_eq_some_iff.1 hb
    have hn := (h.counts (b, n) (by simp)).1
    simp only [tableFreq, hb, Option.getD_some]
    exact iff_of_true (by omega) (by simp)

/-- The decoder's tree has a leaf for each byte of the table (rule R133). -/
theorem IsTable.exists_tree (h : IsTable table) (hne : table ≠ []) :
    ∃ t, treeOf (tableFreq table) = some t ∧ t.bytes.Nodup ∧ ∀ b, b ∈ t.bytes ↔ b ∈ table.map (·.1) := by
  obtain ⟨e, he⟩ := List.exists_mem_of_ne_nil table hne
  obtain ⟨t, ht, hnodup, hmem⟩ := treeOf_spec ⟨e.1, (h.tableFreq_ne_zero e.1).2 (List.mem_map_of_mem he)⟩
  exact ⟨t, ht, hnodup, fun b => (hmem b).trans (h.tableFreq_ne_zero b)⟩

/-- One entry that rule R183 accepts. -/
theorem readEntries_entry {e : Byte × Nat} {tab : List (Byte × Nat)} (hpos : 1 ≤ e.2) (hlt : e.2 < 2 ^ 32)
    (hnew : tab.lookup e.1 = none) (k : Nat) (bs : List Byte) :
    readEntries (k + 1) tab (entryBytes e ++ bs) = readEntries k (e :: tab) bs := by
  obtain ⟨b, n⟩ := e
  have hval : leValue (leBytes 4 n) = n := Machine.leValue_leBytes 4 n hlt
  simp only [leBytes] at hval
  have hzero : n ≠ 0 := Nat.pos_iff_ne_zero.1 hpos
  simp [readEntries, entryBytes, leBytes, hval, hzero, hnew]

/-- Reading the entries of a table gives them back, the last one first. -/
theorem readEntries_table {tab : List (Byte × Nat)} (hnodup : ((table.reverse ++ tab).map (·.1)).Nodup)
    (hcounts : ∀ e ∈ table, 1 ≤ e.2 ∧ e.2 < 2 ^ 32) (bs : List Byte) :
    readEntries table.length tab (table.flatMap entryBytes ++ bs) = .ok (table.reverse ++ tab, bs) := by
  induction table generalizing tab with
  | nil => rfl
  | cons e table ih =>
    obtain ⟨⟨hpos, hlt⟩, hrest⟩ := List.forall_mem_cons.1 hcounts
    rw [List.reverse_cons, List.append_assoc, List.singleton_append] at hnodup ⊢
    have hnew : tab.lookup e.1 = none := by
      rw [List.map_append, List.map_cons, List.nodup_append] at hnodup
      exact lookup_eq_none_of_notMem (List.nodup_cons.1 hnodup.2.1).1
    rw [List.length_cons, List.flatMap_cons, List.append_assoc, readEntries_entry hpos hlt hnew, ih hnodup hrest]

/-! ## The header -/

/-- A count field cut short (rule R182). -/
theorem hdec_of_short {input : List Byte} (h : input.length < 8) (outCap : Nat) : hdec outCap input = .error .fmtTrunc := by
  rw [hdec, field, if_pos h]
  rfl

/-- A count out of range (rule R182). -/
theorem hdec_of_count {input : List Byte} (h : 8 ≤ input.length)
    (hcount : leValue (input.take 8) = 0 ∨ leValue (input.take 8) > 256) (outCap : Nat) :
    hdec outCap input = .error .fmtCount := by
  rw [hdec, field, if_neg (Nat.not_lt.2 h)]
  exact if_pos hcount

/-- What `HDEC` makes of a container whose header is well-formed: the walk of its payload bits (rules R181 to R190). -/
theorem hdec_container (h : IsTable table) (hne : table ≠ []) {t : Tree} (ht : treeOf (tableFreq table) = some t) {l : Nat}
    (hl : l < 2 ^ 64) {payload : List Byte} (hpay : ceil8 l ≤ payload.length) (outCap : Nat) :
    hdec outCap (leBytes 8 table.length ++ table.flatMap entryBytes ++ leBytes 8 l ++ payload) =
      (refWalk t outCap ((bitsOf payload).take l)).map fun out => (out, decide (payload.length > ceil8 l)) := by
  have hpos : 0 < table.length := List.length_pos_of_ne_nil hne
  have hle := h.length_le
  have hcount : ¬ (table.length = 0 ∨ table.length > 256) := by omega
  have htab : treeOf (fun b => (table.reverse.lookup b).getD 0) = some t := by
    simp only [lookup_reverse h.nodup]
    exact ht
  have hread := readEntries_table (table := table) (tab := [])
    (by rw [List.append_nil, List.map_reverse, List.nodup_reverse]; exact h.nodup) h.counts (leBytes 8 l ++ payload)
  rw [List.append_nil] at hread
  rw [Machine.ref_hdec_eq, List.append_assoc, List.append_assoc, field_leBytes (by omega)]
  simp only [Machine.ok_bind, if_neg hcount, hread, field_leBytes (v := l) (n := 8) hl, if_neg (Nat.not_lt.2 hpay), htab]
  cases refWalk t outCap ((bitsOf payload).take l) <;> rfl

/-- `HDEC` on an input that passes the check of dispatch (rules R181, R262). -/
theorem run_hdec {caps : Caps} {n : Nat} (input : List Byte) (hcap : n ≤ caps.inCap.toNat) :
    run .hdec caps n input = hdec caps.outCap.toNat input := if_neg (Nat.not_lt.2 hcap)

end

/-! ## The walk -/

/-- The child a bit selects (rule R187). -/
theorem mem_paths_node {l r : Tree} {b : Byte} {p : Bits} :
    (b, p) ∈ paths (.node l r) ↔ ∃ x q, p = x :: q ∧ (b, q) ∈ paths (if x then r else l) := by
  simp [paths, eq_comm, and_comm]

section
variable {root l r : Tree} {x : Bool} (atRoot : Bool) (room : Nat) (xs : Bits)

/-- A bit that leads to a leaf, with room for its byte (rule R187). -/
theorem walk_to_leaf {b : Byte} (h : (if x then r else l) = .leaf b) :
    walk root (.node l r) atRoot (room + 1) (x :: xs) = (walk root root true room xs).map (b :: ·) := by
  simp [walk, h]

/-- A bit that leads to an internal node (rule R187). -/
theorem walk_to_node {l' r' : Tree} (h : (if x then r else l) = .node l' r') :
    walk root (.node l r) atRoot room (x :: xs) = walk root (.node l' r') false room xs := by
  simp [walk, h]

end

/-- The walk along a path ends at its leaf, whose byte it puts out (rule R187). -/
theorem walk_path {root l r : Tree} {b : Byte} {p : Bits} (hp : (b, p) ∈ paths (.node l r)) (atRoot : Bool) (room : Nat)
    (xs : Bits) :
    walk root (.node l r) atRoot (room + 1) (p ++ xs) = (walk root root true room xs).map (b :: ·) := by
  induction p generalizing l r atRoot with
  | nil => exact absurd rfl (paths_node_ne_nil hp)
  | cons x q ih =>
    obtain ⟨_, _, hpq, hq⟩ := mem_paths_node.1 hp
    cases hpq
    rw [List.cons_append]
    cases hchild : (if x then r else l) with
    | leaf c =>
      rw [hchild] at hq
      obtain ⟨rfl, rfl⟩ := Prod.mk.inj (List.mem_singleton.1 hq)
      exact walk_to_leaf atRoot room xs hchild
    | node l' r' =>
      rw [walk_to_node atRoot _ _ hchild]
      exact ih (hchild ▸ hq) false

/-- Bits that end inside a path leave the walk off the leaves (rule R189). -/
theorem walk_inside_path {root l r : Tree} {b : Byte} {p tail : Bits} (hp : (b, p) ∈ paths (.node l r)) (htail : tail <+: p)
    (hne : tail ≠ p) {atRoot : Bool} (hstart : atRoot = true → tail ≠ []) (room : Nat) :
    walk root (.node l r) atRoot room tail = .error .fmtOffLeaf := by
  induction tail generalizing l r p atRoot with
  | nil =>
    have hoff : atRoot = false := Bool.eq_false_iff.2 fun h => hstart h rfl
    simp [walk, hoff]
  | cons x xs ih =>
    obtain ⟨y, q, rfl, hq⟩ := mem_paths_node.1 hp
    obtain ⟨rfl, hxs⟩ := List.cons_prefix_cons.1 htail
    have hxs' : xs ≠ q := fun h => hne (h ▸ rfl)
    cases hchild : (if x then r else l) with
    | leaf c =>
      rw [hchild] at hq
      obtain ⟨rfl, rfl⟩ := Prod.mk.inj (List.mem_singleton.1 hq)
      exact absurd (List.prefix_nil.1 hxs) hxs'
    | node l' r' =>
      rw [walk_to_node atRoot room xs hchild]
      exact ih (hchild ▸ hq) hxs hxs' (fun h => nomatch h)

@[simp] theorem refWalk_nil (t : Tree) (room : Nat) : refWalk t room [] = .ok [] := by
  cases t with
  | leaf b => exact Machine.refWalkLeaf_nil b room
  | node l r => simp [refWalk, walk]

@[simp] theorem codeOf_leaf (b : Byte) : codeOf (some (.leaf b)) b = [false] := by simp [codeOf, codes]

section
variable {t : Tree}

/-- One code word (rules R187, R188). -/
theorem refWalk_code (hn : t.bytes.Nodup) {b : Byte} (hb : b ∈ t.bytes) (room : Nat) (xs : Bits) :
    refWalk t (room + 1) (codeOf (some t) b ++ xs) = (refWalk t room xs).map (b :: ·) := by
  cases t with
  | leaf c =>
    obtain rfl := List.mem_singleton.1 hb
    rw [codeOf_leaf]
    exact Machine.refWalkLeaf_cons b (room + 1) false xs
  | node l r => exact walk_path (codeOf_mem hn hb) true room xs

/-- Code words give back their bytes, as long as they fit OUT. -/
theorem refWalk_codes (hn : t.bytes.Nodup) {msg : List Byte} (hmsg : ∀ b ∈ msg, b ∈ t.bytes) {room : Nat}
    (hroom : msg.length ≤ room) (tail : Bits) :
    refWalk t room (msg.flatMap (codeOf (some t)) ++ tail) = (refWalk t (room - msg.length) tail).map (msg ++ ·) := by
  induction msg generalizing room with
  | nil => cases h : refWalk t room tail <;> simp [h, Except.map]
  | cons b msg ih =>
    obtain ⟨hb, hmsg⟩ := List.forall_mem_cons.1 hmsg
    obtain ⟨room, rfl⟩ : ∃ k, room = k + 1 := ⟨room - 1, by rw [List.length_cons] at hroom; omega⟩
    rw [List.flatMap_cons, List.append_assoc, refWalk_code hn hb, ih hmsg (Nat.le_of_succ_le_succ hroom), List.length_cons,
      Nat.add_sub_add_right]
    cases refWalk t (room - msg.length) tail <;> rfl

end

/-- The walk of a single leaf stops at the first bit that is 1 (rule R188). -/
theorem refWalk_leaf_bad (b : Byte) {n room : Nat} (h : n ≤ room) (xs : Bits) :
    refWalk (.leaf b) room (List.replicate n false ++ true :: xs) = .error .fmtBadBit := by
  have hzeros : List.replicate n false = (List.replicate n b).flatMap (codeOf (some (.leaf b))) := by
    rw [List.flatMap_replicate, codeOf_leaf, List.flatten_replicate_singleton]
  have hmem : ∀ c ∈ List.replicate n b, c ∈ Tree.bytes (.leaf b) := fun c hc =>
    List.mem_singleton.2 (List.eq_of_mem_replicate hc)
  rw [hzeros, refWalk_codes (t := .leaf b) (List.nodup_singleton b) hmem (by rwa [List.length_replicate])]
  exact congrArg _ (Machine.refWalkLeaf_cons b _ true xs)

/-! ## The table of `HENC` -/

theorem entries_eq_map (f : Byte → Nat) : entries f = (allBytes.filter fun b => f b ≠ 0).map fun b => (b, f b) := by
  unfold entries
  induction allBytes with
  | nil => rfl
  | cons b bs ih => by_cases h : f b = 0 <;> simp [h, ih]

theorem mem_entries_bytes {f : Byte → Nat} {b : Byte} : b ∈ (entries f).map (·.1) ↔ f b ≠ 0 := by
  simp [entries_eq_map, mem_allBytes]

theorem tableFreq_entries (f : Byte → Nat) : tableFreq (entries f) = f := by
  funext b
  by_cases h : f b = 0
  · rw [tableFreq, lookup_eq_none_of_notMem (mem_entries_bytes.not.2 (not_not.2 h)), h, Option.getD_none]
  · rw [tableFreq, entries_eq_map, List.lookup_graph f (List.mem_filter.2 ⟨mem_allBytes b, by simpa using h⟩),
      Option.getD_some]

/-- Counts that fit their field make a table (rules R162, R183). -/
theorem isTable_entries {f : Byte → Nat} (h : ∀ b, f b < 2 ^ 32) : IsTable (entries f) := by
  rw [entries_eq_map]
  constructor
  · simpa [Function.comp_def] using allBytes_nodup.filter _
  · intro e he
    obtain ⟨b, hb, rfl⟩ := List.mem_map.1 he
    exact ⟨Nat.one_le_iff_ne_zero.2 (by simpa using (List.mem_filter.1 hb).2), h b⟩

end Ref

namespace Machine

open Ref (Tree IsTable tableFreq)

variable {s : State}

/-! ## The header on the machine -/

@[simp] theorem memRead_one (s : State) (a : Nat) : s.memRead a 1 = (s.inByte a).toNat := by
  simp [State.memRead, State.inSlice, leValue]

theorem inBytes_of_le {n : Nat} (h : s.seq.rp.toNat + n ≤ s.seq.n.toNat) :
    inBytes n s = .ok (s.memRead s.seq.rp.toNat n, advance n s) := if_neg (Nat.not_lt.2 h)

/-- What a complete entry of the table does (rule R183). -/
theorem readEntry_of_le (h : s.seq.rp.toNat + 5 ≤ s.seq.n.toNat) :
    readEntry s =
      if s.memRead (s.seq.rp.toNat + 1) 4 = 0 then .error .fmtZeroFreq
      else if entryOf s.huff.freq (s.inByte s.seq.rp.toNat) ≠ 0 then .error .fmtDup
      else .ok { s with
        seq.rp := s.seq.rp + 5
        huff.freq := setEntry s.huff.freq (s.inByte s.seq.rp.toNat)
          (BitVec.ofNat 32 (s.memRead (s.seq.rp.toNat + 1) 4)) } := by
  have hrp : (advance 1 s).seq.rp.toNat = s.seq.rp.toNat + 1 := advance_rp (by omega)
  have hbyte := inBytes_of_le (s := s) (n := 1) (by omega)
  have hcount := inBytes_of_le (s := advance 1 s) (n := 4) (by rw [hrp, (advance_vis 1 s).n]; omega)
  rw [hrp] at hcount
  have hmem : (advance 1 s).memRead (s.seq.rp.toNat + 1) 4 = s.memRead (s.seq.rp.toNat + 1) 4 := rfl
  have hadv : advance 4 (advance 1 s) = { s with seq.rp := s.seq.rp + 5 } := by
    simp only [advance, BitVec.add_assoc]
    rfl
  rw [readEntry, if_neg (Nat.not_lt.2 h)]
  simp only [hbyte, hcount, ok_bind, hmem, hadv, memRead_one, BitVec.ofNat_toNat, BitVec.setWidth_eq]

/-! ## Containers -/

/-- `HDEC` on a container with a well-formed header completes as the walk of its payload bits does (rules R181 to R190). -/
theorem run_hdec_container {table : List (Byte × Nat)} {l : Nat} {payload extra : List Byte} {t : Tree}
    (hcap : s.seq.n.toNat ≤ s.cfg.inCap.toNat) (h : IsTable table) (hne : table ≠ [])
    (ht : Ref.treeOf (tableFreq table) = some t) (hpay : payload.length = ceil8 l)
    (hin : s.input = leBytes 8 table.length ++ table.flatMap Ref.entryBytes ++ leBytes 8 l ++ payload ++ extra) :
    Ref.run .hdec s.cfg s.seq.n.toNat s.input =
      (refWalk t s.cfg.outCap.toNat ((Ref.bitsOf payload).take l)).map fun out => (out, decide (extra ≠ [])) := by
  have hl : l < 2 ^ 64 := by
    have hlen := congrArg List.length hin
    have hbits := (ceil8_le_iff l _).1 hpay.ge
    have hn := s.cfg.inCap.isLt
    simp only [input_length, List.length_append] at hlen
    omega
  have htrail : decide ((payload ++ extra).length > ceil8 l) = decide (extra ≠ []) := by
    rw [decide_eq_decide, List.length_append, hpay, ← List.length_pos_iff]
    omega
  rw [Ref.run_hdec _ hcap, hin, List.append_assoc _ payload,
    Ref.hdec_container h hne ht hl (by rw [List.length_append, hpay]; omega), Ref.take_bitsOf_append hpay, htrail]

/-- IN holds the bytes that a block before put out. -/
theorem input_eq_of_output {t u : State} {bs : List Byte} (hout : t.Output bs) (hn : u.seq.n = t.outLen)
    (hcopy : ∀ a, a < t.outLen.toNat → Memory.read t.outBuf a = some (u.inByte a)) : u.input = bs := by
  obtain ⟨hlen, hread⟩ := hout
  refine List.ext_getElem? fun k => ?_
  rw [State.input, inSlice_getElem?, Nat.zero_add, hn]
  split_ifs with hk
  · rw [← hcopy k hk, hread]
  · rw [List.getElem?_eq_none (by omega)]

/-- What a successful `HENC` puts out (rule R161). -/
theorem henc_output {s t : State} (hs : s.Accepted) (hpos : 1 ≤ s.seq.n.toNat) (hcap : s.seq.n.toNat ≤ s.cfg.inCap.toNat)
    (hexec : exec .henc s = .next t) (hok : t.status.err = false) : t.Output (Ref.hencContainer s.input) := by
  have hrun := Ref.run_henc s.input hpos hcap
  by_cases hfit : (Ref.hencContainer s.input).length ≤ s.cfg.outCap.toNat
  · obtain ⟨u, hu, -, -, hout, -⟩ := hencCompletes s hs hpos hcap hfit
    obtain rfl : u = t := by simpa [hexec] using hu.symm
    exact hout
  · obtain rfl : errorTerminate .ioOvf s = t := by
      simpa [hexec] using (exec_fails hs (hrun.trans (if_neg hfit))).symm
    rw [errorTerminate_status] at hok
    cases hok

/-! ## The statements -/

/-- Settles O35, from the run of `HDEC` phase by phase. -/
theorem hdecIsReference : Obligations.HdecIsReference := fun _ hs => (exec_accepted_result .hdec hs).1

/-- Settles O36: the header reads back, and the walk of the codes of a message gives the message. -/
theorem hdecCompletes : Obligations.HdecCompletes := by
  intro s table msg payload extra bits hs hcap hne hnodup hcounts hmsg hbits hpay htake hin hfit
  have htable : IsTable table := ⟨hnodup, hcounts⟩
  obtain ⟨t, ht, hn, hmem⟩ := htable.exists_tree hne
  refine exec_completes hs ?_
  have hwalk := Ref.refWalk_codes hn (fun b hb => (hmem b).2 (hmsg b hb)) hfit []
  rw [ht] at hbits
  rw [Ref.refWalk_nil, List.append_nil, ← hbits] at hwalk
  rw [run_hdec_container hcap htable hne ht hpay hin, htake, hwalk]
  simp [Except.map]

/-- Settles O39: the zeros before the first 1 are code words of the one byte, and the 1 is none. -/
theorem singleLeafBadBit : Obligations.SingleLeafBadBit := by
  intro s b f l payload extra hs hcap hpos hlt hpay hin hbad hfit
  have htable : IsTable [(b, f)] := ⟨List.nodup_singleton b, by simpa using ⟨hpos, hlt⟩⟩
  obtain ⟨t, ht, hn, hmem⟩ := htable.exists_tree (List.cons_ne_nil _ _)
  obtain rfl : t = .leaf b := Ref.Tree.eq_leaf hn fun c => (hmem c).trans List.mem_singleton
  obtain ⟨zeros, rest, hsplit, hzeros⟩ := List.eq_append_cons_of_mem hbad
  obtain ⟨n, rfl⟩ : ∃ n, zeros = List.replicate n false :=
    ⟨_, List.eq_replicate_of_mem fun x hx => Bool.eq_false_iff.2 fun h => hzeros (h ▸ hx)⟩
  have hroom : n ≤ s.cfg.outCap.toNat := by simpa [hsplit] using hfit
  refine exec_fails hs ?_
  rw [run_hdec_container (table := [(b, f)]) hcap htable (List.cons_ne_nil _ _) ht hpay (by simpa using hin), hsplit,
    Ref.refWalk_leaf_bad b hroom]
  rfl

/-- Settles O40: after the complete code words the walk stands inside the path of `b`. -/
theorem endOffLeaf : Obligations.EndOffLeaf := by
  intro s table msg payload extra tail b bits hs hcap htwo hnodup hcounts hmsg hb htail hprefix hproper hbits hpay htake hin
    hfit
  have htable : IsTable table := ⟨hnodup, hcounts⟩
  have hne : table ≠ [] := List.ne_nil_of_length_pos (by omega)
  obtain ⟨t, ht, hn, hmem⟩ := htable.exists_tree hne
  obtain ⟨l, r, rfl⟩ : ∃ l r, t = .node l r := by
    obtain ⟨c, d, rest, rfl⟩ : ∃ c d rest, table = c :: d :: rest := by
      match table, htwo with
      | c :: d :: rest, _ => exact ⟨c, d, rest, rfl⟩
    have hcd : c.1 ≠ d.1 := fun h => (List.nodup_cons.1 hnodup).1 (by simp [h])
    exact Ref.Tree.eq_node hcd ((hmem c.1).2 (by simp)) ((hmem d.1).2 (by simp))
  rw [ht] at hbits hprefix hproper
  have hoff : refWalk (.node l r) (s.cfg.outCap.toNat - msg.length) tail = .error .fmtOffLeaf :=
    Ref.walk_inside_path (Ref.codeOf_mem hn ((hmem b).2 hb)) hprefix hproper (fun _ => htail) _
  refine exec_fails hs ?_
  rw [run_hdec_container hcap htable hne ht hpay hin, htake, hbits,
    Ref.refWalk_codes hn (fun c hc => (hmem c).2 (hmsg c hc)) hfit, hoff]
  rfl

/-- Settles O41: the container of `HENC` is one that `HDEC` completes on, with the mapping of the input as its table. -/
theorem huffmanRoundTrip : Obligations.HuffmanRoundTrip := by
  intro s t u hs hpos hcap hexec hok hu hn hcapu hcopy hfit
  have hin : u.input = Ref.hencContainer s.input := input_eq_of_output (henc_output hs hpos hcap hexec hok) hn hcopy
  have hlen : s.input.length = s.seq.n.toNat := input_length s
  have hbytes : ∀ b ∈ s.input, b ∈ (Ref.entries (Ref.freqOf s.input)).map (·.1) := fun b hb =>
    Ref.mem_entries_bytes.2 (Nat.pos_iff_ne_zero.1 (List.count_pos_iff.2 hb))
  have htable : IsTable (Ref.entries (Ref.freqOf s.input)) := Ref.isTable_entries fun b =>
    Nat.lt_of_le_of_lt (List.count_le_length.trans (hlen.trans_le hcap)) s.cfg.inCap.isLt
  have hne : Ref.entries (Ref.freqOf s.input) ≠ [] := by
    obtain ⟨b, hb⟩ := List.exists_mem_of_length_pos (hlen ▸ hpos)
    exact fun h => List.not_mem_nil (h ▸ hbytes b hb)
  have hcode : (fun b => ((Ref.entries (Ref.freqOf s.input)).lookup b).getD 0) = Ref.freqOf s.input :=
    Ref.tableFreq_entries _
  obtain ⟨v, hv, hstatus, -, hout, -⟩ := hdecCompletes u (Ref.entries (Ref.freqOf s.input)) s.input
    (Ref.packBits (s.input.flatMap (Ref.codeOf (Ref.treeOf (Ref.freqOf s.input))))) [] _ hu hcapu hne htable.nodup
    htable.counts hbytes (by rw [hcode]) (Ref.packBits_length _) (Ref.take_bitsOf_packBits _)
    (by rw [hin, List.append_nil]; rfl) (hlen ▸ hfit)
  exact ⟨v, hv, hstatus, hout⟩

/-- Settles O37: the count is the first field of the input. -/
theorem hdecCountField : Obligations.HdecCountField := by
  intro s hs hcap
  have hrun := Ref.run_hdec s.input hcap
  refine ⟨fun hshort => exec_fails hs ?_, fun hlong hcount => exec_fails hs ?_⟩
  · rw [hrun, Ref.hdec_of_short (by rwa [input_length])]
  · have hfield : s.memRead 0 8 = leValue (s.input.take 8) :=
      congrArg leValue (take_drop_input s (a := 0) (n := 8) (by omega)).symm
    rw [hfield] at hcount
    rw [hrun, Ref.hdec_of_count (by rwa [input_length]) hcount]

/-- Settles O38: past the check of its length, an entry is its two fields and two checks. -/
theorem tableEntryChecks : Obligations.TableEntryChecks := by
  refine fun s => ⟨fun h => if_pos h, fun h => ?_⟩
  rw [readEntry_of_le h]
  refine ⟨fun hzero => if_pos hzero, fun hpos hdup => ?_, fun hpos hnew => ?_⟩
  · rw [if_neg hpos, if_pos hdup]
  · rw [if_neg hpos, if_neg (not_not.2 hnew)]

end Machine

end Sys2Proof

/-! SUPPORT. The LZW dictionary: searching, adding, the strings of its codes, the bounds it ends with, and the completions of
`LENC` and `LDEC` (43_lzw_dictionary.md). -/

namespace Sys2Proof.Machine

variable {s t : State}

/-! ## Searching -/

/-- `k` is a valid code with the pair `(p, b)` (rule R203). -/
def HasPair (s : State) (p : BitVec 12) (b : Byte) (k : Nat) : Prop :=
  256 ≤ k ∧ k < s.lzw.next.toNat ∧ s.lzw.dict[k - 256]? = some { pfx := p, ch := b }

/-- Only the entries below `NEXT` are searched (rule R202). -/
theorem hasPair_iff_getElem?_take {p : BitVec 12} {b : Byte} {k : Nat} (hk : 256 ≤ k) :
    HasPair s p b k ↔ (s.lzw.dict.take (s.lzw.next.toNat - 256))[k - 256]? = some { pfx := p, ch := b } := by
  have hvalid : k < s.lzw.next.toNat ↔ k - 256 < s.lzw.next.toNat - 256 := by omega
  rw [HasPair, hvalid, List.getElem?_take, Option.ite_none_right_eq_some, and_iff_right hk]

theorem dictSearch_isLeast {p : BitVec 12} {b : Byte} {k : Nat} (h : dictSearch s p b = some k) :
    IsLeast {k | HasPair s p b k} k := by
  obtain ⟨hseed, hfound, hfirst⟩ := searchFrom_some (k := 256) h
  refine ⟨(hasPair_iff_getElem?_take hseed).2 hfound, fun j hj => Nat.not_lt.1 fun hlt => ?_⟩
  have hjseed : 256 ≤ j := hj.1
  exact hfirst (j - 256) (by omega) ((hasPair_iff_getElem?_take hjseed).1 hj)

theorem not_hasPair_of_dictSearch_none {p : BitVec 12} {b : Byte} (h : dictSearch s p b = none) (k : Nat) :
    ¬ HasPair s p b k := fun hk => searchFrom_none h (k - 256) ((hasPair_iff_getElem?_take hk.1).1 hk)

theorem dictSearch_eq_some_iff {p : BitVec 12} {b : Byte} {k : Nat} :
    dictSearch s p b = some k ↔ IsLeast {k | HasPair s p b k} k := by
  refine ⟨dictSearch_isLeast, fun hk => ?_⟩
  cases hsearch : dictSearch s p b with
  | none => exact absurd hk.1 (not_hasPair_of_dictSearch_none hsearch k)
  | some m => rw [(dictSearch_isLeast hsearch).unique hk]

theorem dictSearch_eq_none_iff {p : BitVec 12} {b : Byte} : dictSearch s p b = none ↔ ∀ k, ¬ HasPair s p b k := by
  refine ⟨not_hasPair_of_dictSearch_none, fun h => ?_⟩
  cases hsearch : dictSearch s p b with
  | none => rfl
  | some m => exact absurd (dictSearch_isLeast hsearch).1 (h m)

/-! ## Adding -/

theorem dictAdd_of_full (p : BitVec 12) (b : Byte) (h : s.lzw.next.toNat = 4096) : dictAdd p b s = s :=
  if_neg (by rw [h]; exact Nat.lt_irrefl _)

/-- Below the cap, in a dictionary in step, an add is one entry more at the end (rule R206). -/
theorem dictAdd_of_room (p : BitVec 12) (b : Byte) (hlen : s.lzw.next.toNat = 256 + s.lzw.dict.length)
    (hroom : s.lzw.next.toNat < 4096) :
    dictAdd p b s =
      { s with lzw.dict := s.lzw.dict ++ [{ pfx := p, ch := b }], lzw.next := s.lzw.next + 1 } := by
  have htake : s.lzw.dict.take (s.lzw.next.toNat - Config.dictSeed) = s.lzw.dict :=
    List.take_of_length_le (by simp only [Config.dictSeed]; omega)
  rw [dictAdd, if_pos hroom, htake]

/-! ## The string of a code -/

theorem firstByte_seed (s : State) {c : Nat} (h : c < 256) : firstByte s c = BitVec.ofNat 8 c := by
  unfold firstByte
  cases c with
  | zero => rfl
  | succ c => exact if_pos h

/-- `FIRST` is the first byte of the string of a present code (rule R205). -/
theorem head?_dictEntry (h : Linked s.lzw.dict) {c : Nat} (hc : c < 256 + s.lzw.dict.length) :
    (dictEntry s c).head? = some (firstByte s c) := chainFirst_spec h c hc c (Nat.le_refl c)

/-! ## The dictionary after a run -/

/-- What a run of an accepted `LENC` that ends well leaves in the registers (rule R228). -/
theorem runLenc_ok {trail : Bool} (hs : s.Accepted) (h : runLenc s = .ok (t, trail)) :
    DictOk t ∧ t.lzw.cur.toNat < t.lzw.next.toNat ∧ t.lzw.next.toNat = min 4096 (256 + (t.lzw.ccnt.toNat - 1)) := by
  have hres := runLenc_result s hs
  have hcap : s.seq.n.toNat ≤ s.cfg.inCap.toNat := by
    by_contra hlong
    rw [Ref.run, if_pos (Nat.not_le.1 hlong)] at hres
    exact nomatch h.symm.trans hres
  have hpos : s.seq.n.toNat ≠ 0 := fun hzero => by
    rw [Ref.run, if_neg (Nat.not_lt.2 hcap)] at hres
    simp only [if_pos hzero] at hres
    exact nomatch h.symm.trans hres
  have hspec := runLenc_spec s hs hpos hcap
  split_ifs at hspec with hfit
  · exact nomatch h.symm.trans hspec
  · obtain ⟨u, hu, -, hdict, hcur, hnext⟩ := hspec
    obtain ⟨rfl, -⟩ : u = t ∧ false = trail := by simpa using hu.symm.trans h
    exact ⟨hdict, hcur, hnext⟩

theorem DictOk.bounds (h : DictOk s) :
    256 ≤ s.lzw.next.toNat ∧ s.lzw.next.toNat ≤ 4096 ∧ s.lzw.next.toNat = 256 + s.lzw.dict.length ∧ Linked s.lzw.dict :=
  ⟨by have := h.next; omega, h.cap, h.next, h.linked⟩

/-! ## The statements -/

/-- Settles O42: the code found is the least one with the pair, and there is at most one least code. -/
theorem dictionarySearch : Obligations.DictionarySearch := by
  intro s p b
  refine ⟨fun k => dictSearch_eq_some_iff.trans ⟨fun ⟨hk, hmin⟩ => ?_, fun ⟨hseed, hnext, hentry, hmin⟩ => ?_⟩, ?_⟩
  · obtain ⟨hseed, hnext, hentry⟩ := hk
    exact ⟨hseed, hnext, hentry, fun j hj hlt hpair => Nat.not_le.2 hlt (hmin ⟨hj, by omega, hpair⟩)⟩
  · exact ⟨⟨hseed, hnext, hentry⟩, fun j ⟨hj, _, hpair⟩ => Nat.not_lt.1 fun hlt => hmin j hj hlt hpair⟩
  · simp only [dictSearch_eq_none_iff, HasPair, not_and, ne_eq]

/-- Settles O44: the recursion of `str`, and `FIRST` as the head of the string. -/
theorem dictionaryStrings : Obligations.DictionaryStrings := by
  intro s hlinked
  refine ⟨fun c hc => ⟨strOf_seed _ hc, firstByte_seed s hc⟩, fun j e he => ?_⟩
  have hpfx := hlinked j e he
  have hj : j < s.lzw.dict.length := (List.getElem?_eq_some_iff.1 he).1
  have hstr : dictEntry s (256 + j) = dictEntry s e.pfx.toNat ++ [e.ch] := strOf_entry hlinked he
  have hfirst := head?_dictEntry hlinked (c := 256 + j) (by omega)
  have hpfxFirst := head?_dictEntry hlinked (c := e.pfx.toNat) (by omega)
  refine ⟨hstr, Option.some.inj ?_, hfirst⟩
  rw [← hfirst, hstr, List.head?_append, hpfxFirst, Option.some_or]

/-- Settles O45, from what the runs of the two codecs leave in the dictionary. -/
theorem dictionaryBounds : Obligations.DictionaryBounds := by
  refine ⟨fun s t trail hs hrun => ?_, fun s t trail hs hrun => ?_⟩
  · rcases hrun with hlenc | hldec
    · exact (runLenc_ok hs hlenc).1.bounds
    · exact ((runLdec_spec s hs).2 t trail hldec).1.bounds
  · obtain ⟨-, hcur, hnext⟩ := runLenc_ok hs hrun
    exact ⟨hnext, hcur⟩

/-- Settles O46, from the scan over a dictionary of strings. -/
theorem lencIsReference : Obligations.LencIsReference := fun _ hs => (exec_accepted_result .lenc hs).1

/-- Settles O48, from the run of `LDEC` code by code. -/
theorem ldecIsReference : Obligations.LdecIsReference := fun _ hs => (exec_accepted_result .ldec hs).1

/-- Settles O43, with the cap as a case of its own. -/
theorem dictionaryAdd : Obligations.DictionaryAdd := by
  refine ⟨fun s => ⟨rfl, rfl⟩, fun s p b hlen => ⟨fun hroom => ?_, dictAdd_of_full p b⟩⟩
  have hnext : (s.lzw.next + 1).toNat = s.lzw.next.toNat + 1 := BitVec.toNat_add_of_lt (by simp; omega)
  have hlast : s.lzw.next.toNat - 256 = s.lzw.dict.length := by omega
  rw [dictAdd_of_room p b hlen hroom]
  refine ⟨hnext, ?_, by simp, fun j hj => List.getElem?_append_left hj, rfl⟩
  rw [hlast]
  exact List.getElem?_concat_length

end Sys2Proof.Machine

/-! SUPPORT. `LENC` as a whole: the size of its container, the bounds of its codes, and what they stand for by the expansion of
Reference.lean (44_lzw_encode.md). -/

namespace Sys2Proof

namespace Ref

open Machine (allBytes mem_allBytes allBytes_nodup allBytes_length)

/-- The fields of a `.lzw` container add up (rule R105). -/
theorem lzwContainer_length (cs : List Nat) : (lzwContainer cs).length = 8 + 4 * cs.length := by
  rw [lzwContainer, List.length_append, Machine.leBytes_length, Machine.leBytes_flatMap_length]

/-- `LENC` on an input that passes the checks of dispatch (rules R220, R262). -/
theorem run_lenc {caps : Caps} {n : Nat} (input : List Byte) (hpos : 1 ≤ n) (hcap : n ≤ caps.inCap.toNat) :
    run .lenc caps n input = fit caps.outCap.toNat (lzwContainer (lzwCodes input)) := by
  rw [run, if_neg (Nat.not_lt.2 hcap)]
  exact if_neg (Nat.pos_iff_ne_zero.1 hpos)

/-! ## Dictionaries of strings -/

/-- What every dictionary of a codec keeps: at most `DICT_CAP` strings, and every one-byte string among them
(rules R201, R202). -/
structure IsDict (d : List (List Byte)) : Prop where
  length_le : d.length ≤ 4096
  singleton_mem : ∀ b, [b] ∈ d

@[simp] theorem seed_length : seed.length = 256 := by rw [seed, List.length_map, allBytes_length]

theorem seed_nodup : seed.Nodup := allBytes_nodup.map fun _ _ h => (List.cons.inj h).1

theorem isDict_seed : IsDict seed := ⟨by simp, fun b => List.mem_map_of_mem (mem_allBytes b)⟩

theorem mem_add_of_mem {d : List (List Byte)} {x : List Byte} (h : x ∈ d) (y : List Byte) : x ∈ add d y := by
  unfold add
  split_ifs
  · exact List.mem_append_left _ h
  · exact h

theorem IsDict.add {d : List (List Byte)} (h : IsDict d) (x : List Byte) : IsDict (add d x) := by
  refine ⟨?_, fun b => mem_add_of_mem (h.singleton_mem b) x⟩
  have hle := h.length_le
  unfold Ref.add
  split_ifs with hroom
  · simpa using hroom
  · exact hle

/-- The code of a present string is below `DICT_CAP` (rule R202). -/
theorem IsDict.idxOf_lt {d : List (List Byte)} (h : IsDict d) {x : List Byte} (hx : x ∈ d) : d.idxOf x < 4096 :=
  (List.idxOf_lt_length_of_mem hx).trans_le h.length_le

/-- The code of a one-byte string is its byte (rule R201). -/
theorem idxOf_seed (b : Byte) : seed.idxOf [b] = b.toNat := by
  have hlt : b.toNat < seed.length := by simpa using b.isLt
  have hget : seed[b.toNat] = [b] := by simp [seed, allBytes]
  rw [← hget]
  exact seed_nodup.idxOf_getElem _ hlt

/-! ## The codes of the scan -/

/-- At most one code for each byte of the input (rule R108). -/
theorem scan_length_le (d : List (List Byte)) (cur bs : List Byte) : (scan d cur bs).length ≤ bs.length + 1 := by
  induction bs generalizing d cur with
  | nil => exact Nat.le_refl 1
  | cons b bs ih =>
    rw [scan]
    split_ifs
    · exact (ih ..).trans (Nat.le_succ _)
    · exact Nat.succ_le_succ (ih ..)

/-- Every code is that of a string in the dictionary (rule R108). -/
theorem scan_lt {d : List (List Byte)} {cur : List Byte} (hd : IsDict d) (hcur : cur ∈ d) (bs : List Byte) :
    ∀ c ∈ scan d cur bs, c < 4096 := by
  induction bs generalizing d cur with
  | nil => simpa [scan] using hd.idxOf_lt hcur
  | cons b bs ih =>
    rw [scan]
    split_ifs with hmem
    · exact ih hd hmem
    · have hd' := hd.add (cur ++ [b])
      exact List.forall_mem_cons.2 ⟨hd.idxOf_lt hcur, ih hd' (hd'.singleton_mem b)⟩

@[simp] theorem lzwCodes_singleton (b : Byte) : lzwCodes [b] = [b.toNat] := congrArg (fun c => [c]) (idxOf_seed b)

/-- No string of two bytes is in the seed, so the first code is the first byte and the first add the first two (rule R222). -/
theorem lzwCodes_cons_cons (b c : Byte) (bs : List Byte) :
    lzwCodes (b :: c :: bs) = b.toNat :: scan (add seed [b, c]) [c] bs := by
  have hnew : [b] ++ [c] ∉ seed := by simp [seed]
  rw [lzwCodes, scan, if_neg hnew, idxOf_seed]
  rfl

theorem head?_lzwCodes_cons (b : Byte) (bs : List Byte) : (lzwCodes (b :: bs)).head? = some b.toNat := by
  cases bs with
  | nil => rw [lzwCodes_singleton]; rfl
  | cons c bs => rw [lzwCodes_cons_cons]; rfl

theorem lzwCodes_length_le (input : List Byte) : (lzwCodes input).length ≤ input.length := by
  cases input with
  | nil => exact Nat.le_refl 0
  | cons b bs => exact scan_length_le seed [b] bs

theorem lzwCodes_lt (input : List Byte) : ∀ c ∈ lzwCodes input, c < 4096 := by
  cases input with
  | nil => exact fun _ h => absurd h List.not_mem_nil
  | cons b bs => exact scan_lt isDict_seed (isDict_seed.singleton_mem b) bs

/-! ## What the codes stand for -/

/-- A code that is present stands for its string (rule R241). -/
theorem current_of_mem {d : List (List Byte)} {cur : List Byte} (prev : List Byte) (h : cur ∈ d) :
    current d prev (d.idxOf cur : Nat) = .ok cur := by
  have hlt : d.idxOf cur < d.length := List.idxOf_lt_length_of_mem h
  rw [current, if_pos ⟨by omega, by omega⟩, Int.toNat_natCast, List.getD_eq_getElem?_getD, List.getElem?_idxOf h]
  rfl

/-- The code one past the last stands for the synthesized string (rule R242). -/
theorem current_length {d : List (List Byte)} (prev : List Byte) (h : d.length < 4096) :
    current d prev (d.length : Nat) = .ok (prev ++ prev.take 1) := by
  rw [current, if_neg (by omega), if_pos ⟨rfl, h⟩]

/-- The encoder is one add ahead of the decoder: its code for `cur` is present in the decoder's dictionary, or it is that of the
entry the decoder has still to add, which the decoder synthesizes (rules R241, R242). -/
theorem current_idxOf_add {d : List (List Byte)} {prev cur : List Byte} (hprev : prev ≠ [])
    (h : cur ∈ add d (prev ++ cur.take 1)) : current d prev ((add d (prev ++ cur.take 1)).idxOf cur : Nat) = .ok cur := by
  unfold add at h ⊢
  split_ifs at h ⊢ with hroom
  · by_cases hmem : cur ∈ d
    · rw [List.idxOf_append_of_mem hmem, current_of_mem prev hmem]
    · have hcur : cur = prev ++ cur.take 1 := by simpa [hmem] using h
      have htake : cur.take 1 = prev.take 1 := by
        rw [hcur, List.take_append_of_le_length (List.length_pos_iff.2 hprev)]
      rw [← hcur, List.idxOf_append_of_notMem hmem, List.idxOf_cons_self, Nat.add_zero, current_length prev hroom, ← htake,
        ← hcur]
  · exact current_of_mem prev h

/-- The rest of a scan expands to the string matched so far and the rest of the input, when the decoder has still to make the
add the encoder made last (rules R222, R243). -/
theorem expandFrom_scan {d : List (List Byte)} {prev cur : List Byte} (bs : List Byte) (hd : IsDict d) (hprev : prev ≠ [])
    (hne : cur ≠ []) (hcur : cur ∈ add d (prev ++ cur.take 1)) :
    expandFrom d prev (scan (add d (prev ++ cur.take 1)) cur bs) = some (cur ++ bs) := by
  induction bs generalizing d prev cur with
  | nil => simp [scan, expandFrom, current_idxOf_add hprev hcur]
  | cons b bs ih =>
    rw [scan]
    split_ifs with hmem
    · have htake : (cur ++ [b]).take 1 = cur.take 1 := List.take_append_of_le_length (List.length_pos_iff.2 hne)
      rw [← htake] at hmem ⊢
      rw [ih hd hprev (by simp) hmem, List.append_assoc, List.singleton_append]
    · have hd' := hd.add (prev ++ cur.take 1)
      have hrest := ih (cur := [b]) hd' hne (by simp) ((hd'.add _).singleton_mem b)
      simp only [expandFrom, current_idxOf_add hprev hcur]
      exact congrArg (Option.map (cur ++ ·)) hrest

/-- The codes of an input stand for it (rules R108, R243). -/
theorem expand_lzwCodes (input : List Byte) : expand (lzwCodes input) = some input := by
  match input with
  | [] => rfl
  | [b] => simp [expand, expandFrom, b.isLt]
  | b :: c :: bs =>
    have hrest := expandFrom_scan (prev := [b]) (cur := [c]) bs isDict_seed (by simp) (by simp)
      ((isDict_seed.add _).singleton_mem c)
    rw [lzwCodes_cons_cons, expand, if_pos b.isLt, BitVec.ofNat_toNat, BitVec.setWidth_eq]
    exact congrArg (Option.map (b :: ·)) hrest

end Ref

namespace Machine

variable {s : State}

/-- IN[0..N−1] begins with IN[0]. -/
theorem exists_input_eq_cons (hpos : 1 ≤ s.seq.n.toNat) : ∃ bs, s.input = s.inByte 0 :: bs := by
  have hhead : s.input.head? = some (s.inByte 0) := by
    rw [List.head?_eq_getElem?, State.input, inSlice_getElem?, if_pos (Nat.lt_of_succ_le hpos)]
  exact ⟨_, List.eq_cons_of_mem_head? hhead⟩

/-- Settles O47: a container that fits is what Reference.lean computes, and its codes expand to the input. -/
theorem lencCompletes : Obligations.LencCompletes := by
  intro s hs hpos hcap hfit
  have hlength := Ref.lzwContainer_length (Ref.lzwCodes s.input)
  obtain ⟨t, hexec, hstatus, hidle, hout, hshell⟩ := exec_completes (i := .lenc) hs
    ((Ref.run_lenc s.input hpos hcap).trans (if_pos (hlength.trans_le hfit)))
  obtain ⟨bs, hinput⟩ := exists_input_eq_cons hpos
  have hhead : (Ref.lzwCodes s.input).head? = some (s.inByte 0).toNat := by rw [hinput, Ref.head?_lzwCodes_cons]
  have hone : 1 ≤ (Ref.lzwCodes s.input).length := List.length_pos_of_mem (List.mem_of_mem_head? hhead)
  have hle := Ref.lzwCodes_length_le s.input
  rw [input_length] at hle
  exact ⟨t, hexec, hstatus, hidle, hout, hshell, hout.1.trans hlength, hone, hle, hhead, Ref.lzwCodes_lt s.input,
    Ref.expand_lzwCodes s.input⟩

end Machine

end Sys2Proof

/-! SUPPORT. `LDEC` as a whole: the reference decoder on a container and on a first code that is cut or out of range, the count
field of `LENC`, and the classes of a later code (45_lzw_decode.md). -/

namespace Sys2Proof

namespace Ref

open Machine (Err leBytes leValue ok_bind)

/-! ## Codes in range -/

theorem signed32_of_lt {c : Nat} (h : c < 2 ^ 31) : signed32 c = c := if_pos h

/-- A code in range is present, or the one after the last and below `DICT_CAP` (rules R241, R245). -/
theorem lt_cap_of_current {d : List (List Byte)} {prev cur : List Byte} {c : Nat} (hd : IsDict d)
    (h : current d prev c = .ok cur) : c < 4096 := by
  have hle := hd.length_le
  unfold current at h
  split_ifs at h with hpresent hnext
  · omega
  · omega

/-- Codes stand for something when the first of them is in range and the others are in the dictionary it leaves (rule R243). -/
theorem expandFrom_cons_eq_some {d : List (List Byte)} {prev out : List Byte} {c : Nat} {cs : List Nat} :
    expandFrom d prev (c :: cs) = some out ↔
      ∃ cur tail, current d prev c = .ok cur ∧ expandFrom (add d (prev ++ cur.take 1)) cur cs = some tail ∧
        cur ++ tail = out := by
  rw [expandFrom]
  cases current d prev c with
  | error e => simp
  | ok cur => simp

/-! ## The decoder on a container -/

/-- One code in range whose string fits OUT (rules R239, R241, R243). -/
theorem decodeRest_code {d : List (List Byte)} {prev cur : List Byte} {c room : Nat} (hc : c < 4096)
    (h : current d prev c = .ok cur) (hroom : cur.length ≤ room) (k : Nat) (bs : List Byte) :
    decodeRest (k + 1) d prev room (leBytes 4 c ++ bs) =
      (decodeRest k (add d (prev ++ cur.take 1)) cur (room - cur.length) bs).map fun p => (cur ++ p.1, p.2) := by
  rw [decodeRest, field_leBytes (by omega)]
  simp only [ok_bind, signed32_of_lt (show c < 2 ^ 31 by omega), h, if_neg (Nat.not_lt.2 hroom)]
  cases decodeRest k (add d (prev ++ cur.take 1)) cur (room - cur.length) bs <;> rfl

/-- Codes in range give the bytes they stand for, when those fit OUT. -/
theorem decodeRest_codes {d : List (List Byte)} {prev out : List Byte} {cs : List Nat} {room : Nat} (hd : IsDict d)
    (h : expandFrom d prev cs = some out) (hroom : out.length ≤ room) (extra : List Byte) :
    decodeRest cs.length d prev room (cs.flatMap (leBytes 4) ++ extra) = .ok (out, extra) := by
  induction cs generalizing d prev out room with
  | nil =>
    obtain rfl : [] = out := Option.some.inj h
    rfl
  | cons c cs ih =>
    obtain ⟨cur, tail, hcur, htail, rfl⟩ := expandFrom_cons_eq_some.1 h
    rw [List.length_append] at hroom
    rw [List.length_cons, List.flatMap_cons, List.append_assoc,
      decodeRest_code (lt_cap_of_current hd hcur) hcur (by omega), ih (hd.add _) htail (by omega)]
    rfl

/-- The same from the first code, which is a literal (rule R240). -/
theorem decodeAll_codes {out : List Byte} {cs : List Nat} {room : Nat} (h : expand cs = some out) (hroom : out.length ≤ room)
    (extra : List Byte) : decodeAll cs.length room (cs.flatMap (leBytes 4) ++ extra) = .ok (out, extra) := by
  cases cs with
  | nil =>
    obtain rfl : [] = out := Option.some.inj h
    rfl
  | cons c cs =>
    rw [expand, Option.ite_none_right_eq_some] at h
    obtain ⟨hc, hrest⟩ := h
    obtain ⟨tail, htail, rfl⟩ := Option.map_eq_some_iff.1 hrest
    rw [List.length_cons] at hroom
    rw [List.length_cons, List.flatMap_cons, List.append_assoc, decodeAll, field_leBytes (by omega)]
    have hliteral : ¬ ((c : Int) < 0 ∨ (c : Int) ≥ 256) := by omega
    simp only [ok_bind, signed32_of_lt (show c < 2 ^ 31 by omega), if_neg hliteral, if_neg (show ¬ room < 1 by omega),
      Int.toNat_natCast, decodeRest_codes isDict_seed htail (show tail.length ≤ room - 1 by omega)]

/-- `LDEC` on a container whose codes are in range, with any bytes after it (rules R236, R246). -/
theorem ldec_container {out : List Byte} {cs : List Nat} {outCap : Nat} (h : expand cs = some out)
    (hroom : out.length ≤ outCap) (hcount : cs.length < 2 ^ 64) (extra : List Byte) :
    ldec outCap (lzwContainer cs ++ extra) = .ok (out, decide (extra ≠ [])) := by
  rw [ldec, lzwContainer, List.append_assoc, field_leBytes hcount]
  simp only [ok_bind, decodeAll_codes h hroom]

/-- `LDEC` on an input that passes the check of dispatch (rules R236, R262). -/
theorem run_ldec {caps : Caps} {n : Nat} (input : List Byte) (hcap : n ≤ caps.inCap.toNat) :
    run .ldec caps n input = ldec caps.outCap.toNat input := if_neg (Nat.not_lt.2 hcap)

/-! ## The count and the first code -/

/-- A count field cut short (rule R237). -/
theorem ldec_of_short {input : List Byte} (h : input.length < 8) (outCap : Nat) : ldec outCap input = .error .fmtTrunc := by
  rw [ldec, field, if_pos h]
  rfl

/-- An error in the codes that follow the count (rule R237). -/
theorem ldec_of_codes {input : List Byte} {outCap : Nat} {e : Err} (h : 8 ≤ input.length)
    (hcodes : decodeAll (leValue (input.take 8)) outCap (input.drop 8) = .error e) : ldec outCap input = .error e := by
  rw [ldec, field, if_neg (Nat.not_lt.2 h)]
  simp only [ok_bind, hcodes]
  rfl

/-- A first code cut short (rule R239). -/
theorem decodeAll_of_short {bs : List Byte} {k : Nat} (hk : k ≠ 0) (h : bs.length < 4) (room : Nat) :
    decodeAll k room bs = .error .fmtTrunc := by
  cases k with
  | zero => exact absurd rfl hk
  | succ k =>
    rw [decodeAll, field, if_pos h]
    rfl

/-- A first code that is no literal, whatever room OUT has (rule R240). -/
theorem decodeAll_of_code {bs : List Byte} {k : Nat} (hk : k ≠ 0) (h : 4 ≤ bs.length)
    (hcode : signed32 (leValue (bs.take 4)) < 0 ∨ signed32 (leValue (bs.take 4)) ≥ 256) (room : Nat) :
    decodeAll k room bs = .error .fmtCode := by
  cases k with
  | zero => exact absurd rfl hk
  | succ k =>
    rw [decodeAll, field, if_neg (Nat.not_lt.2 h), ok_bind]
    exact if_pos hcode

end Ref

namespace Machine

variable {s t : State}

/-- A field of IN inside the operand (rules R11, R61). -/
theorem memRead_eq_leValue {a n : Nat} (h : a + n ≤ s.seq.n.toNat) : s.memRead a n = leValue ((s.input.drop a).take n) :=
  congrArg leValue (take_drop_input s h).symm

theorem memRead_lt (s : State) (a n : Nat) : s.memRead a n < 256 ^ n := by
  have hlt := leValue_lt (s.inSlice a n)
  rwa [inSlice_length] at hlt

/-! ## What `LENC` puts out -/

/-- A run that ends well after its first part ends well in both (rule R290). -/
theorem exists_ok_of_bind {α β : Type} {r : Except Err α} {f : α → Except Err β} {b : β} (h : (r >>= f) = .ok b) :
    ∃ a, r = .ok a ∧ f a = .ok b := by
  cases r with
  | error e => exact nomatch h
  | ok a => exact ⟨a, rfl, h⟩

/-- The run of `LENC` ends with `WRITE_COUNT` (rule R224). -/
theorem runLenc_eq_writeCount {trail : Bool} (h : runLenc s = .ok (t, trail)) : ∃ u, t = writeCount u := by
  obtain ⟨_, -, h⟩ := exists_ok_of_bind h
  obtain ⟨_, -, h⟩ := exists_ok_of_bind h
  obtain ⟨_, -, h⟩ := exists_ok_of_bind h
  obtain ⟨u, -, h⟩ := exists_ok_of_bind h
  exact ⟨u, (congrArg Prod.fst (Except.ok.inj h)).symm⟩

/-- The count stands in the first 8 bytes of OUT (rule R224). -/
theorem read_writeCount (s : State) {a : Nat} (h : a < 8) :
    Memory.read (writeCount s).outBuf a = (leBytes 8 s.lzw.ccnt.toNat)[a]? := by
  rw [writeCount, memWrite, Memory.read_writeBytes, if_pos ⟨Nat.zero_le a, by simpa using h⟩, Nat.sub_zero]

/-- The first field of what `LENC` puts out is the number of codes it counted (rules R105, R224). -/
theorem leValue_take_lenc {trail : Bool} (hs : s.Accepted) (hpos : 1 ≤ s.seq.n.toNat) (hcap : s.seq.n.toNat ≤ s.cfg.inCap.toNat)
    (h : runLenc s = .ok (t, trail)) :
    leValue ((Ref.lzwContainer (Ref.lzwCodes s.input)).take 8) = t.lzw.ccnt.toNat := by
  have hres := runLenc_result s hs
  rw [Ref.run_lenc s.input hpos hcap, Ref.fit] at hres
  split_ifs at hres with hfit
  · obtain ⟨-, u, hu, hvis⟩ := hres
    obtain ⟨rfl, -⟩ : u = t ∧ false = trail := by simpa using hu.symm.trans h
    obtain ⟨w, rfl⟩ := runLenc_eq_writeCount h
    have hout : (writeCount w).outBuf = Memory.writeBytes [] 0 (Ref.lzwContainer (Ref.lzwCodes s.input)) := by
      rw [hvis.outBuf, appendOut, hs.out, hs.wp]
      rfl
    have hfield : (Ref.lzwContainer (Ref.lzwCodes s.input)).take 8 = leBytes 8 (writeCount w).lzw.ccnt.toNat := by
      refine List.ext_getElem? fun a => ?_
      rw [List.getElem?_take, writeCount_lzw]
      split_ifs with ha
      · rw [← read_writeCount w ha, hout, Memory.read_writeBytes_nil]
      · rw [List.getElem?_eq_none (by simpa using ha)]
    rw [hfield, leValue_leBytes 8 _ (BitVec.isLt _)]
  · exact nomatch h.symm.trans hres

/-- What an encoder that succeeded put out (rules R264, R289). -/
theorem output_of_run_eq_fit {i : Instr} {bs : List Byte} (hs : s.Accepted)
    (hrun : Ref.run i s.cfg s.seq.n.toNat s.input = Ref.fit s.cfg.outCap.toNat bs) (hexec : exec i s = .next t)
    (hok : t.status.err = false) : t.Output bs := by
  by_cases hfit : bs.length ≤ s.cfg.outCap.toNat
  · obtain ⟨u, hu, -, -, hout, -⟩ := exec_completes hs (hrun.trans (if_pos hfit))
    obtain rfl : u = t := by simpa [hexec] using hu.symm
    exact hout
  · obtain rfl : errorTerminate .ioOvf s = t := by
      simpa [hexec] using (exec_fails hs (hrun.trans (if_neg hfit))).symm
    rw [errorTerminate_status] at hok
    cases hok

/-! ## The statements -/

/-- Settles O49: the codes of the container expand as Reference.lean decodes them. -/
theorem ldecCompletes : Obligations.LdecCompletes := by
  intro s cs out extra hs hcap hin hexpand hfit
  have hcount : cs.length < 2 ^ 64 := by
    have hlen := congrArg List.length hin
    have hn := s.seq.n.isLt
    rw [input_length, List.length_append, Ref.lzwContainer_length] at hlen
    omega
  exact exec_completes hs (by rw [Ref.run_ldec _ hcap, hin, Ref.ldec_container hexpand hfit hcount])

/-- Settles O50: the count and the first code are the first two fields of the input. -/
theorem ldecFirstCode : Obligations.LdecFirstCode := by
  intro s hs hcap
  have hfails : ∀ {e}, Ref.ldec s.cfg.outCap.toNat s.input = .error e → exec .ldec s = .next (errorTerminate e s) := fun h =>
    exec_fails hs ((Ref.run_ldec s.input hcap).trans h)
  refine ⟨fun hshort => hfails (Ref.ldec_of_short (by rwa [input_length]) _), fun hlong hcount hshort => hfails ?_,
    fun hlong hcount hcode => hfails ?_⟩
  · rw [memRead_eq_leValue (a := 0) (n := 8) (by omega)] at hcount
    exact Ref.ldec_of_codes (by rwa [input_length])
      (Ref.decodeAll_of_short hcount (by rw [List.length_drop, input_length]; omega) _)
  · rw [memRead_eq_leValue (a := 0) (n := 8) (by omega)] at hcount
    rw [toInt_ofNat (memRead_lt s 8 4), memRead_eq_leValue (a := 8) (n := 4) (by omega)] at hcode
    exact Ref.ldec_of_codes (by rw [input_length]; omega)
      (Ref.decodeAll_of_code hcount (by rw [List.length_drop, input_length]; omega) hcode _)

/-- Settles O52: the codes of the container stand for the input, and `LDEC` reads in its count field the number of codes that
`LENC` counted, so both make the same number of adds. -/
theorem lzwRoundTrip : Obligations.LzwRoundTrip := by
  intro s t u hs hpos hcap hexec hok hu hn hcapu hcopy hfit
  have hin : u.input = Ref.lzwContainer (Ref.lzwCodes s.input) :=
    input_eq_of_output (output_of_run_eq_fit hs (Ref.run_lenc s.input hpos hcap) hexec hok) hn hcopy
  obtain ⟨v, hv, hstatus, -, hout, -⟩ := ldecCompletes u (Ref.lzwCodes s.input) s.input [] hu hcapu
    (by rw [hin, List.append_nil]) (Ref.expand_lzwCodes s.input) (by rwa [input_length])
  refine ⟨v, hv, hstatus, hout, ?_⟩
  rintro ⟨x, xtrail⟩ ⟨y, ytrail⟩ hx hy
  obtain ⟨-, -, hxnext⟩ := runLenc_ok hs hx
  obtain ⟨-, hynext⟩ := (runLdec_spec u hu).2 y ytrail hy
  rw [hin, leValue_take_lenc hs hpos hcap hx, ← hxnext] at hynext
  exact BitVec.eq_of_toNat_eq hynext.symm

/-- Settles O51: `classifyCode` asks for a present code, then for the next one below the cap. -/
theorem laterCodeClasses : Obligations.LaterCodeClasses := by
  intro s _ hcap
  have hpresent : ∀ c : Nat, s.lzw.codev.toInt = c → c < s.lzw.next.toNat → classifyCode s = .ok (dictEntry s c) := by
    intro c hc hlt
    rw [classifyCode, if_pos (by omega), hc, Int.toNat_natCast]
  refine ⟨hpresent, fun hnext hroom => ?_, fun hout => ?_⟩
  · rw [classifyCode, if_neg (by omega), if_pos ⟨hnext, hroom⟩]
  · rw [classifyCode, if_neg (by omega), if_neg (by simp only [Config.dictCap]; omega)]

end Machine

end Sys2Proof

/-! SUPPORT. The host's operations and the completion of a command (46_host_operations.md): the registers by offset, the turn
that runs the latched word, and what a completion leaves, with the errors of each command's row. -/

namespace Sys2Proof.Machine

variable {s t : State}

/-! ## The registers by offset -/

/-- What a register read returns (rule R255), with `CTRL` and `IN_CAP` as numbers. -/
theorem readReg_eq (s : State) (off : Nat) :
    readReg s off =
      if off = 0x00 then (if s.ie then 1 else 0)
      else if off = 0x10 then s.status.word
      else if off = 0x18 then s.inLen
      else if off = 0x20 then s.outLen
      else if off = 0x28 then BitVec.ofNat 64 s.cfg.inCap.toNat
      else if off = 0x30 then s.cfg.outCap
      else 0 := by
  unfold readReg
  split
  case h_1 => cases hie : s.ie <;> rfl
  case h_6 => exact (BitVec.ofNat_toNat 64 s.cfg.inCap).symm
  case h_8 hctrl _ hstatus hinLen houtLen hinCap houtCap =>
    rw [if_neg hctrl, if_neg hstatus, if_neg hinLen, if_neg houtLen, if_neg hinCap, if_neg houtCap]
  all_goals rfl

/-- The word a write to `CMD` carries is the low half of the data (rule R30). -/
theorem commandWord_eq_extractLsb' (v : Word64) : commandWord v = v.extractLsb' 0 32 :=
  BitVec.setWidth_eq_extractLsb' (by decide)

/-- What a register write does (rule R256). -/
theorem writeReg_eq (off : Nat) (v : Word64) (s : State) :
    writeReg off v s =
      if off = 0x00 then { s with ie := v.getLsbD 0 }
      else if off = 0x08 then (if s.status.busy then s else accept (commandWord v) s)
      else if off = 0x10 then (if v.getLsbD 1 then ackDone s else s)
      else if off = 0x18 then (if s.status.busy then s else { s with inLen := v })
      else s := by
  unfold writeReg
  split
  case h_5 hctrl hcmd hstatus hinLen => rw [if_neg hctrl, if_neg hcmd, if_neg hstatus, if_neg hinLen]
  all_goals rfl

/-! ## The turn that runs the latched word -/

theorem completion_of_decode {i : Instr} (h : decode s.seq.cmdl = .ok i) : completion s = exec i s := by
  simp only [completion, h]

/-- The block's turn of a running command (rules R262, R263). -/
theorem blockTurn_of_decode {i : Instr} (hb : s.status.busy = true) (h : decode s.seq.cmdl = .ok i) :
    blockTurn s = exec i s := (blockTurn_busy hb).trans (completion_of_decode h)

/-- Once the block has been put first, the step is its turn in the state as it was. -/
theorem step_yieldToBlock (s : State) : step (yieldToBlock s) = blockTurn s := by
  cases ha : s.agenda with
  | nil => simp only [yieldToBlock, ha, step_of_agenda_nil]
  | cons x rest =>
    have hy : yieldToBlock s = { s with agenda := .block :: x :: rest } := by simp only [yieldToBlock, ha]
    rw [hy, step_block rfl, ← ha]

theorem decode_of_decodeTableWord {nbits w : Nat} {i : Instr} (h : decodeTableWord nbits w = some i) :
    decode (BitVec.ofNat 32 (w % 2 ^ nbits)) = .ok i := by
  unfold decodeTableWord at h
  split at h
  next j hj => rwa [← Option.some.inj h]
  next => exact nomatch h

/-! ## The frame of a completion -/

theorem Completed.draws (h : Completed s t) : t.draws = s.draws + 1 := by
  cases h with
  | failed e => exact errorTerminate_draws e s
  | succeeded u trail h => rw [succeed_draws, h.draws]

theorem Completed.ph (h : Completed s t) : t.ph = .idle := by
  cases h with
  | failed e => exact errorTerminate_ph e s
  | succeeded u trail h => exact succeed_ph trail u

/-- No byte of OUT at or above `OUT_LEN` is specified, whatever the run wrote there (rule R41). -/
theorem Completed.read_outBuf (h : Completed s t) {a : Nat} (ha : t.outLen.toNat ≤ a) : Memory.read t.outBuf a = none := by
  cases h with
  | failed e => rw [errorTerminate_outBuf, Memory.read_nil]
  | succeeded u trail h =>
    rw [succeed_outLen] at ha
    rw [succeed_outBuf, Memory.read_below, if_neg (Nat.not_lt.2 ha)]

/-! ## The errors and the `TRAIL` of each command -/

/-- The causes in a command's row of the code table (rule R281), in the order of their codes. -/
def errorRow : Instr → List Err
  | .henc => [.inputEmpty, .inputLen, .ioOvf]
  | .hdec => [.inputLen, .fmtTrunc, .fmtCount, .fmtDup, .fmtZeroFreq, .fmtOffLeaf, .fmtBadBit, .ioOvf]
  | .lenc => [.inputEmpty, .inputLen, .ioOvf]
  | .ldec => [.inputLen, .fmtTrunc, .fmtCode, .ioOvf]

/-- What the checks of dispatch can raise (rule R262). -/
def dispatchErrors (encoder : Bool) : List Err := if encoder then [.inputLen, .inputEmpty] else [.inputLen]

theorem dispatchCheck_error {encoder : Bool} {e : Err} (h : dispatchCheck encoder s = .error e) :
    e ∈ dispatchErrors encoder := by
  rw [dispatchCheck_eq] at h
  split_ifs at h with hlen hempty <;> cases h
  · cases encoder <;> decide
  · rw [hempty.1]
    decide

/-- The errors of a run, in the form in which the run lemmas of the four commands state it: those of dispatch, then its own. -/
theorem error_of_runs {encoder : Bool} {E : List Err} {r : Except Err (State × Bool)} {e : Err}
    (h : match dispatchCheck encoder s with
      | .error e => r = .error e
      | .ok _ => Runs E Prod.fst s r)
    (he : r = .error e) : e ∈ dispatchErrors encoder ++ E := by
  cases hd : dispatchCheck encoder s with
  | error e' =>
    rw [hd] at h
    obtain rfl : e' = e := Except.error.inj (h.symm.trans he)
    exact List.mem_append_left _ (dispatchCheck_error hd)
  | ok u =>
    rw [hd] at h
    exact List.mem_append_right _ (h.err e he)

/-- `HENC` never sets `TRAIL` (rule R161). -/
theorem runHenc_trail {a : State × Bool} (h : runHenc s = .ok a) : a.2 = false := by
  obtain ⟨_, -, h⟩ := exists_ok_of_bind h
  obtain ⟨_, -, h⟩ := exists_ok_of_bind h
  obtain ⟨_, -, h⟩ := exists_ok_of_bind h
  obtain ⟨_, -, h⟩ := exists_ok_of_bind h
  obtain ⟨_, -, h⟩ := exists_ok_of_bind h
  exact congrArg Prod.snd (Except.ok.inj h).symm

/-- `LENC` never sets `TRAIL` (rule R220). -/
theorem runLenc_trail {a : State × Bool} (h : runLenc s = .ok a) : a.2 = false := by
  obtain ⟨_, -, h⟩ := exists_ok_of_bind h
  obtain ⟨_, -, h⟩ := exists_ok_of_bind h
  obtain ⟨_, -, h⟩ := exists_ok_of_bind h
  obtain ⟨_, -, h⟩ := exists_ok_of_bind h
  exact congrArg Prod.snd (Except.ok.inj h).symm

/-- How the command `i` accepted in `s` can end: by an error of its row, or well, and an encoder without `TRAIL`. -/
inductive Ended (i : Instr) (s : State) : State → Prop where
  | failed (e : Err) (he : e ∈ errorRow i) : Ended i s (errorTerminate e s)
  | succeeded (u : State) (trail : Bool) (htrail : i = .henc ∨ i = .lenc → trail = false) : Ended i s (succeed trail u)

theorem conclude_ended {i : Instr} {r : Except Err (State × Bool)} (herr : ∀ e, r = .error e → e ∈ errorRow i)
    (htrail : ∀ a, r = .ok a → i = .henc ∨ i = .lenc → a.2 = false) (h : conclude s r = .next t) : Ended i s t := by
  cases r with
  | error e => cases h; exact .failed e (herr e rfl)
  | ok a => cases h; exact .succeeded a.1 a.2 (htrail a rfl)

theorem exec_ended {i : Instr} (h : exec i s = .next t) : Ended i s t := by
  cases i with
  | henc =>
    have hrow : dispatchErrors true ++ [.ioOvf] ⊆ errorRow .henc := by decide
    exact conclude_ended (fun e he => hrow (error_of_runs (runs_runHenc s) he)) (fun a ha _ => runHenc_trail ha) h
  | hdec =>
    have hrow : dispatchErrors false ++ [.fmtTrunc, .fmtCount, .fmtZeroFreq, .fmtDup, .ioOvf, .fmtOffLeaf, .fmtBadBit] ⊆
      errorRow .hdec := by decide
    exact conclude_ended (fun e he => hrow (error_of_runs (runs_runHdec s) he)) (by simp) h
  | lenc =>
    have hrow : dispatchErrors true ++ [.ioOvf] ⊆ errorRow .lenc := by decide
    exact conclude_ended (fun e he => hrow (error_of_runs (runs_runLenc s) he)) (fun a ha _ => runLenc_trail ha) h
  | ldec =>
    have hrow : dispatchErrors false ++ [.fmtTrunc, .fmtCode, .ioOvf] ⊆ errorRow .ldec := by decide
    exact conclude_ended (fun e he => hrow (error_of_runs (runs_runLdec s) he)) (by simp) h

/-! ## What a result depends on -/

/-- The operand of a command is `N` and the bytes of IN below it (rule R61). -/
theorem input_congr (hn : s.seq.n = t.seq.n) (hin : ∀ a, a < s.seq.n.toNat → s.inByte a = t.inByte a) :
    s.input = t.input := by
  rw [State.input, State.input, ← hn]
  refine List.map_congr_left fun a ha => ?_
  simpa using hin a (List.mem_range.1 ha)

/-- The outcome registers and OUT after a completion hold the result and nothing of the state before (rule R264). -/
theorem complete_outcome (s t : State) (r : Ref.Result) :
    (Ref.complete s r).status = (Ref.complete t r).status ∧ (Ref.complete s r).outLen = (Ref.complete t r).outLen ∧
      (Ref.complete s r).outBuf = (Ref.complete t r).outBuf := by
  cases r with
  | error e => exact ⟨rfl, rfl, rfl⟩
  | ok p => exact ⟨rfl, rfl, rfl⟩

/-! ## The statements -/

/-- Settles O53: a command always ends, by an error of its row or well, and what it leaves is read off either end. -/
theorem everyCommandCompletes : Obligations.EveryCommandCompletes := by
  intro i s
  obtain ⟨t, ht⟩ := exec_next i s
  have hc := exec_completed ht
  refine ⟨t, ht, hc.not_busy, hc.done, hc.ph, ?_⟩
  cases exec_ended ht with
  | failed e he =>
    have hcode : e.code ∈ (errorRow i).map Err.code := List.mem_map_of_mem he
    rw [errorTerminate_status, errorTerminate_outLen, errorTerminate_outBuf]
    refine .inr ⟨rfl, rfl, rfl, Memory.read_nil, ?_⟩
    cases i <;> exact hcode
  | succeeded u trail htrail =>
    rw [succeed_status]
    exact .inl ⟨rfl, rfl, htrail⟩

/-- Settles O54: every command ends in a completion, which keeps the shell. -/
theorem commandFrame : Obligations.CommandFrame := by
  intro i s t h
  have hc := exec_completed h
  have hsh := hc.sameShell
  exact ⟨hsh, inByte_congr hsh.inBuf hsh.epoch, hc.draws, fun a => hc.read_outBuf⟩

/-- Settles O56: both commands complete with what Reference.lean computes, and it computes from these inputs alone. -/
theorem resultDependsOnInputsOnly : Obligations.ResultDependsOnInputsOnly := by
  intro i s s' t t' hs hs' hcfg hn hin h h'
  have hrun : Ref.run i s.cfg s.seq.n.toNat s.input = Ref.run i s'.cfg s'.seq.n.toNat s'.input := by
    rw [hcfg, input_congr hn hin, hn]
  rw [(exec_accepted_result i hs).1, hrun] at h
  rw [(exec_accepted_result i hs').1] at h'
  cases h
  cases h'
  exact complete_outcome s s' _

/-- Settles O4: the block's turn, at the head of the agenda or with none, completes the latched command. -/
theorem stepRunsLatchedCommand : Obligations.StepRunsLatchedCommand := fun _ _ hb hd =>
  ⟨fun ha => (step_of_agenda_nil ha).trans (blockTurn_of_decode hb hd),
    fun _ ha => (step_block ha).trans (blockTurn_of_decode hb hd)⟩

/-- Settles O5: acceptance latches the word and makes the block busy, and the turn after it is the block's. -/
theorem fetchWordRunsNext : Obligations.FetchWordRunsNext := fun _ _ _ _ h =>
  (step_yieldToBlock _).trans (blockTurn_of_decode rfl (decode_of_decodeTableWord h))

/-- Settles O11, from the value of each register. -/
theorem registerRead : Obligations.RegisterRead := by
  intro s off h₈ hlt
  rw [hostTurn_readReg ((isRegOffset_iff off).2 ⟨h₈, hlt⟩), readReg_eq]
  rfl

/-- Settles O12, from the effect of a write on each register. -/
theorem registerWrite : Obligations.RegisterWrite := by
  intro s off v h₈ hlt
  rw [hostTurn_writeReg ((isRegOffset_iff off).2 ⟨h₈, hlt⟩), writeReg_eq, commandWord_eq_extractLsb']
  rfl

/-- Settles O14: a write to `CMD` while not busy is an acceptance. -/
theorem acceptance : Obligations.Acceptance := by
  intro s v hidle
  refine ⟨{ accept (v.extractLsb' 0 32) s with reply := .none }, ?_, rfl, rfl, rfl, rfl, rfl, Memory.read_nil, rfl, rfl, rfl,
    rfl, rfl, rfl⟩
  rw [hostTurn_writeReg rfl, writeReg_cmd v hidle, commandWord_eq_extractLsb']

end Sys2Proof.Machine

/-! SUPPORT. The causes of an error (60_exceptions.md): which runs end with an error of dispatch, and how a completion shows
whether its run raised one. -/

namespace Sys2Proof.Machine

variable {s t : State}

/-! ## The run of a command -/

/-- The run that the completion step of a command concludes. -/
def runOf : Instr → State → Except Err (State × Bool)
  | .henc => runHenc
  | .hdec => runHdec
  | .lenc => runLenc
  | .ldec => runLdec

theorem exec_eq_conclude (i : Instr) (s : State) : exec i s = conclude s (runOf i s) := by
  cases i <;> rfl

/-- A completion tells an error of its run from the success of it (rules R263, R292). -/
theorem conclude_cases {r : Except Err (State × Bool)} (h : conclude s r = .next t) :
    (∃ e, r = .error e ∧ t = errorTerminate e s) ∨ ∃ u trail, r = .ok (u, trail) ∧ t = succeed trail u := by
  cases r with
  | error e => cases h; exact .inl ⟨e, rfl, rfl⟩
  | ok a => cases h; exact .inr ⟨a.1, a.2, rfl, rfl⟩

theorem exec_of_error {i : Instr} {e : Err} (h : runOf i s = .error e) : exec i s = .next (errorTerminate e s) := by
  rw [exec_eq_conclude, h]
  rfl

/-! ## The errors of dispatch -/

/-- The opcodes 1 and 3, for which dispatch asks whether `N = 0` (rule R262). -/
def isEncoder : Instr → Bool
  | .henc | .lenc => true
  | .hdec | .ldec => false

theorem isEncoder_iff (i : Instr) : isEncoder i = true ↔ i = .henc ∨ i = .lenc := by
  cases i <;> decide

theorem dispatchCheck_eq_inputLen_iff {encoder : Bool} :
    dispatchCheck encoder s = .error .inputLen ↔ s.cfg.inCap.toNat < s.seq.n.toNat := by
  rw [dispatchCheck_eq]
  split_ifs with hlen hempty
  · exact ⟨fun _ => hlen, fun _ => rfl⟩
  · exact ⟨nofun, fun h => absurd h hlen⟩
  · exact ⟨nofun, fun h => absurd h hlen⟩

theorem dispatchCheck_eq_inputEmpty_iff {encoder : Bool} :
    dispatchCheck encoder s = .error .inputEmpty ↔ encoder = true ∧ s.seq.n = 0 := by
  have hn : s.seq.n = 0 ↔ s.seq.n.toNat = 0 := BitVec.toNat_inj.symm
  rw [dispatchCheck_eq, hn]
  split_ifs with hlen hempty
  · exact ⟨nofun, fun h => absurd h.2 (by omega)⟩
  · exact ⟨fun _ => hempty, fun _ => rfl⟩
  · exact ⟨nofun, fun h => absurd h hempty⟩

/-- A run of which the own errors `E` are none of dispatch raises an error of dispatch exactly when dispatch raised it, in the
form in which the run lemmas of the four commands state a run. -/
theorem error_iff_of_runs {d : Except Err State} {E : List Err} {r : Except Err (State × Bool)} {e : Err}
    (h : match d with
      | .error e => r = .error e
      | .ok _ => Runs E Prod.fst s r)
    (hown : ∀ e ∈ dispatchErrors true, e ∉ E) (he : e ∈ dispatchErrors true) : r = .error e ↔ d = .error e := by
  cases d with
  | error e' => rw [h, Except.error.injEq, Except.error.injEq]
  | ok u => exact ⟨fun hr => absurd (h.err e hr) (hown e he), nofun⟩

/-- The two errors of dispatch are raised nowhere else (rules R283, R284). -/
theorem runOf_eq_error_iff (i : Instr) {e : Err} (he : e ∈ dispatchErrors true) :
    runOf i s = .error e ↔ dispatchCheck (isEncoder i) s = .error e := by
  cases i with
  | henc => exact error_iff_of_runs (runs_runHenc s) (by decide) he
  | hdec => exact error_iff_of_runs (runs_runHdec s) (by decide) he
  | lenc => exact error_iff_of_runs (runs_runLenc s) (by decide) he
  | ldec => exact error_iff_of_runs (runs_runLdec s) (by decide) he

theorem runOf_eq_inputLen_iff (i : Instr) : runOf i s = .error .inputLen ↔ s.cfg.inCap.toNat < s.seq.n.toNat :=
  (runOf_eq_error_iff i (by decide)).trans dispatchCheck_eq_inputLen_iff

theorem runOf_eq_inputEmpty_iff (i : Instr) :
    runOf i s = .error .inputEmpty ↔ (i = .henc ∨ i = .lenc) ∧ s.seq.n = 0 := by
  rw [runOf_eq_error_iff i (by decide), dispatchCheck_eq_inputEmpty_iff, isEncoder_iff]

/-- No other cause has the code 0x10 (rule R281). -/
theorem eq_inputEmpty_of_code {e : Err} (h : e.code = 0x10) : e = .inputEmpty := by
  revert h
  cases e <;> decide

/-! ## The statements -/

/-- Settles O58: the encoders fail in dispatch, the decoders at their first field; and `E_INPUT_EMPTY` comes from nowhere but
the dispatch of an encoder. -/
theorem emptyInput : Obligations.EmptyInput := by
  refine ⟨fun s hs hn => ?_, fun i s t h hcode => ?_⟩
  · have hlen : s.seq.n.toNat = 0 := congrArg BitVec.toNat hn
    have hcap : s.seq.n.toNat ≤ s.cfg.inCap.toNat := by omega
    have hshort : s.input.length < 8 := by rw [input_length]; omega
    exact ⟨exec_of_error ((runOf_eq_inputEmpty_iff .henc).2 ⟨.inl rfl, hn⟩),
      exec_of_error ((runOf_eq_inputEmpty_iff .lenc).2 ⟨.inr rfl, hn⟩),
      exec_fails hs ((Ref.run_hdec _ hcap).trans (Ref.hdec_of_short hshort _)),
      exec_fails hs ((Ref.run_ldec _ hcap).trans (Ref.ldec_of_short hshort _))⟩
  · rw [exec_eq_conclude] at h
    rcases conclude_cases h with ⟨e, hr, rfl⟩ | ⟨u, trail, -, rfl⟩
    · rw [errorTerminate_status] at hcode
      rw [eq_inputEmpty_of_code hcode] at hr
      exact ((runOf_eq_inputEmpty_iff i).1 hr).symm
    · rw [succeed_status] at hcode
      exact absurd hcode (by simp [Status.succeeded])

/-- Settles O55: the state change is that of `errorTerminate`, and a success leaves `ERR = 0`. -/
theorem errorTermination : Obligations.ErrorTermination := by
  refine ⟨fun s e => ⟨errorTerminate e s, rfl, ?_⟩, fun s t i h herr => ?_⟩
  · rw [errorTerminate_status, errorTerminate_outBuf]
    refine ⟨rfl, ?_, rfl, rfl, rfl, errorTerminate_outLen e s, Memory.read_nil, errorTerminate_ph e s,
      errorTerminate_inBuf e s, errorTerminate_epoch e s, errorTerminate_inLen e s, errorTerminate_ie e s,
      errorTerminate_cfg e s, errorTerminate_seq e s, errorTerminate_huff e s, errorTerminate_lzw e s⟩
    cases e <;> rfl
  · rw [exec_eq_conclude] at h
    rcases conclude_cases h with ⟨e, -, rfl⟩ | ⟨u, trail, -, rfl⟩
    · exact ⟨e, rfl⟩
    · rw [succeed_status] at herr
      exact absurd herr Bool.false_ne_true

/-- Settles O57: dispatch of any command checks the length first, and a latched word that is no command ends with `E_CMD`. -/
theorem inputTooLong : Obligations.InputTooLong := by
  have htoo : ∀ (i : Instr) (s : State), s.cfg.inCap.toNat < s.seq.n.toNat → exec i s = .next (errorTerminate .inputLen s) :=
    fun i _ hlen => exec_of_error ((runOf_eq_inputLen_iff i).2 hlen)
  refine ⟨htoo, fun s hb => or_iff_not_imp_left.2 fun hlen => ?_⟩
  by_cases hd : ∃ i, decode s.seq.cmdl = .ok i
  · obtain ⟨i, hi⟩ := hd
    exact .inr ((blockTurn_of_decode hb hi).trans (htoo i s (Nat.lt_of_not_le hlen)))
  · exact .inl ((blockTurn_busy hb).trans (completion_illegal (not_exists.1 hd)))

end Sys2Proof.Machine

/-! SUPPORT. The busy condition over time (70_reset_and_hazards.md): each turn of the outside leaves a busy block busy with
one turn less before it, or ends the busy condition; so a busy block ends its command. -/

namespace Sys2Proof.Machine

variable {s t : State}

/-! ## A busy block under a host transaction -/

/-- Every transaction of the port has its effect (rule R28). -/
theorem hostTurn_next {op : HostOp} (h : op.wellFormed = true) (s : State) : ∃ t, hostTurn op s = .next t := by
  cases op with
  | readReg off => exact ⟨_, hostTurn_readReg h⟩
  | writeReg off v => exact ⟨_, hostTurn_writeReg h v⟩
  | writeIn a v => exact ⟨_, rfl⟩
  | readIn a => exact ⟨_, rfl⟩
  | readOut a => exact ⟨_, rfl⟩
  | writeOut a v => exact ⟨_, rfl⟩

theorem HostEffect.busy {op : HostOp} (he : HostEffect s op t) (hb : s.status.busy = true) : t.status.busy = true := by
  obtain ⟨ie, done, reply, draws, rfl⟩ := he.eq_of_busy hb
  exact hb

theorem HostEffect.agenda_of_busy {op : HostOp} (he : HostEffect s op t) (hb : s.status.busy = true) :
    t.agenda = s.agenda := by
  obtain ⟨ie, done, reply, draws, rfl⟩ := he.eq_of_busy hb
  rfl

/-! ## Runs that end the busy condition -/

/-- The block is no longer busy after some number of steps, at most `n`. -/
def EndsWithin (n : Nat) (s : State) : Prop :=
  ∃ k t, k ≤ n ∧ Host.Core.run core k s = .next t ∧ t.status.busy = false

theorem endsWithin_of_idle (h : s.status.busy = false) (n : Nat) : EndsWithin n s := ⟨0, s, n.zero_le, rfl, h⟩

theorem run_succ_of_step (h : step s = .next t) (k : Nat) : Host.Core.run core (k + 1) s = Host.Core.run core k t := by
  have hstep : core.step s = .next t := h
  simp only [Host.Core.run, hstep]

theorem EndsWithin.of_step {n : Nat} (ht : EndsWithin n t) (h : step s = .next t) : EndsWithin (n + 1) s := by
  obtain ⟨k, u, hk, hrun, hu⟩ := ht
  exact ⟨k + 1, u, Nat.succ_le_succ hk, (run_succ_of_step h k).trans hrun, hu⟩

/-- A step that is the turn of a busy block is the last (rule R340). -/
theorem endsWithin_of_blockTurn {u : State} (h : step s = blockTurn u) (hb : u.status.busy = true) (n : Nat) :
    EndsWithin (n + 1) s := by
  obtain ⟨t, ht⟩ := completion_next u
  exact (endsWithin_of_idle (completion_completed ht).not_busy n).of_step (h.trans ((blockTurn_busy hb).trans ht))

/-- The bound, by induction on the agenda: an empty one leaves the turn to the block, the block's own turn and reset end the
busy condition, and a host transaction leaves the busy block with the rest. -/
theorem endsWithin_of_busy {turns : List Turn} (ha : s.agenda = turns) (hb : s.status.busy = true)
    (hwf : ∀ x ∈ turns, x.wellFormed = true) : EndsWithin (turns.length + 1) s := by
  induction turns generalizing s with
  | nil => exact endsWithin_of_blockTurn (step_of_agenda_nil ha) hb _
  | cons turn rest ih =>
    cases turn with
    | block => exact endsWithin_of_blockTurn (step_block ha) hb _
    | reset =>
      exact (endsWithin_of_idle (congrArg Status.busy (resetEvent_status s.popTurn)) _).of_step (step_reset ha)
    | host op =>
      obtain ⟨hop, hrest⟩ := List.forall_mem_cons.1 hwf
      obtain ⟨t, ht⟩ := hostTurn_next hop { s with agenda := rest }
      have he := hostTurn_effect ht
      exact (ih (he.agenda_of_busy hb) (he.busy hb) hrest).of_step ((step_host ha).trans ht)

/-! ## The statements -/

/-- Settles O59: the bound for the agenda that the block has. -/
theorem busyBlockCompletes : Obligations.BusyBlockCompletes := fun _ hb hwf => endsWithin_of_busy rfl hb hwf

/-- Settles O60: of all that a step can be, a host transaction keeps a busy block busy. -/
theorem onlyCompletionOrResetEndsBusy : Obligations.OnlyCompletionOrResetEndsBusy := by
  intro s t hb hs ht
  cases step_stepped hs with
  | idle hidle => exact absurd (hb.symm.trans hidle) (by decide)
  | completed t ha _ hc => exact ha.imp_right .inl
  | reset ha => exact .inr (.inr ha)
  | host op t ha he => exact absurd ((he.busy hb).symm.trans ht) (by decide)

end Sys2Proof.Machine
